-- ==== Sys2Proof/Word.lean ====
section
/-! DEFINITION. The word types of the block and its two variants (spec/00_scope.md R2, R8; spec/10_state.md R36). -/

namespace Sys2Proof

/-- One byte of the block buffer or of the message. -/
abbrev Byte := BitVec 8

/-- One 64-bit storage word: a register of the host window, or an element of `H`, `wv`, `W` (R36, R44). -/
abbrev Word := BitVec 64

/-- The parameter set `V` of a computation (R2): `V = 0` is SHA-256, `V = 1` is SHA-512. -/
inductive Variant where
  | sha256
  | sha512
  deriving DecidableEq, Repr

end Sys2Proof
end

