-- ==== Sys2Proof/Config.lean ====
section
/-! DEFINITION. What the spec leaves open and the model does not choose: the window's platform address, and the free
values the spec writes `any`. None has a body, so nothing can be proved about which value it is. -/

namespace Sys2Proof

/-- `REG_BASE`, the platform address of the 256-byte host window (R7, R95; U12). Log 15. -/
opaque Config.regBase : Nat

/-- The value a read of LEN or DIGEST returns while `done = 0` (R49, R50: `any`; U1), the n-th draw. Log 3. -/
opaque Config.anyRead : Nat → Word

/-- The running digest after a reset event (R53, R300: unspecified; U2), the n-th draw. Log 4. -/
opaque Config.anyH : Nat → Vector Word 8

/-- The working variables after a reset event (R53, R300; U2), the n-th draw. Log 4. -/
opaque Config.anyWv : Nat → Vector Word 8

/-- The schedule after a reset event (R53, R300; U2), the n-th draw. Log 4. -/
opaque Config.anyW : Nat → Vector Word 80

/-- The block buffer after a reset event (R53, R300; U2), the n-th draw. Log 4. -/
opaque Config.anyBlk : Nat → Vector Byte 128

/-- The length counter after a reset event (R53, R300; U2), the n-th draw. Log 4. -/
opaque Config.anyLen : Nat → BitVec 128

end Sys2Proof
end

