-- ==== Sys2Proof/Syntax.lean ====
section
/-! DEFINITION. The operations of the block: one constructor per row of spec/opcode_table.json, in the three forms of
spec/30_encoding.md R110 (the host's commands, the host's register accesses, the engine's micro-operations). -/

namespace Sys2Proof

/-- What a step can perform. The first three are CMD values (R121), the next three host accesses (R122), the rest the
engine's phases (R116). -/
inductive Instr where
  /-- NOP: the CMD value 0 (R232). -/
  | nop
  /-- START: begin a computation with variant `v` (R231). -/
  | start (v : Variant)
  /-- REJECT: a CMD value that is neither NOP nor START (R275, R276). -/
  | reject (value : Word)
  /-- RD: a host read of the register at byte offset `off` (R237). -/
  | rd (off : BitVec 8)
  /-- WR_CMD: a host write of `data` to CMD, offset 0 (R230). -/
  | wrCmd (data : Word)
  /-- WR: a host write of `data` to another offset (R238). -/
  | wr (off : BitVec 8) (data : Word)
  /-- IDLE: the quiescent phase (R235). -/
  | idle
  /-- FILL: gather message bytes (R152). -/
  | fill
  /-- PAD: complete the block just gathered (R155). -/
  | pad
  /-- PADBLK: the length-only block (R158). -/
  | padblk
  /-- EXTRACT: the first 16 schedule words (R141). -/
  | extract
  /-- SCHED: one schedule word (R186). -/
  | sched
  /-- INITWV: load the working variables (R207). -/
  | initwv
  /-- ROUND: one compression round (R208). -/
  | round
  /-- ACCUM: add into the running digest (R209). -/
  | accum
  /-- FINISH: publish the digest (R234). -/
  | finish
  deriving DecidableEq, Repr

end Sys2Proof
end

