-- ==== Sys2Proof/WellFormed.lean ====
section
/-! DEFINITION. Which instructions some encoding stands for: the operand checks of spec/30_encoding.md R115, R117, R121
and R122. -/

namespace Sys2Proof

/-- The CMD values of the NOP and START rows (R47): every reserved bit 0, OP 0 or 1, and V 0 for NOP. -/
def legalCmd (v : Word) : Bool :=
  v == 0 || v &&& 0xFFFFFFFFFFFFFFEF == 1

/-- `off[2:0] = 000`: an offset that is a multiple of 8 (R86, R115). -/
def alignedOff (off : BitVec 8) : Bool :=
  off &&& 7 == 0

/-- Some encoding decodes to this instruction: a rejected command is no legal one, an access is aligned, and a plain
write is not to CMD. -/
def Instr.wf : Instr → Bool
  | .nop => true
  | .start _ => true
  | .reject value => !legalCmd value
  | .rd off => alignedOff off
  | .wrCmd _ => true
  | .wr off _ => alignedOff off && off != 0
  | .idle => true
  | .fill => true
  | .pad => true
  | .padblk => true
  | .extract => true
  | .sched => true
  | .initwv => true
  | .round => true
  | .accum => true
  | .finish => true

end Sys2Proof
end

