-- ==== Sys2Proof/Decode.lean ====
section
/-! DEFINITION. The three encoded forms of spec/30_encoding.md R110, their total decoders (R121, R122, R123) and, after
them, an encoder written from the same tables (R111, R115, R116). The forms are values, as in the spec: it gives the
register interface no byte layout (D23; log 12). -/

namespace Sys2Proof

/-- One encoded form (R110). -/
inductive Encoded where
  /-- The `cmd` form: a 64-bit command word (R111). -/
  | cmd (value : Word)
  /-- The `bus` form: the 9-bit access word `dir << 8 | off` and the data (R115, R122). -/
  | bus (access : BitVec 9) (data : Word)
  /-- The `phase` form: a 4-bit phase code (R116). -/
  | phase (code : BitVec 4)
  deriving DecidableEq, Repr

/-- Why an encoded form stands for no instruction. -/
inductive DecodeError where
  /-- A bus access whose offset is no multiple of 8: refused by R86. -/
  | misaligned (off : BitVec 8)
  /-- A phase code 10..15: never written by any rule (R123). -/
  | reservedPhase (code : BitVec 4)
  deriving DecidableEq, Repr

/-- The variant that the field V selects (R2, R113). -/
def variantOfBit (b : Bool) : Variant :=
  if b then .sha512 else .sha256

/-- The bit that selects a variant (R2). -/
def bitOfVariant : Variant → Bool
  | .sha256 => false
  | .sha512 => true

/-- `decode_cmd` of R121. -/
def decodeCmd (v : Word) : Instr :=
  if v = 0 then .nop
  else if v.extractLsb' 5 59 = 0 ∧ v.extractLsb' 0 4 = 1 then .start (variantOfBit (v.getLsbD 4))
  else .reject v

/-- Decoding a bus access (R122): direction in bit 8, offset in bits 7..0. A write to CMD takes precedence over WR. -/
def decodeBus (access : BitVec 9) (data : Word) : Except DecodeError Instr :=
  let off := access.extractLsb' 0 8
  if off.extractLsb' 0 3 ≠ 0 then .error (.misaligned off)
  else if access.getLsbD 8 = false then .ok (.rd off)
  else if off = 0 then .ok (.wrCmd data)
  else .ok (.wr off data)

/-- Decoding the phase (R116, R123). -/
def decodePhase (code : BitVec 4) : Except DecodeError Instr :=
  match code.toNat with
  | 0 => .ok .idle
  | 1 => .ok .fill
  | 2 => .ok .pad
  | 3 => .ok .padblk
  | 4 => .ok .extract
  | 5 => .ok .sched
  | 6 => .ok .initwv
  | 7 => .ok .round
  | 8 => .ok .accum
  | 9 => .ok .finish
  | _ => .error (.reservedPhase code)

/-- The instruction an encoded form stands for. -/
def decode : Encoded → Except DecodeError Instr
  | .cmd value => .ok (decodeCmd value)
  | .bus access data => decodeBus access data
  | .phase code => decodePhase code

/-- The command word of START (R111): OP = 1, V in bit 4. -/
def startWord (v : Variant) : Word :=
  (0 : BitVec 59) ++ BitVec.ofBool (bitOfVariant v) ++ (1 : BitVec 4)

/-- The words of an instruction (R111, R115, R116). A read carries no data; its data field is 0. -/
def encode : Instr → Encoded
  | .nop => .cmd 0
  | .start v => .cmd (startWord v)
  | .reject value => .cmd value
  | .rd off => .bus ((0 : BitVec 1) ++ off) 0
  | .wrCmd data => .bus ((1 : BitVec 1) ++ (0 : BitVec 8)) data
  | .wr off data => .bus ((1 : BitVec 1) ++ off) data
  | .idle => .phase 0
  | .fill => .phase 1
  | .pad => .phase 2
  | .padblk => .phase 3
  | .extract => .phase 4
  | .sched => .phase 5
  | .initwv => .phase 6
  | .round => .phase 7
  | .accum => .phase 8
  | .finish => .phase 9

/-- An opcode-table word as an encoded form. The table gives a phase row one byte, a bus row two bytes (its 9-bit access
word; the 64-bit data word follows it) and a cmd row eight. Bits of the bytes that the form does not have must be 0.
Log 12. -/
def tableForm (nbits w : Nat) : Option Encoded :=
  let u := w % 2 ^ nbits
  if nbits ≤ 8 then
    if u < 2 ^ 4 then some (.phase (BitVec.ofNat 4 u)) else none
  else if nbits = 64 then some (.cmd (BitVec.ofNat 64 u))
  else if u % 2 ^ 16 < 2 ^ 9 ∧ u < 2 ^ 80 then
    some (.bus (BitVec.ofNat 9 (u % 2 ^ 16)) (BitVec.ofNat 64 (u / 2 ^ 16)))
  else none

/-- The instruction the decoder reads from an opcode-table word. -/
def decodeTableWord (nbits w : Nat) : Option Instr :=
  match tableForm nbits w with
  | none => none
  | some e =>
    match decode e with
    | .ok i => some i
    | .error _ => none

end Sys2Proof
end

