-- ==== Sys2Proof/Machine/Params.lean ====
section
/-! DEFINITION. The parameters of a variant, the table of spec/00_scope.md R6. -/

namespace Sys2Proof

/-- `w`, the word width in bits. -/
def Variant.width : Variant → Nat
  | .sha256 => 32
  | .sha512 => 64

/-- `ws`, the word width in bytes. -/
def Variant.wordBytes : Variant → Nat
  | .sha256 => 4
  | .sha512 => 8

/-- `N`, the number of rounds and the schedule length. -/
def Variant.rounds : Variant → Nat
  | .sha256 => 64
  | .sha512 => 80

/-- `B`, the block size in bytes. -/
def Variant.blockBytes : Variant → Nat
  | .sha256 => 64
  | .sha512 => 128

/-- `L`, the length-field size in bytes. -/
def Variant.lengthBytes : Variant → Nat
  | .sha256 => 8
  | .sha512 => 16

/-- `LW`, the length-counter width in bits. -/
def Variant.lengthBits : Variant → Nat
  | .sha256 => 64
  | .sha512 => 128

/-- `FINAL_MAX`, the largest data-byte count in a block that still fits the marker and the length. -/
def Variant.finalMax : Variant → Nat
  | .sha256 => 55
  | .sha512 => 111

/-- Three rotation or shift amounts. -/
structure Amounts where
  p : Nat
  q : Nat
  r : Nat
  deriving DecidableEq, Repr

/-- The amounts of σ0: rotr, rotr, shr (R180). -/
def Variant.smallSigma0 : Variant → Amounts
  | .sha256 => ⟨7, 18, 3⟩
  | .sha512 => ⟨1, 8, 7⟩

/-- The amounts of σ1: rotr, rotr, shr (R181). -/
def Variant.smallSigma1 : Variant → Amounts
  | .sha256 => ⟨17, 19, 10⟩
  | .sha512 => ⟨19, 61, 6⟩

/-- The amounts of Σ0: three rotr (R202). -/
def Variant.bigSigma0 : Variant → Amounts
  | .sha256 => ⟨2, 13, 22⟩
  | .sha512 => ⟨28, 34, 39⟩

/-- The amounts of Σ1: three rotr (R203). -/
def Variant.bigSigma1 : Variant → Amounts
  | .sha256 => ⟨6, 11, 25⟩
  | .sha512 => ⟨14, 18, 41⟩

end Sys2Proof
end

