-- ==== Sys2Proof/Machine/State.lean ====
section
/-! DEFINITION. The state of one block instance (spec/10_state.md R30), the inputs and outputs the model adds to it, the
ways a step can stop, and the state after reset (R53). -/

namespace Sys2Proof.Machine

/-- The padding state machine (R34, C1). The value 3 is never written (R34; log 14). -/
inductive PadState where
  | reading
  | padPending
  | done
  deriving DecidableEq, Repr

/-- The engine error recorded in ERRCODE (R271). Values 3..15 are never produced (log 14). -/
inductive ErrCode where
  | none
  | srcFail
  | lenOvf
  deriving DecidableEq, Repr

/-- One answer of the byte source to a request (R82): `k` bytes `data`, end-of-input, failure. The count and the data are
kept apart, since a source may break the protocol of R83. -/
structure SrcResponse where
  k    : Nat
  data : List Byte
  eoi  : Bool
  fail : Bool
  deriving DecidableEq, Repr

/-- One host access to the register window (R85, R115): a byte offset from REG_BASE, the access width in bits (only 64
is legal, R86), and the data of a write. -/
structure BusAccess where
  write : Bool
  off   : Nat
  width : Nat
  data  : Word
  deriving DecidableEq, Repr

/-- The next move of the interleaving (R90; log 5). -/
inductive Event where
  /-- It is the engine's turn. -/
  | engine
  /-- The host makes an access at an offset of the window (R85). -/
  | access (a : BusAccess)
  /-- The host makes an access at a platform address (R95). -/
  | platform (addr : Nat) (a : BusAccess)
  /-- The host writes a command, given by its `cmd` form (R111; log 11). -/
  | command (value : Word)
  /-- The platform asserts reset (R300). -/
  | reset
  /-- The platform gives the source port these answers, and after them, to every further request, `after` (R84, R312;
  log 6). -/
  | supply (answers : List SrcResponse) (after : Option SrcResponse)
  deriving DecidableEq, Repr

/-- The block buffer as byte cells, in the canonical form of `Memory.wf`. -/
abbrev Memory := List Host.Cell

/-- Why the machine stops. Each is a totality guard: the invariant of Sys2Proof/Safety.lean rules its state out. -/
inductive Fault where
  /-- Raised by the engine's fetch on a phase code 10..15 (R123: "faults if one were found"). Safe. -/
  | reservedPhase (code : BitVec 4)
  /-- Raised by FILL when there is no room for the request of R151 (`1 ≤ n ≤ B`). Safe; log 13. -/
  | requestSize
  /-- Raised by PAD when `cnt > B`: the marker's byte does not exist (R37, R155). Safe; log 13. -/
  | blockIndex
  /-- Raised by SCHED when `t` is outside 16..N-1: an operand word does not exist (R186). Safe; log 13. -/
  | scheduleIndex
  /-- Raised by ROUND when `t` is outside 0..N-1: `K[t]` does not exist (R208). Safe; log 13. -/
  | roundIndex
  deriving DecidableEq, Repr

/-- What has no meaning in this model. -/
inductive Refusal where
  /-- Raised by `exec` alone, for an instruction without a meaning. Safe. -/
  | notModelled (mnemonic : String)
  /-- Raised by the fetch of a host access that is not 64 bits wide (R86, U4). Safe. -/
  | accessWidth (width : Nat)
  /-- Raised by the fetch of a host access outside the window (R86, U4). Safe. -/
  | accessOutsideWindow
  /-- Raised by the fetch of a host access, and by RD and WR, at an offset that is no multiple of 8 (R86, U4). Safe. -/
  | accessMisaligned (off : BitVec 8)
  /-- Raised by FILL on a response with `k > n`, or whose data is not `k` bytes (R83, U5). Safe. -/
  | sourceProtocol
  deriving DecidableEq, Repr

/-- The state (R30), then the model's own fields: what the source will answer, who moves next, what the host's reads and
the source's answers have shown so far (newest first), and how many free values have been drawn.

A source need not end, and neither need the other agents' moves (R90, R289): `sourceAfter` is the answer the source gives to
every request once `source` is used up, `none` for a source that never answers again; `agendaAfter` are the moves of the other
agents that start over, an engine's turn after them, whenever `agenda` is used up (R320: the engine is never starved). -/
structure State where
  phase    : BitVec 4
  t        : BitVec 7
  busy     : Bool
  done     : Bool
  err      : Bool
  cmdRej   : Bool
  errcode  : ErrCode
  var      : Variant
  pstate   : PadState
  eoiSeen  : Bool
  cnt      : BitVec 8
  H        : Vector Word 8
  wv       : Vector Word 8
  W        : Vector Word 80
  blk      : Memory
  len      : BitVec 128
  source   : List SrcResponse
  sourceAfter : Option SrcResponse
  agenda   : List Event
  agendaAfter : List Event
  reads    : List Word
  requests : List Nat
  draws    : Nat
  deriving DecidableEq, Repr

/-- The machine right after reset (R53). The datapath, which R53 leaves unspecified, is zero here (logs 1 and 2). -/
def State.reset : State where
  phase    := 0
  t        := 0
  busy     := false
  done     := false
  err      := false
  cmdRej   := false
  errcode  := .none
  var      := .sha256
  pstate   := .reading
  eoiSeen  := false
  cnt      := 0
  H        := Vector.replicate 8 0
  wv       := Vector.replicate 8 0
  W        := Vector.replicate 80 0
  blk      := []
  len      := 0
  source   := []
  sourceAfter := none
  agenda   := []
  agendaAfter := []
  reads    := []
  requests := []
  draws    := 0

end Sys2Proof.Machine
end

