-- ==== Sys2Proof/Machine/Flags.lean ====
section
/-! DEFINITION. The status bits and the conditions that write them: the codes and the STATUS word of spec/10_state.md R48,
the length overflow of spec/60_exceptions.md R274, the padding classification of spec/42_padder.md R154. -/

namespace Sys2Proof.Machine

/-- The 2-bit code of PSTATE (R34). -/
def PadState.code : PadState → BitVec 2
  | .reading => 0
  | .padPending => 1
  | .done => 2

/-- The 4-bit code of ERRCODE (R271). -/
def ErrCode.code : ErrCode → BitVec 4
  | .none => 0
  | .srcFail => 1
  | .lenOvf => 2

/-- The STATUS word (R48), most significant field first. -/
def statusWord (s : State) : Word :=
  (0 : BitVec 32) ++ s.cnt ++ (0 : BitVec 1) ++ s.t ++ s.phase ++ s.errcode.code ++ BitVec.ofBool s.eoiSeen ++
    s.pstate.code ++ BitVec.ofBool (bitOfVariant s.var) ++ BitVec.ofBool s.cmdRej ++ BitVec.ofBool s.err ++
    BitVec.ofBool s.done ++ BitVec.ofBool s.busy

/-- LEN_OVF's condition: the new bit length does not fit the counter (R274). -/
def lengthOverflows (s : State) (k : Nat) : Bool :=
  2 ^ s.var.lengthBits ≤ s.len.toNat + 8 * k

/-- The three cases of PAD (R154). -/
inductive PadCase where
  | full
  | final
  | spill
  deriving DecidableEq, Repr

/-- The case of a block with `c` data bytes, `none` above `B` (R154). -/
def padCase (v : Variant) (c : Nat) : Option PadCase :=
  if c = v.blockBytes then some .full
  else if c ≤ v.finalMax then some .final
  else if c < v.blockBytes then some .spill
  else none

/-- The phase after FILL has taken `k` bytes (R152): PAD (2) when the block is full or the input has ended, else FILL (1). -/
def phaseAfterFill (s : State) (k : Nat) (eoi : Bool) : BitVec 4 :=
  if s.cnt.toNat + k = s.var.blockBytes ∨ eoi = true then 2 else 1

/-- The phase after ACCUM (R209): FINISH (9), PADBLK (3) or FILL (1). -/
def phaseAfterAccum : PadState → BitVec 4
  | .done => 9
  | .padPending => 3
  | .reading => 1

end Sys2Proof.Machine
end

