-- ==== Sys2Proof/Machine/Operands.lean ====
section
/-! DEFINITION. The operand forms of the micro-operations: words of the variant's width and the combinational units on
them (spec/00_scope.md R8 to R11, spec/43_scheduler.md R180, R181, spec/44_compressor.md R200 to R205), the constant
words, and the big-endian byte forms (R12). -/

namespace Sys2Proof

/-- `Word_V`: an unsigned word of the variant's width (R8). -/
abbrev VWord (v : Variant) := BitVec v.width

/-- `lo_w`: the word of the variant that a stored 64-bit value holds (R13, R36). -/
def lo (v : Variant) (x : Word) : VWord v :=
  x.setWidth v.width

/-- `zext_64` (R13). -/
def zext {v : Variant} (x : VWord v) : Word :=
  x.setWidth 64

/-- Logical right shift (R11). -/
def shr {w : Nat} (x : BitVec w) (n : Nat) : BitVec w :=
  x >>> n

/-- Right rotation: `shr(x, n) | (x * 2^(w-n)) mod 2^w` (R11). -/
def rotr {w : Nat} (x : BitVec w) (n : Nat) : BitVec w :=
  shr x n ||| (x <<< (w - n))

/-- σ0 (R180). -/
def smallSigma0 (v : Variant) (x : VWord v) : VWord v :=
  rotr x v.smallSigma0.p ^^^ rotr x v.smallSigma0.q ^^^ shr x v.smallSigma0.r

/-- σ1 (R181). -/
def smallSigma1 (v : Variant) (x : VWord v) : VWord v :=
  rotr x v.smallSigma1.p ^^^ rotr x v.smallSigma1.q ^^^ shr x v.smallSigma1.r

/-- Σ0 (R202). -/
def bigSigma0 (v : Variant) (x : VWord v) : VWord v :=
  rotr x v.bigSigma0.p ^^^ rotr x v.bigSigma0.q ^^^ rotr x v.bigSigma0.r

/-- Σ1 (R203). -/
def bigSigma1 (v : Variant) (x : VWord v) : VWord v :=
  rotr x v.bigSigma1.p ^^^ rotr x v.bigSigma1.q ^^^ rotr x v.bigSigma1.r

/-- Ch, the choose function (R200). -/
def ch {w : Nat} (x y z : BitVec w) : BitVec w :=
  (x &&& y) ^^^ (~~~x &&& z)

/-- Maj, the majority function (R201). -/
def maj {w : Nat} (x y z : BitVec w) : BitVec w :=
  (x &&& y) ^^^ (x &&& z) ^^^ (y &&& z)

/-- `K_V[t]` (R40, R41). -/
def romK (v : Variant) (t : Nat) : VWord v :=
  match v with
  | .sha256 => K256.getD t 0
  | .sha512 => K512.getD t 0

/-- `IV_V[i]` (R42, R43). -/
def romIV (v : Variant) (i : Nat) : VWord v :=
  match v with
  | .sha256 => IV256.getD i 0
  | .sha512 => IV512.getD i 0

/-- T1 of a round, from `e f g h`, `K_V[t]` and `W[t]` (R204). -/
def temp1 (v : Variant) (e f g h k w : VWord v) : VWord v :=
  h + bigSigma1 v e + ch e f g + k + w

/-- T2 of a round, from `a b c` (R205). -/
def temp2 (v : Variant) (a b c : VWord v) : VWord v :=
  bigSigma0 v a + maj a b c

/-- The schedule word at `t` from the words at `t-2`, `t-7`, `t-15`, `t-16` (R182). -/
def scheduleWord (v : Variant) (w2 w7 w15 w16 : VWord v) : VWord v :=
  smallSigma1 v w2 + w7 + smallSigma0 v w15 + w16

/-- `BEdec`: the unsigned number whose bytes are given, most significant first, as a stored word (R12). -/
def beDecode (bytes : List Byte) : Word :=
  bytes.foldl (fun acc b => (acc <<< 8) ||| b.setWidth 64) 0

/-- `BE_k(x)`: the `k` low bytes of `x`, most significant first (R12). -/
def beBytes (k : Nat) (x : BitVec 128) : List Byte :=
  (List.range k).map fun j => x.extractLsb' (8 * (k - 1 - j)) 8

end Sys2Proof
end

