-- ==== Sys2Proof/Machine/Ops.lean ====
section
/-! DEFINITION. The named operations over the block buffer and the registers, and the shared actions: the engine error
(spec/60_exceptions.md R272), the command rejection (R275), the start of a computation that is the only recovery from an
error (R231, R279), reset (R300), and the register reads (R237). -/

namespace Sys2Proof.Machine

/-! ### The block buffer -/

/-- What a byte of the block buffer that no cell lists reads as. The spec leaves the buffer's reset contents unspecified
(R53). DESIGN CHOICE, unsafe: log 2. -/
def Memory.unlisted : Byte := 0

/-- The canonical form: addresses strictly rise and no listed byte is the unlisted one. -/
abbrev Memory.wf (m : Memory) : Prop :=
  m.Pairwise (fun x y => x.1 < y.1) ∧ ∀ c ∈ m, c.2 ≠ Memory.unlisted

/-- Every listed address is below `n`. -/
abbrev Memory.below (m : Memory) (n : Nat) : Prop :=
  ∀ c ∈ m, c.1 < n

/-- `blk[a]`. -/
def Memory.read : Memory → Nat → Byte
  | [], _ => Memory.unlisted
  | (a', b) :: m, a => if a' = a then b else Memory.read m a

/-- A cell in front of a memory, left out when its byte is the unlisted one. -/
def Memory.cell (a : Nat) (b : Byte) (m : Memory) : Memory :=
  if b = Memory.unlisted then m else (a, b) :: m

/-- `blk[a] <- b`. -/
def Memory.write : Memory → Nat → Byte → Memory
  | [], a, b => Memory.cell a b []
  | (a', b') :: m, a, b =>
    if a < a' then Memory.cell a b ((a', b') :: m)
    else if a = a' then Memory.cell a b m
    else (a', b') :: Memory.write m a b

/-- `blk[a + j] <- bytes[j]` for every `j`. -/
def Memory.writeList (m : Memory) (a : Nat) : List Byte → Memory
  | [] => m
  | b :: bytes => Memory.writeList (Memory.write m a b) (a + 1) bytes

/-- The `k` bytes from `blk[a]` on. -/
def Memory.readList (m : Memory) (a k : Nat) : List Byte :=
  (List.range k).map fun j => Memory.read m (a + j)

/-- Word `i` of the block, `words_V(blk)[i]` (R87, R140), as a stored word. -/
def blockWord (v : Variant) (m : Memory) (i : Nat) : Word :=
  beDecode (Memory.readList m (i * v.wordBytes) v.wordBytes)

/-! ### The padding bytes -/

/-- From `blk[c]` on, the FINAL block's padding: the marker, zeros, and the length field (R155, R156, R157). -/
def finalPadding (v : Variant) (c : Nat) (len : BitVec 128) : List Byte :=
  0x80 :: List.replicate (v.blockBytes - v.lengthBytes - (c + 1)) 0 ++ beBytes v.lengthBytes len

/-- From `blk[c]` on, the SPILL block's padding: the marker and zeros (R155, R156). -/
def spillPadding (v : Variant) (c : Nat) : List Byte :=
  0x80 :: List.replicate (v.blockBytes - (c + 1)) 0

/-- The length-only block: zeros and the length field (R158). -/
def lengthBlock (v : Variant) (len : BitVec 128) : List Byte :=
  List.replicate (v.blockBytes - v.lengthBytes) 0 ++ beBytes v.lengthBytes len

/-! ### The engine's registers -/

/-- `lo_w(W[i])`. -/
def State.schedule (s : State) (i : Nat) : VWord s.var :=
  lo s.var (s.W.getD i 0)

/-- `lo_w(wv[i])`: the working variables a, b, c, d, e, f, g, h for i = 0..7 (R36). -/
def State.working (s : State) (i : Nat) : VWord s.var :=
  lo s.var (s.wv.getD i 0)

/-- The words a round writes into `wv` (R206, R208). -/
def roundWorking (s : State) : Vector Word 8 :=
  let t1 := temp1 s.var (s.working 4) (s.working 5) (s.working 6) (s.working 7) (romK s.var s.t.toNat)
    (s.schedule s.t.toNat)
  let t2 := temp2 s.var (s.working 0) (s.working 1) (s.working 2)
  #v[zext (t1 + t2), zext (s.working 0), zext (s.working 1), zext (s.working 2),
     zext (s.working 3 + t1), zext (s.working 4), zext (s.working 5), zext (s.working 6)]

/-- The schedule word SCHED computes (R186). -/
def nextScheduleWord (s : State) : Word :=
  let t := s.t.toNat
  zext (scheduleWord s.var (s.schedule (t - 2)) (s.schedule (t - 7)) (s.schedule (t - 15)) (s.schedule (t - 16)))

/-- The running digest after ACCUM (R209): `zext_64(lo_w(H[i]) + lo_w(wv[i]))`. -/
def accumulated (s : State) : Vector Word 8 :=
  Vector.ofFn fun i => zext (lo s.var s.H[i] + s.working i.val)

/-- The schedule after EXTRACT (R141): the 16 words of the block, the rest as before. -/
def extracted (s : State) : Vector Word 80 :=
  Vector.ofFn fun i => if i.val < 16 then blockWord s.var s.blk i.val else s.W[i]

/-- The standard initial hash value of a variant, stored (R231). -/
def initialDigest (v : Variant) : Vector Word 8 :=
  Vector.ofFn fun i => zext (romIV v i.val)

/-- `n = B - cnt`: the size of the next source request (R151). -/
def requestSize (s : State) : Nat :=
  s.var.blockBytes - s.cnt.toNat

/-- The source's answer to a request and the answers that then remain, `none` when it does not answer (R82, R289; log 6). -/
def nextAnswer (s : State) : Option (SrcResponse × List SrcResponse) :=
  match s.source with
  | r :: answers => some (r, answers)
  | [] => s.sourceAfter.map fun r => (r, [])

/-- The engine has an enabled step (R235): a computation is in flight and, where FILL must ask the source, it answers. -/
def engineEnabled (s : State) : Bool :=
  s.busy && !(s.phase == 1 && !s.eoiSeen && (nextAnswer s).isNone)

/-! ### Shared actions -/

/-- `raise EngineError(code)` (R272): the whole effect of the failing step. -/
def raiseEngineError (code : ErrCode) (s : State) : State :=
  { s with err := true, errcode := code, busy := false, done := false, phase := 0 }

/-- `reject()` (R275). -/
def rejectCommand (s : State) : State :=
  { s with cmdRej := true }

/-- The effect of an accepted START (R231), which is also the only recovery from an engine error (R279). -/
def beginComputation (v : Variant) (s : State) : State :=
  { s with
    var := v, H := initialDigest v, len := 0, cnt := 0, t := 0, pstate := .reading, eoiSeen := false,
    done := false, err := false, errcode := .none, cmdRej := false, busy := true, phase := 1 }

/-- START, accepted when no computation is in flight and rejected otherwise (R230, R231, R276). -/
def startOrReject (v : Variant) (s : State) : State :=
  if s.busy then rejectCommand s else beginComputation v s

/-- What a CMD write of `value` does (R230). -/
def performCommand (value : Word) (s : State) : State :=
  match decodeCmd value with
  | .nop => s
  | .start v => startOrReject v s
  | _ => rejectCommand s

/-- A source transaction (R82, R84): the answer is taken from the port and the request's size is shown. -/
def takeAnswer (answers : List SrcResponse) (s : State) : State :=
  { s with source := answers, requests := requestSize s :: s.requests }

/-- The answer's bytes go into the block buffer (R152). -/
def acceptBytes (r : SrcResponse) (s : State) : State :=
  { s with
    blk := Memory.writeList s.blk s.cnt.toNat r.data
    cnt := s.cnt + BitVec.ofNat 8 r.k
    len := s.len + BitVec.ofNat 128 (8 * r.k)
    eoiSeen := r.eoi
    phase := phaseAfterFill s r.k r.eoi }

/-- Reset (R300): the control state at its reset values, the datapath unspecified. The source, the agenda and what has been
shown outside are not the block's (R301). Log 4. -/
def resetBlock (s : State) : State :=
  { State.reset with
    H := Config.anyH s.draws, wv := Config.anyWv s.draws, W := Config.anyW s.draws,
    blk := Memory.writeList [] 0 (Config.anyBlk s.draws).toList, len := Config.anyLen s.draws,
    source := s.source, sourceAfter := s.sourceAfter, agenda := s.agenda, agendaAfter := s.agendaAfter,
    reads := s.reads, requests := s.requests, draws := s.draws + 1 }

/-! ### The register window -/

/-- The registers of the window (R44). -/
inductive Register where
  | cmd
  | status
  | lenLo
  | lenHi
  | digest (i : Fin 8)
  | reserved
  deriving DecidableEq, Repr

/-- The register at an aligned offset (R44). -/
def registerAt (off : BitVec 8) : Register :=
  match off.toNat / 8 with
  | 0 => .cmd
  | 1 => .status
  | 2 => .lenLo
  | 3 => .lenHi
  | 8 => .digest 0
  | 9 => .digest 1
  | 10 => .digest 2
  | 11 => .digest 3
  | 12 => .digest 4
  | 13 => .digest 5
  | 14 => .digest 6
  | 15 => .digest 7
  | _ => .reserved

/-- What the register reads, `none` where the spec writes `any` (R46 to R51). -/
def registerValue (s : State) : Register → Option Word
  | .cmd => some 0
  | .status => some (statusWord s)
  | .lenLo => if s.done then some (s.len.extractLsb' 0 64) else none
  | .lenHi => if s.done then some (s.len.extractLsb' 64 64) else none
  | .digest i => if s.done then some (zext (lo s.var s.H[i])) else none
  | .reserved => some 0

/-- The host's read of a register (R237): its value is shown to the host; `any` is a fresh draw. -/
def readRegister (r : Register) (s : State) : State :=
  match registerValue s r with
  | some v => { s with reads := v :: s.reads }
  | none => { s with reads := Config.anyRead s.draws :: s.reads, draws := s.draws + 1 }

/-- The offset of a platform address in the window, if it lies in it (R95). -/
def windowOffset (addr : Nat) : Option Nat :=
  if Config.regBase ≤ addr ∧ addr < Config.regBase + 256 then some (addr - Config.regBase) else none

end Sys2Proof.Machine
end

