-- ==== Sys2Proof/Machine/Bus.lean ====
section
/-! DEFINITION. The host's register accesses (spec/45_digest_driver.md R230, R237, R238). -/

namespace Sys2Proof.Machine

/-- An access at an offset that is no multiple of 8 is refused (R86); any other is performed. -/
def atAligned (off : BitVec 8) (s : State) : Host.Outcome State Fault Refusal :=
  if alignedOff off then .next s else .refused (.accessMisaligned off)

/-- RD: the register's value is returned to the host; no side effect (R237). -/
def execRd (off : BitVec 8) (s : State) : Host.Outcome State Fault Refusal :=
  atAligned off (readRegister (registerAt off) s)

/-- WR_CMD: the written word is decoded as a command and performed (R230). -/
def execWrCmd (data : Word) (s : State) : Host.Outcome State Fault Refusal :=
  .next (performCommand data s)

/-- WR: a write to any offset but CMD's changes nothing (R238). At offset 0, an ill-formed WR, it is the write to CMD that
takes precedence in R122 (log 20). -/
def execWr (off : BitVec 8) (data : Word) (s : State) : Host.Outcome State Fault Refusal :=
  atAligned off (if off = 0 then performCommand data s else s)

end Sys2Proof.Machine
end

