-- ==== Sys2Proof/Machine/Commands.lean ====
section
/-! DEFINITION. The host's commands (spec/45_digest_driver.md R231, R232; spec/60_exceptions.md R275). -/

namespace Sys2Proof.Machine

/-- NOP: no state change (R232). -/
def execNop (s : State) : Host.Outcome State Fault Refusal :=
  .next s

/-- START(V): begin one hash computation, or be rejected while one is in flight (R231, R276). -/
def execStart (v : Variant) (s : State) : Host.Outcome State Fault Refusal :=
  .next (startOrReject v s)

/-- REJECT: the rejection of an illegal command word; the word itself is not recorded (R275). -/
def execReject (_value : Word) (s : State) : Host.Outcome State Fault Refusal :=
  .next (rejectCommand s)

end Sys2Proof.Machine
end

