-- ==== Sys2Proof/Machine/Compressor.lean ====
section
/-! DEFINITION. The compressor and digest accumulator (spec/44_compressor.md): INITWV, ROUND, ACCUM. -/

namespace Sys2Proof.Machine

/-- INITWV: load the working variables from the running digest (R207). -/
def execInitwv (s : State) : Host.Outcome State Fault Refusal :=
  .next { s with wv := s.H, t := 0, phase := 7 }

/-- ROUND: one compression round, `t` in 0..N-1 (R208). -/
def execRound (s : State) : Host.Outcome State Fault Refusal :=
  if s.var.rounds ≤ s.t.toNat then .fault .roundIndex
  else if s.t.toNat + 1 = s.var.rounds then .next { s with wv := roundWorking s, t := 0, phase := 8 }
  else .next { s with wv := roundWorking s, t := s.t + 1, phase := 7 }

/-- ACCUM: add the working variables into the running digest, then choose the next block (R209). -/
def execAccum (s : State) : Host.Outcome State Fault Refusal :=
  .next { s with
    H := accumulated s
    cnt := if s.pstate = .reading then 0 else s.cnt
    phase := phaseAfterAccum s.pstate }

end Sys2Proof.Machine
end

