-- ==== Sys2Proof/Machine/Driver.lean ====
section
/-! DEFINITION. The digest driver's own phases (spec/45_digest_driver.md): IDLE and FINISH. -/

namespace Sys2Proof.Machine

/-- IDLE: the engine has no step; all state is kept (R235, R287; log 9). -/
def execIdle (s : State) : Host.Outcome State Fault Refusal :=
  .next s

/-- FINISH: publish the digest (R234). -/
def execFinish (s : State) : Host.Outcome State Fault Refusal :=
  .next { s with done := true, busy := false, phase := 0 }

end Sys2Proof.Machine
end

