-- ==== Sys2Proof/Machine/Extractor.lean ====
section
/-! DEFINITION. The word extractor (spec/41_word_extractor.md): EXTRACT. -/

namespace Sys2Proof.Machine

/-- EXTRACT: load the first 16 schedule words from the block (R141). -/
def execExtract (s : State) : Host.Outcome State Fault Refusal :=
  .next { s with W := extracted s, t := 16, phase := 5 }

end Sys2Proof.Machine
end

