-- ==== Sys2Proof/Machine/Padder.lean ====
section
/-! DEFINITION. The padder and block reader (spec/42_padder.md): FILL, PAD, PADBLK. -/

namespace Sys2Proof.Machine

/-- FILL's handling of one answer of the source, in the order of R152 and R277: failure, then the protocol of R83, then
LEN_OVF, then the bytes. -/
def fillFrom (r : SrcResponse) (answers : List SrcResponse) (s : State) : Host.Outcome State Fault Refusal :=
  if r.fail then .next (raiseEngineError .srcFail (takeAnswer answers s))
  else if requestSize s < r.k ∨ r.data.length ≠ r.k then .refused .sourceProtocol
  else if lengthOverflows s r.k then .next (raiseEngineError .lenOvf (takeAnswer answers s))
  else .next (acceptBytes r (takeAnswer answers s))

/-- FILL: gather message bytes into the block buffer (R152). With the end of input latched it makes no request; while the
source does not answer, the engine waits in FILL and nothing changes (R82, R289; log 9). -/
def execFill (s : State) : Host.Outcome State Fault Refusal :=
  if s.eoiSeen then .next { s with phase := 2 }
  else if requestSize s = 0 then .fault .requestSize
  else
    match nextAnswer s with
    | none => .next s
    | some (r, answers) => fillFrom r answers s

/-- PAD: complete the block just gathered (R155). -/
def execPad (s : State) : Host.Outcome State Fault Refusal :=
  match padCase s.var s.cnt.toNat with
  | some .full => .next { s with phase := 4 }
  | some .final =>
    .next { s with
      blk := Memory.writeList s.blk s.cnt.toNat (finalPadding s.var s.cnt.toNat s.len), pstate := .done, phase := 4 }
  | some .spill =>
    .next { s with
      blk := Memory.writeList s.blk s.cnt.toNat (spillPadding s.var s.cnt.toNat), pstate := .padPending, phase := 4 }
  | none => .fault .blockIndex

/-- PADBLK: the length-only block that follows a SPILL block (R158). -/
def execPadblk (s : State) : Host.Outcome State Fault Refusal :=
  .next { s with blk := Memory.writeList s.blk 0 (lengthBlock s.var s.len), pstate := .done, phase := 4 }

end Sys2Proof.Machine
end

