-- ==== Sys2Proof/Machine/Scheduler.lean ====
section
/-! DEFINITION. The message scheduler (spec/43_scheduler.md): SCHED. -/

namespace Sys2Proof.Machine

/-- SCHED: compute one schedule word, `t` in 16..N-1 (R186). -/
def execSched (s : State) : Host.Outcome State Fault Refusal :=
  if s.t.toNat < 16 ∨ s.var.rounds ≤ s.t.toNat then .fault .scheduleIndex
  else
    let W := s.W.setIfInBounds s.t.toNat (nextScheduleWord s)
    if s.t.toNat + 1 = s.var.rounds then .next { s with W := W, t := 0, phase := 6 }
    else .next { s with W := W, t := s.t + 1, phase := 5 }

end Sys2Proof.Machine
end

