-- ==== Sys2Proof/Machine/Dispatch.lean ====
section
/-! DEFINITION. One arm per constructor of Instr: the meaning of each row of spec/opcode_table.json. -/

namespace Sys2Proof.Machine

/-- What an instruction does (files 41 to 45 and 60 of the spec). -/
def exec (i : Instr) (s : State) : Host.Outcome State Fault Refusal :=
  match i with
  -- the host's commands
  | .nop => Sys2Proof.Machine.execNop s
  | .start v => Sys2Proof.Machine.execStart v s
  | .reject value => Sys2Proof.Machine.execReject value s
  -- the host's register accesses
  | .rd off => Sys2Proof.Machine.execRd off s
  | .wrCmd data => Sys2Proof.Machine.execWrCmd data s
  | .wr off data => Sys2Proof.Machine.execWr off data s
  -- the engine's micro-operations
  | .idle => Sys2Proof.Machine.execIdle s
  | .fill => Sys2Proof.Machine.execFill s
  | .pad => Sys2Proof.Machine.execPad s
  | .padblk => Sys2Proof.Machine.execPadblk s
  | .extract => Sys2Proof.Machine.execExtract s
  | .sched => Sys2Proof.Machine.execSched s
  | .initwv => Sys2Proof.Machine.execInitwv s
  | .round => Sys2Proof.Machine.execRound s
  | .accum => Sys2Proof.Machine.execAccum s
  | .finish => Sys2Proof.Machine.execFinish s

end Sys2Proof.Machine
end

