-- ==== Sys2Proof/Machine/Fetch.lean ====
section
/-! DEFINITION. What the next step performs: the head of the agenda, decoded (spec/20_memory.md R85, R86, R90;
spec/30_encoding.md R121, R122, R123; spec/45_digest_driver.md R235). -/

namespace Sys2Proof.Machine

/-- What a step has to do. -/
inductive Fetched where
  /-- Perform an instruction of the block on this state. -/
  | run (i : Instr) (s : State)
  /-- Nothing of the block: the environment has moved to this state. -/
  | environment (s : State)
  /-- The engine's guard. -/
  | fault (f : Fault)
  /-- The move has no meaning. -/
  | refused (r : Refusal)
  deriving DecidableEq, Repr

/-- The engine's turn: the micro-operation its phase register names (R123), while a computation is in flight; with
`busy = 0` the engine has no step (R235). -/
def fetchEngine (s : State) : Fetched :=
  if s.busy then
    match decode (.phase s.phase) with
    | .ok i => .run i s
    | .error _ => .fault (.reservedPhase s.phase)
  else .run .idle s

/-- The `bus` form of a host access inside the window (R115). -/
def BusAccess.encoded (a : BusAccess) : Encoded :=
  .bus (BitVec.ofBool a.write ++ BitVec.ofNat 8 a.off) a.data

/-- A host access (R86, R122): 64 bits wide, inside the window, aligned; any other is refused. -/
def fetchAccess (a : BusAccess) (s : State) : Fetched :=
  if a.width ≠ 64 then .refused (.accessWidth a.width)
  else if 256 ≤ a.off then .refused .accessOutsideWindow
  else
    match decode a.encoded with
    | .ok i => .run i s
    | .error _ => .refused (.accessMisaligned (BitVec.ofNat 8 a.off))

/-- A host access at a platform address: the access at its offset in the window (R95); outside it, refused (R86). -/
def fetchPlatform (addr : Nat) (a : BusAccess) (s : State) : Fetched :=
  match windowOffset addr with
  | some off => fetchAccess { a with off := off } s
  | none => .refused .accessOutsideWindow

/-- One move. -/
def fetchEvent (e : Event) (s : State) : Fetched :=
  match e with
  | .engine => fetchEngine s
  | .access a => fetchAccess a s
  | .platform addr a => fetchPlatform addr a s
  | .command value => .run (decodeCmd value) s
  | .reset => .environment (resetBlock s)
  | .supply answers after => .environment { s with source := answers, sourceAfter := after }

/-- The next move and the agenda after it: the agenda's first move; when the agenda is used up, the moves that start over,
which end in a turn of the engine, so that no agenda starves it (R90, R320; log 5). -/
def nextMove (s : State) : Event × List Event :=
  match s.agenda, s.agendaAfter with
  | e :: rest, _ => (e, rest)
  | [], e :: rest => (e, rest ++ [.engine])
  | [], [] => (.engine, [])

/-- The next step: the next move, which is then over. -/
def fetch (s : State) : Fetched :=
  fetchEvent (nextMove s).1 { s with agenda := (nextMove s).2 }

/-- The index with which the engine enters a phase (R32): 16 in SCHED, 0 elsewhere. -/
def entryIndex (code : BitVec 4) : BitVec 7 :=
  if code = 5 then 16 else 0

/-- Place an encoded form where the next step finds it: a phase in the engine's sequencing state (`phase` and `t`, R31)
with the engine's turn next; a command or an access as the host's next move. -/
def placeForm (e : Encoded) (s : State) : State :=
  match e with
  | .cmd value => { s with agenda := .command value :: s.agenda }
  | .bus access data =>
    { s with agenda := .access ⟨access.getLsbD 8, (access.extractLsb' 0 8).toNat, 64, data⟩ :: s.agenda }
  | .phase code =>
    { s with phase := code, t := entryIndex code, busy := code != 0, agenda := .engine :: s.agenda }

end Sys2Proof.Machine
end

