-- ==== Sys2Proof/Machine/Step.lean ====
section
/-! DEFINITION. One atomic step of one agent (spec/20_memory.md R90). -/

namespace Sys2Proof.Machine

/-- One step: what the fetch finds is performed. -/
def step (s : State) : Host.Outcome State Fault Refusal :=
  match fetch s with
  | .run i s' => exec i s'
  | .environment s' => .next s'
  | .fault f => .fault f
  | .refused r => .refused r

/-- `s` with an opcode-table word where the next step finds it (log 16). -/
def State.withFetchWord (s : State) (nbits w : Nat) : State :=
  match tableForm nbits w with
  | some e => placeForm e s
  | none => s

end Sys2Proof.Machine
end

