-- ==== Sys2Proof/Machine/Whole.lean ====
section
/-! DEFINITION. What one computation computes, as a whole and without the machine: the block's words (spec/41 R140), the
schedule (spec/43 R182), one round (spec/44 R206), the compression function (R210), the padding (spec/42 R159), the hash
(spec/45 R239), and how a source delivers a message (spec/00 R14, spec/20 R82). No step uses these; claims do. -/

namespace Sys2Proof

/-- Eight words of the variant: a running digest or the working variables (R36). -/
abbrev Digest (v : Variant) := Vector (VWord v) 8

/-- `words_V(block)[i]` (R140). -/
def wordOf (v : Variant) (block : List Byte) (i : Nat) : VWord v :=
  lo v (beDecode ((block.drop (i * v.wordBytes)).take v.wordBytes))

/-- The 16 words of a block (R140). -/
def blockWords (v : Variant) (block : List Byte) : List (VWord v) :=
  (List.range 16).map (wordOf v block)

/-- A schedule prefix with one more word (R182). -/
def scheduleNext (v : Variant) (ws : List (VWord v)) : List (VWord v) :=
  let t := ws.length
  ws ++ [scheduleWord v (ws.getD (t - 2) 0) (ws.getD (t - 7) 0) (ws.getD (t - 15) 0) (ws.getD (t - 16) 0)]

/-- The first `16 + n` schedule words from the 16 words of a block (R182). -/
def schedulePrefix (v : Variant) (ws : List (VWord v)) : Nat → List (VWord v)
  | 0 => ws
  | n + 1 => scheduleNext v (schedulePrefix v ws n)

/-- The schedule of a block: `N` words (R182). -/
def scheduleOf (v : Variant) (block : List Byte) : List (VWord v) :=
  schedulePrefix v (blockWords v block) (v.rounds - 16)

/-- One round on the working variables `(a, …, h)` (R204, R205, R206). -/
def roundOf (v : Variant) (k w : VWord v) (x : Digest v) : Digest v :=
  let t1 := temp1 v x[4] x[5] x[6] x[7] k w
  let t2 := temp2 v x[0] x[1] x[2]
  #v[t1 + t2, x[0], x[1], x[2], x[3] + t1, x[4], x[5], x[6]]

/-- The first `n` rounds with the schedule `ws` (R206, R208). -/
def roundsOf (v : Variant) (ws : List (VWord v)) (x : Digest v) : Nat → Digest v
  | 0 => x
  | n + 1 => roundOf v (romK v n) (ws.getD n 0) (roundsOf v ws x n)

/-- `C_V(H, block)`: the compression function (R210). -/
def compress (v : Variant) (H : Digest v) (block : List Byte) : Digest v :=
  let out := roundsOf v (scheduleOf v block) H v.rounds
  Vector.ofFn fun i => H[i] + out[i]

/-- `z` of R159: the least number of zero bytes that makes the padded length a multiple of `B`. -/
def zeroFill (v : Variant) (n : Nat) : Nat :=
  (v.blockBytes - (n + 1 + v.lengthBytes) % v.blockBytes) % v.blockBytes

/-- The padded message (R159). -/
def padded (v : Variant) (m : List Byte) : List Byte :=
  m ++ 0x80 :: List.replicate (zeroFill v m.length) 0 ++ beBytes v.lengthBytes (BitVec.ofNat 128 (8 * m.length))

/-- The number of blocks of a message of `n` bytes: `ceil((n + L + 1)/B)` (R159). -/
def blockCount (v : Variant) (n : Nat) : Nat :=
  (n + v.lengthBytes + 1 + (v.blockBytes - 1)) / v.blockBytes

/-- Block `j` of a byte sequence (R150). -/
def blockAt (v : Variant) (bytes : List Byte) (j : Nat) : List Byte :=
  (bytes.drop (j * v.blockBytes)).take v.blockBytes

/-- The running digest after the first `j` blocks of the padded message, from the IV (R239). -/
def digestAfter (v : Variant) (m : List Byte) : Nat → Digest v
  | 0 => Vector.ofFn fun i => romIV v i.val
  | j + 1 => compress v (digestAfter v m j) (blockAt v (padded v m) j)

/-- `SHA_V(m)` (R239). -/
def sha (v : Variant) (m : List Byte) : Digest v :=
  digestAfter v m (blockCount v m.length)

/-- The digest as a byte string (R50): each word big-endian, in order. -/
def digestBytes (v : Variant) (d : Digest v) : List Byte :=
  d.toList.flatMap fun x => beBytes v.wordBytes (x.setWidth 128)

open Sys2Proof.Machine in
/-- The message that answers deliver: their data bytes in order (R14). -/
def messageOf (answers : List SrcResponse) : List Byte :=
  answers.flatMap SrcResponse.data

open Sys2Proof.Machine in
/-- Answers that keep the source's duty to requests made with `cnt` bytes already in the block (R82, R83, R151): none
fails, each gives `k` bytes within the room left, and exactly the last one signals end-of-input. -/
def answersWell (v : Variant) : Nat → List SrcResponse → Bool
  | _, [] => false
  | cnt, r :: rs =>
    !r.fail && r.data.length == r.k && decide (r.k ≤ v.blockBytes - cnt) &&
      (if r.eoi then rs.isEmpty else answersWell v ((cnt + r.k) % v.blockBytes) rs)

open Sys2Proof.Machine in
/-- The FILL steps that make no request (R240): one, when the last answer ended the input and filled its block. -/
def latchedFills (v : Variant) (answers : List SrcResponse) : Nat :=
  if (messageOf answers).length % v.blockBytes = 0 ∧ (answers.getLastD ⟨0, [], true, false⟩).k ≠ 0 then 1 else 0

open Sys2Proof.Machine in
/-- The number of engine steps of a computation (R240). -/
def stepCount (v : Variant) (answers : List SrcResponse) : Nat :=
  let b := blockCount v (messageOf answers).length
  answers.length + latchedFills v answers + b + b * (v.rounds - 16 + v.rounds + 3) + 1

end Sys2Proof
end

