-- ==== Sys2Proof/Safety.lean ====
section
/-! DEFINITION. The terms of the claims: the invariant of every run, what a frame leaves alone, when a move is an accepted
START or a reset, and when two states differ in data only. -/

namespace Sys2Proof.Machine

/-! ### The invariant -/

/-- A computation has been started since the last reset. -/
abbrev State.started (s : State) : Prop :=
  s.busy = true ∨ s.done = true ∨ s.err = true

/-- The control bits (R33, R34, R116, R235). -/
structure State.ControlInv (s : State) : Prop where
  /-- Only the ten phase codes occur (R116). -/
  phase_legal : s.phase.toNat ≤ 9
  /-- `busy = 1 ⇔ phase ≠ IDLE` (R235). -/
  busy_iff : s.busy = true ↔ s.phase ≠ 0
  /-- `busy = 1 ⇒ done = 0` (R33). -/
  busy_done : s.busy = true → s.done = false
  /-- `busy = 1 ⇒ err = 0` (R33). -/
  busy_err : s.busy = true → s.err = false
  /-- Not both `done` and `err` (R33). -/
  done_err : s.done = true → s.err = false
  /-- An error code is recorded exactly with an error (R271). -/
  err_iff : s.err = true ↔ s.errcode ≠ .none

/-- The index `t` (R32). -/
structure State.IndexInv (s : State) : Prop where
  sched : s.phase = 5 → 16 ≤ s.t.toNat ∧ s.t.toNat < s.var.rounds
  round : s.phase = 7 → s.t.toNat < s.var.rounds
  other : s.phase ≠ 5 → s.phase ≠ 7 → s.t = 0

/-- The padder (R34, R35, R151, R155, R161). -/
structure State.PaddingInv (s : State) : Prop where
  cnt_le : s.cnt.toNat ≤ s.var.blockBytes
  /-- FILL has room for a request (R151). -/
  fill_room : s.phase = 1 → s.cnt.toNat < s.var.blockBytes
  fill_reading : s.phase = 1 ∨ s.phase = 2 → s.pstate = .reading
  /-- A block that is not full is padded only at the end of the input (R154). -/
  pad_ended : s.phase = 2 → s.cnt.toNat < s.var.blockBytes → s.eoiSeen = true
  padblk_pending : s.phase = 3 → s.pstate = .padPending
  /-- A data block that carries no padding is full (R161). -/
  block_full : 4 ≤ s.phase.toNat → s.phase.toNat ≤ 8 → s.pstate = .reading → s.cnt.toNat = s.var.blockBytes
  padding_ended : s.pstate ≠ .reading → s.eoiSeen = true
  finished : s.phase = 9 ∨ s.done = true → s.pstate = .done

/-- The block buffer is canonical and holds only the bytes that exist (R37). -/
structure State.BufferInv (s : State) : Prop where
  wf : Memory.wf s.blk
  below : Memory.below s.blk 128

/-- The length counter (R38): it fits the variant's width and counts whole blocks and the bytes in the buffer. -/
structure State.LengthInv (s : State) : Prop where
  fits : s.started → s.len.toNat < 2 ^ s.var.lengthBits
  counts : s.started → s.len.toNat % (8 * s.var.blockBytes) = 8 * s.cnt.toNat % (8 * s.var.blockBytes)

/-- A stored word holds a `Word_V`: with `V = 0` bits 63..32 are 0 (R36). -/
abbrev holds (v : Variant) (x : Word) : Prop :=
  x.toNat < 2 ^ v.width

/-- The datapath words the engine will read (R36): the digest since START, the working variables from INITWV on, the
schedule as far as it has been computed for this block. -/
structure State.WordInv (s : State) : Prop where
  digest : s.started → ∀ i : Fin 8, holds s.var s.H[i]
  working : s.phase = 7 ∨ s.phase = 8 → ∀ i : Fin 8, holds s.var s.wv[i]
  schedule_part : s.phase = 5 → ∀ i : Fin 80, i.val < s.t.toNat → holds s.var s.W[i]
  schedule : 6 ≤ s.phase.toNat → s.phase.toNat ≤ 8 → ∀ i : Fin 80, i.val < s.var.rounds → holds s.var s.W[i]

/-- The invariant of every run. -/
structure State.Inv (s : State) : Prop where
  control : s.ControlInv
  index : s.IndexInv
  padding : s.PaddingInv
  buffer : s.BufferInv
  length : s.LengthInv
  words : s.WordInv

/-! ### Frames: what stays as it was -/

/-- The host-visible flags (R33). -/
structure sameFlags (s t : State) : Prop where
  busy : t.busy = s.busy
  done : t.done = s.done
  err : t.err = s.err
  errcode : t.errcode = s.errcode
  cmdRej : t.cmdRej = s.cmdRej
  var : t.var = s.var

/-- The padder's state and the length counter (R34, R35, R38). -/
structure samePadder (s t : State) : Prop where
  pstate : t.pstate = s.pstate
  eoiSeen : t.eoiSeen = s.eoiSeen
  cnt : t.cnt = s.cnt
  len : t.len = s.len

/-- Every byte of the block buffer (R37). -/
abbrev sameBytes (s t : State) : Prop :=
  ∀ a, Memory.read t.blk a = Memory.read s.blk a

/-- The word registers (R36). -/
structure sameWords (s t : State) : Prop where
  H : t.H = s.H
  wv : t.wv = s.wv
  W : t.W = s.W

/-- The sequencing state (R31, R32). -/
structure samePlace (s t : State) : Prop where
  phase : t.phase = s.phase
  t : t.t = s.t

/-- The model's own fields. -/
structure sameOutside (s t : State) : Prop where
  source : t.source = s.source
  sourceAfter : t.sourceAfter = s.sourceAfter
  agenda : t.agenda = s.agenda
  agendaAfter : t.agendaAfter = s.agendaAfter
  reads : t.reads = s.reads
  requests : t.requests = s.requests
  draws : t.draws = s.draws

/-! ### Moves -/

/-- The next move is `e`, and `rest` is the agenda after it: it stands first in the agenda, or the agenda is used up and it is
the first of the moves that start over and end in a turn of the engine (R90, R320; log 5). -/
abbrev moveNext (s : State) (e : Event) (rest : List Event) : Prop :=
  s.agenda = e :: rest ∨ (s.agenda = [] ∧ s.agendaAfter ++ [.engine] = e :: rest)

/-- It is the engine's turn. -/
abbrev engineTurn (s : State) (rest : List Event) : Prop :=
  moveNext s .engine rest

/-- From here on it is the engine's turn, for ever. -/
abbrev engineAlone (s : State) : Prop :=
  s.agenda = [] ∧ s.agendaAfter = []

/-- The source's answer to the next request is `r`, and `rest` are the answers left after it: it stands first, or the answers
are used up and it is the one that the source gives from there on (R82, R289; log 6). -/
abbrev answerNext (s : State) (r : SrcResponse) (rest : List SrcResponse) : Prop :=
  s.source = r :: rest ∨ (s.source = [] ∧ s.sourceAfter = some r ∧ rest = [])

/-- The next move resets the block (R300). -/
abbrev resetNext (s : State) : Prop :=
  ∃ rest, moveNext s .reset rest

/-- The next move is one the host or the engine makes for the block and it runs a START that is accepted, directly or
through a write to CMD (R230, R231). -/
abbrev acceptsStart (s : State) : Prop :=
  s.busy = false ∧ ∃ v s', fetch s = .run (.start v) s' ∨ fetch s = .run (.wrCmd (startWord v)) s'

/-- A move of the host that has a step (R86): a command word, or a legal access, given by its offset or by its platform
address (R95). -/
abbrev hostMove (e : Event) : Prop :=
  (∃ x, e = .command x) ∨
    ∃ a : BusAccess, ∃ off, a.width = 64 ∧ off % 8 = 0 ∧ off < 256 ∧
      (e = .access { a with off := off } ∨ e = .platform (Config.regBase + off) a)

/-- The instructions the host issues. -/
def hostIssues : Instr → Bool
  | .nop | .start _ | .reject _ | .rd _ | .wrCmd _ | .wr _ _ => true
  | .idle | .fill | .pad | .padblk | .extract | .sched | .initwv | .round | .accum | .finish => false

/-! ### Data the control does not depend on (R322) -/

/-- Two answers of the source that may differ in the values of their bytes only. -/
abbrev sameShape (r q : SrcResponse) : Prop :=
  r.k = q.k ∧ r.data.length = q.data.length ∧ r.eoi = q.eoi ∧ r.fail = q.fail

/-- Two states that may differ in the values of data only: the datapath words, the block buffer's bytes, the message bytes
the source will deliver, and the values the host has read. -/
structure sameControl (s t : State) : Prop where
  place : samePlace s t
  flags : sameFlags s t
  padder : samePadder s t
  agenda : t.agenda = s.agenda
  agendaAfter : t.agendaAfter = s.agendaAfter
  requests : t.requests = s.requests
  draws : t.draws = s.draws
  source : List.Forall₂ sameShape s.source t.source
  sourceAfter : Option.Rel sameShape s.sourceAfter t.sourceAfter

end Sys2Proof.Machine
end

