-- ==== Sys2Proof/Certificates/Slice0/Obligations.lean ====
section
/-! DEFINITION. The statements about the model, from the numbered rules of spec/. -/

open Sys2Proof Sys2Proof.Machine

/-! ### Encodings (spec/30_encoding.md) -/

/-- Words written out from R111, R115 and R116 decode to the instructions they stand for: the command words 0, 1, 0x11 and
0x10, an access of each kind, and the ten phase codes. -/
def Obligations.WrittenOutWordsDecode : Prop :=
  decode (.cmd 0x0000000000000000) = .ok .nop ∧
  decode (.cmd 0x0000000000000001) = .ok (.start .sha256) ∧
  decode (.cmd 0x0000000000000011) = .ok (.start .sha512) ∧
  decode (.cmd 0x0000000000000010) = .ok (.reject 0x10) ∧
  decode (.bus 0b0_01001000 0) = .ok (.rd 0x48) ∧
  decode (.bus 0b1_00000000 0x11) = .ok (.wrCmd 0x11) ∧
  decode (.bus 0b1_00001000 5) = .ok (.wr 0x08 5) ∧
  decode (.bus 0b0_00000100 0) = .error (.misaligned 0x04) ∧
  [0, 1, 2, 3, 4, 5, 6, 7, 8, 9].map (fun c => decode (.phase c)) =
    [.idle, .fill, .pad, .padblk, .extract, .sched, .initwv, .round, .accum, .finish].map .ok ∧
  decode (.phase 10) = .error (.reservedPhase 10)

/-- Decoding the encoding of a well-formed instruction gives it back, with every operand at every value. -/
def Obligations.DecodeOfEncodeIsIdentity : Prop :=
  ∀ i : Instr, i.wf = true → decode (encode i) = .ok i

/-- What decodes is well-formed, and its encoding is the form it was read from; a read's data field, which R115 gives no
meaning, is the one thing not kept. -/
def Obligations.EncodeOfDecodeIsIdentity : Prop :=
  ∀ (e : Encoded) (i : Instr), decode e = .ok i →
    i.wf = true ∧ (encode i = e ∨ ∃ off data, i = .rd off ∧ e = .bus ((0 : BitVec 1) ++ off) data)

/-- R121: `decode_cmd` and its match and mask rows; every value decodes to exactly one of NOP, START(0), START(1), REJECT. -/
def Obligations.CommandDecoderIsTotal : Prop :=
  ∀ v : Word,
    (decodeCmd v = .nop ↔ v &&& 0xFFFFFFFFFFFFFFFF = 0x0) ∧
    (decodeCmd v = .start .sha256 ↔ v &&& 0xFFFFFFFFFFFFFFEF = 0x1 ∧ v.getLsbD 4 = false) ∧
    (decodeCmd v = .start .sha512 ↔ v &&& 0xFFFFFFFFFFFFFFEF = 0x1 ∧ v.getLsbD 4 = true) ∧
    (decodeCmd v = .reject v ↔ v &&& 0xFFFFFFFFFFFFFFFF ≠ 0x0 ∧ v &&& 0xFFFFFFFFFFFFFFEF ≠ 0x1) ∧
    (decodeCmd v = .nop ∨ decodeCmd v = .start .sha256 ∨ decodeCmd v = .start .sha512 ∨ decodeCmd v = .reject v)

/-- The match and mask rows of a bus access (R122): RD, WR_CMD before WR, and no row for an offset that is no multiple
of 8. -/
def Obligations.BusDecoderFollowsItsRows : Prop :=
  ∀ (access : BitVec 9) (data : Word),
    (access &&& 0x107 = 0x000 → decode (.bus access data) = .ok (.rd (access.extractLsb' 0 8))) ∧
    (access &&& 0x1FF = 0x100 → decode (.bus access data) = .ok (.wrCmd data)) ∧
    (access &&& 0x107 = 0x100 → access &&& 0x1FF ≠ 0x100 →
      decode (.bus access data) = .ok (.wr (access.extractLsb' 0 8) data)) ∧
    (access &&& 0x107 ≠ 0x000 → access &&& 0x107 ≠ 0x100 → ∃ off, decode (.bus access data) = .error (.misaligned off))

/-! ### Steps (spec/20_memory.md, spec/45_digest_driver.md section 3) -/

/-- On the engine's turn, with a computation in flight, a step is the micro-operation the phase register decodes to. -/
def Obligations.StepRunsTheDecodedPhase : Prop :=
  ∀ (s : State) (rest : List Event) (i : Instr),
    engineTurn s rest → s.busy = true → decode (.phase s.phase) = .ok i → step s = exec i { s with agenda := rest }

/-- On the host's turn a step is the instruction its access decodes to, whether the access is given at an offset or at the
platform address of that offset (R95). -/
def Obligations.StepRunsTheDecodedAccess : Prop :=
  ∀ (s : State) (rest : List Event) (a : BusAccess) (i : Instr),
    (moveNext s (.access a) rest ∨ ∃ b : BusAccess, moveNext s (.platform (Config.regBase + a.off) b) rest ∧
      a = { b with off := a.off }) →
    a.width = 64 → a.off < 256 →
    decode (.bus (BitVec.ofBool a.write ++ BitVec.ofNat 8 a.off) a.data) = .ok i →
    step s = exec i { s with agenda := rest }

/-- A command word is performed as the command it decodes to, and as a write of it to CMD (R230; log 11). -/
def Obligations.StepRunsTheDecodedCommand : Prop :=
  ∀ (s : State) (rest : List Event) (value : Word), moveNext s (.command value) rest →
    step s = exec (decodeCmd value) { s with agenda := rest } ∧
    step s = step { s with agenda := .access ⟨true, 0, 64, value⟩ :: rest }

/-- R123: a phase code 10..15 has no step; found on the engine's turn, it faults. -/
def Obligations.ReservedPhaseFaults : Prop :=
  ∀ (s : State) (rest : List Event), engineTurn s rest → s.busy = true →
    (10 ≤ s.phase.toNat ↔ step s = .fault (.reservedPhase s.phase))

/-- The engine has a step exactly when it is enabled (R235): not enabled, its turn changes nothing; enabled, in a state of
the invariant, its turn changes its place, its flags or the requests made, unless the source breaks its protocol (R83). -/
def Obligations.EngineStepsExactlyWhenEnabled : Prop :=
  ∀ (s : State) (rest : List Event), engineTurn s rest → s.Inv →
    (engineEnabled s = false → step s = .next { s with agenda := rest }) ∧
    (engineEnabled s = true → step s = .refused .sourceProtocol ∨
      ∃ t, step s = .next t ∧ (t.phase, t.t, t.requests, t.busy) ≠ (s.phase, s.t, s.requests, s.busy))

/-- R86: a 64-bit access at a multiple of 8 in the window has a step; any other is refused. -/
def Obligations.IllegalAccessIsRefused : Prop :=
  ∀ (s : State) (rest : List Event) (a : BusAccess), moveNext s (.access a) rest →
    (a.width = 64 → a.off % 8 = 0 → a.off < 256 → ∃ t, step s = .next t) ∧
    (a.width ≠ 64 ∨ a.off % 8 ≠ 0 ∨ 256 ≤ a.off → ∃ r, step s = .refused r)

/-- The window is the 256 bytes from REG_BASE (R95): a platform address in it reaches its offset, any other is refused. -/
def Obligations.PlatformAddressReachesItsOffset : Prop :=
  ∀ (s : State) (rest : List Event) (addr : Nat) (a : BusAccess), moveNext s (.platform addr a) rest →
    (∀ off < 256, addr = Config.regBase + off →
      step s = step { s with agenda := .access { a with off := off } :: rest }) ∧
    (addr < Config.regBase ∨ Config.regBase + 256 ≤ addr → step s = .refused .accessOutsideWindow)

/-! ### The host's commands and accesses (spec/45_digest_driver.md sections 1 and 4, spec/60_exceptions.md) -/

/-- R232: NOP, the CMD value 0, changes nothing; the value 0x10 is no NOP and is rejected. -/
def Obligations.NopChangesNothing : Prop :=
  ∀ s : State, exec .nop s = .next s ∧ exec (.wrCmd 0x0) s = .next s ∧
    exec (.wrCmd 0x10) s = .next { s with cmdRej := true }

/-- R231: START with `busy = 0` writes exactly these elements, from the constants IV of the variant; with `busy = 1` it is
rejected instead. So do the CMD values 0x1 and 0x11. -/
def Obligations.StartBeginsAComputation : Prop :=
  ∀ (v : Variant) (s : State),
    (s.busy = false → exec (.start v) s = .next { s with
      var := v, H := Vector.ofFn (fun i : Fin 8 => zext (romIV v i.val)), len := 0, cnt := 0, t := 0, pstate := .reading,
      eoiSeen := false, done := false, err := false, errcode := .none, cmdRej := false, busy := true, phase := 1 }) ∧
    (s.busy = true → exec (.start v) s = .next { s with cmdRej := true }) ∧
    exec (.wrCmd (if v = .sha256 then 0x1 else 0x11)) s = exec (.start v) s

/-- R275: a rejection sets `cmd_rej` and nothing else, and it is sticky: a step clears it only by an accepted START or by
reset. -/
def Obligations.RejectionIsStickyAndAlone : Prop :=
  (∀ (value : Word) (s : State), exec (.reject value) s = .next { s with cmdRej := true }) ∧
  (∀ s t : State, s.cmdRej = true → step s = .next t → t.cmdRej = false → acceptsStart s ∨ resetNext s)

/-- R276: which CMD writes are rejected, by the fields of the command word; a NOP never is, and a rejected START alters
nothing but `cmd_rej`. -/
def Obligations.CommandRejectionCauses : Prop :=
  ∀ (v : Word) (s : State),
    (2 ≤ (v.extractLsb' 0 4).toNat ∨ v.extractLsb' 5 59 ≠ 0 ∨ (v.getLsbD 4 = true ∧ v.extractLsb' 0 4 = 0) →
      exec (.wrCmd v) s = .next { s with cmdRej := true }) ∧
    (v = 0x1 ∨ v = 0x11 → s.busy = true → exec (.wrCmd v) s = .next { s with cmdRej := true }) ∧
    (v = 0 → exec (.wrCmd v) s = .next s) ∧
    (∀ t, exec (.wrCmd v) s = .next t → s.cmdRej = false → t.cmdRej = true →
      2 ≤ (v.extractLsb' 0 4).toNat ∨ v.extractLsb' 5 59 ≠ 0 ∨ (v.getLsbD 4 = true ∧ v.extractLsb' 0 4 = 0) ∨
        ((v = 0x1 ∨ v = 0x11) ∧ s.busy = true))

/-- R230: a CMD write performs the command its value decodes to, in one step that always completes: a NOP changes nothing, a
START is performed with `busy = 0` and rejected with `busy = 1`, and any other value is rejected. -/
def Obligations.CmdWritePerformsItsCommand : Prop :=
  ∀ (data : Word) (s : State),
    (∃ t, exec (.wrCmd data) s = .next t) ∧ exec (.wrCmd data) s = exec (decodeCmd data) s ∧
    (decodeCmd data = .nop → exec (.wrCmd data) s = .next s) ∧
    (∀ v, decodeCmd data = .start v →
      (s.busy = false → exec (.wrCmd data) s = .next (beginComputation v s)) ∧
      (s.busy = true → exec (.wrCmd data) s = .next { s with cmdRej := true })) ∧
    (decodeCmd data = .reject data → exec (.wrCmd data) s = .next { s with cmdRej := true })

/-- R237: what a read of each register of the window returns, and that it changes nothing else; where the spec writes
`any` the value is the next free draw. A misaligned read is refused. -/
def Obligations.RegisterReadsReturnTheirValue : Prop :=
  ∀ (off : BitVec 8) (s : State),
    (off &&& 7 ≠ 0 → exec (.rd off) s = .refused (.accessMisaligned off)) ∧
    (off &&& 7 = 0 →
      (off = 0x00 → exec (.rd off) s = .next { s with reads := 0 :: s.reads }) ∧
      (off = 0x08 → exec (.rd off) s = .next { s with reads := statusWord s :: s.reads }) ∧
      (off = 0x10 → s.done = true → exec (.rd off) s = .next { s with reads := s.len.extractLsb' 0 64 :: s.reads }) ∧
      (off = 0x18 → s.done = true → exec (.rd off) s = .next { s with reads := s.len.extractLsb' 64 64 :: s.reads }) ∧
      (∀ i : Fin 8, off.toNat = 0x40 + 8 * i.val → s.done = true →
        exec (.rd off) s = .next { s with reads := zext (lo s.var s.H[i]) :: s.reads }) ∧
      ((off = 0x10 ∨ off = 0x18 ∨ 0x40 ≤ off.toNat ∧ off.toNat < 0x80) → s.done = false →
        exec (.rd off) s = .next { s with reads := Config.anyRead s.draws :: s.reads, draws := s.draws + 1 }) ∧
      ((0x20 ≤ off.toNat ∧ off.toNat < 0x40) ∨ 0x80 ≤ off.toNat →
        exec (.rd off) s = .next { s with reads := 0 :: s.reads }))

/-- R48: each field of STATUS is the state element it names, and the reserved bits are 0; after reset STATUS reads 0. -/
def Obligations.StatusShowsTheState : Prop :=
  exec (.rd 0x08) State.reset = .next { State.reset with reads := [0] } ∧
  ∀ s : State,
    exec (.rd 0x08) s = .next { s with reads := statusWord s :: s.reads } ∧
    (statusWord s).getLsbD 0 = s.busy ∧ (statusWord s).getLsbD 1 = s.done ∧ (statusWord s).getLsbD 2 = s.err ∧
    (statusWord s).getLsbD 3 = s.cmdRej ∧ (statusWord s).getLsbD 4 = (s.var == .sha512) ∧
    (statusWord s).extractLsb' 5 2 = (match s.pstate with | .reading => 0 | .padPending => 1 | .done => 2) ∧
    (statusWord s).getLsbD 7 = s.eoiSeen ∧
    (statusWord s).extractLsb' 8 4 = (match s.errcode with | .none => 0 | .srcFail => 1 | .lenOvf => 2) ∧
    (statusWord s).extractLsb' 12 4 = s.phase ∧ (statusWord s).extractLsb' 16 7 = s.t ∧
    (statusWord s).getLsbD 23 = false ∧ (statusWord s).extractLsb' 24 8 = s.cnt ∧
    (statusWord s).extractLsb' 32 32 = 0

/-- R238: a write to any offset other than CMD's has no effect on any state. -/
def Obligations.WritesElsewhereChangeNothing : Prop :=
  ∀ (off : BitVec 8) (data : Word) (s : State), off &&& 7 = 0 → off ≠ 0 → exec (.wr off data) s = .next s

/-- Two reads of one register in a row, while a result is published, return the same value (spec/20 R91 point 3; while
`done = 0` a read of LEN or DIGEST is a fresh draw, R237). -/
def Obligations.RepeatedReadsAgree : Prop :=
  ∀ (off : BitVec 8) (s : State), off &&& 7 = 0 → (s.done = true ∨ off = 0x08) →
    ∃ x, exec (.rd off) s = .next { s with reads := x :: s.reads } ∧
      exec (.rd off) { s with reads := x :: s.reads } = .next { s with reads := x :: x :: s.reads }

/-! ### The padder (spec/42_padder.md) -/

/-- FILL, case by case (R152); the request asks for the room left in the block (R151). Three clauses are the model's reading
and no rule's words: that a failure wins whatever the answer's count and data are (log 7, DEDUCED), that an answer which fails
or overflows is still taken from the source and its request shown (log 8, DEDUCED), and that waiting for an answer is a step
which changes nothing (log 9). -/
def Obligations.FillFollowsItsRule : Prop :=
  ∀ s : State,
    (s.eoiSeen = true → exec .fill s = .next { s with phase := 2 }) ∧
    (s.eoiSeen = false → s.cnt.toNat < s.var.blockBytes → s.source = [] → s.sourceAfter = none →
      exec .fill s = .next s) ∧
    (s.eoiSeen = false → s.cnt.toNat < s.var.blockBytes → ∀ (r : SrcResponse) (rest : List SrcResponse),
      answerNext s r rest →
      (r.fail = true → exec .fill s = .next { s with
        err := true, errcode := .srcFail, busy := false, done := false, phase := 0, source := rest,
        requests := (s.var.blockBytes - s.cnt.toNat) :: s.requests }) ∧
      (r.fail = false → r.k ≤ s.var.blockBytes - s.cnt.toNat → r.data.length = r.k →
        (2 ^ s.var.lengthBits ≤ s.len.toNat + 8 * r.k → exec .fill s = .next { s with
          err := true, errcode := .lenOvf, busy := false, done := false, phase := 0, source := rest,
          requests := (s.var.blockBytes - s.cnt.toNat) :: s.requests }) ∧
        (s.len.toNat + 8 * r.k < 2 ^ s.var.lengthBits → ∃ t : State, exec .fill s = .next { s with
            blk := t.blk, cnt := t.cnt, len := t.len, eoiSeen := r.eoi,
            phase := if s.cnt.toNat + r.k = s.var.blockBytes ∨ r.eoi = true then 2 else 1, source := rest,
            requests := (s.var.blockBytes - s.cnt.toNat) :: s.requests } ∧
          t.cnt.toNat = s.cnt.toNat + r.k ∧ t.len.toNat = s.len.toNat + 8 * r.k ∧
          (Memory.wf s.blk → ∀ a, Memory.read t.blk a =
            if s.cnt.toNat ≤ a ∧ a < s.cnt.toNat + r.k then r.data.getD (a - s.cnt.toNat) 0
            else Memory.read s.blk a))))

/-- An engine error changes exactly five elements of the block (R272): FILL then leaves the buffer, the counters and the end
of input as they were, and DIGEST and LEN read as free draws (R49, R50, R237). That the answer is taken from the source and
its request shown is the model's reading (log 8, DEDUCED from R84), and no rule's words. -/
def Obligations.EngineErrorIsPrecise : Prop :=
  ∀ s t : State, exec .fill s = .next t → s.err = false → t.err = true →
    (t.errcode = .srcFail ∨ t.errcode = .lenOvf) ∧
    (∃ r, answerNext s r t.source ∧ t = { s with
      err := true, errcode := t.errcode, busy := false, done := false, phase := 0, source := t.source,
      requests := (s.var.blockBytes - s.cnt.toNat) :: s.requests }) ∧
    (∀ off : BitVec 8, off &&& 7 = 0 → (off = 0x10 ∨ off = 0x18 ∨ 0x40 ≤ off.toNat ∧ off.toNat < 0x80) →
      exec (.rd off) t = .next { t with reads := Config.anyRead t.draws :: t.reads, draws := t.draws + 1 })

/-- A source that breaks the protocol of R83 with an answer that is no failure is refused (a failure's count and data are
ignored, R82: log 7). -/
def Obligations.SourceProtocolViolationIsRefused : Prop :=
  ∀ (s : State) (r : SrcResponse) (rest : List SrcResponse), s.eoiSeen = false → s.cnt.toNat < s.var.blockBytes →
    answerNext s r rest → r.fail = false → (s.var.blockBytes - s.cnt.toNat < r.k ∨ r.data.length ≠ r.k) →
    exec .fill s = .refused .sourceProtocol

/-- R289: the engine hangs in FILL, busy, for any number of steps, when its source gives `n` empty answers and then either
none or, without end, more empty ones. In the second case every request is answered and the engine is enabled at every step,
so answering alone ends no computation. -/
def Obligations.SilentSourceHangsTheEngine : Prop :=
  ∀ (s : State) (n m : Nat), engineAlone s → s.busy = true → s.phase = 1 → s.eoiSeen = false →
    s.cnt.toNat < s.var.blockBytes → s.len.toNat < 2 ^ s.var.lengthBits →
    s.source = List.replicate n ⟨0, [], false, false⟩ →
    (s.sourceAfter = none → Host.Core.run Sys2Proof.core (n + m) s = .next { s with
      source := [], requests := List.replicate n (s.var.blockBytes - s.cnt.toNat) ++ s.requests }) ∧
    (s.sourceAfter = some ⟨0, [], false, false⟩ → ∃ t : State,
      Host.Core.run Sys2Proof.core (n + m) s = .next t ∧ engineEnabled t = true ∧ t = { s with
        source := [], requests := List.replicate (n + m) (s.var.blockBytes - s.cnt.toNat) ++ s.requests })

/-- R155: PAD, in its three cases; R156 and R157 give the marker and the length field. -/
def Obligations.PadCompletesTheBlock : Prop :=
  ∀ s : State,
    (s.cnt.toNat = s.var.blockBytes → exec .pad s = .next { s with phase := 4 }) ∧
    (s.cnt.toNat ≤ s.var.blockBytes - s.var.lengthBytes - 1 → ∃ m : Memory,
      exec .pad s = .next { s with blk := m, pstate := .done, phase := 4 } ∧
      (Memory.wf s.blk →
        Memory.read m s.cnt.toNat = 0x80 ∧
        (∀ j, s.cnt.toNat < j → j < s.var.blockBytes - s.var.lengthBytes → Memory.read m j = 0x00) ∧
        (∀ j < s.var.lengthBytes, Memory.read m (s.var.blockBytes - s.var.lengthBytes + j) =
          s.len.extractLsb' (8 * (s.var.lengthBytes - 1 - j)) 8) ∧
        (∀ a, a < s.cnt.toNat ∨ s.var.blockBytes ≤ a → Memory.read m a = Memory.read s.blk a))) ∧
    (s.var.blockBytes - s.var.lengthBytes ≤ s.cnt.toNat → s.cnt.toNat < s.var.blockBytes → ∃ m : Memory,
      exec .pad s = .next { s with blk := m, pstate := .padPending, phase := 4 } ∧
      (Memory.wf s.blk →
        Memory.read m s.cnt.toNat = 0x80 ∧
        (∀ j, s.cnt.toNat < j → j < s.var.blockBytes → Memory.read m j = 0x00) ∧
        (∀ a, a < s.cnt.toNat ∨ s.var.blockBytes ≤ a → Memory.read m a = Memory.read s.blk a)))

/-- R158: PADBLK builds zeros and the length field. -/
def Obligations.PadblkBuildsTheLengthBlock : Prop :=
  ∀ s : State, ∃ m : Memory, exec .padblk s = .next { s with blk := m, pstate := .done, phase := 4 } ∧
    (Memory.wf s.blk →
      (∀ j < s.var.blockBytes - s.var.lengthBytes, Memory.read m j = 0x00) ∧
      (∀ j < s.var.lengthBytes, Memory.read m (s.var.blockBytes - s.var.lengthBytes + j) =
        s.len.extractLsb' (8 * (s.var.lengthBytes - 1 - j)) 8) ∧
      (∀ a, s.var.blockBytes ≤ a → Memory.read m a = Memory.read s.blk a))

/-- The padded message (R159): a multiple of the block size, by the fewest zeros that make it so, as many blocks as
R159 counts, and its last L bytes, read big-endian, are the bit length. -/
def Obligations.PaddingFillsWholeBlocks : Prop :=
  ∀ (v : Variant) (m : List Byte),
    (padded v m).length = blockCount v m.length * v.blockBytes ∧
    (∀ z, (m.length + 1 + z + v.lengthBytes) % v.blockBytes = 0 → zeroFill v m.length ≤ z) ∧
    (8 * m.length < 2 ^ v.lengthBits →
      (Finset.range v.lengthBytes).sum (fun j =>
        ((padded v m).getD ((padded v m).length - v.lengthBytes + j) 0).toNat * 256 ^ (v.lengthBytes - 1 - j)) =
        8 * m.length)

/-! ### The word extractor, the scheduler, the compressor (spec/41, spec/43, spec/44) -/

/-- R141, R140: EXTRACT loads the 16 big-endian words of the block and leaves the rest of the schedule. -/
def Obligations.ExtractLoadsTheBlockWords : Prop :=
  ∀ s : State, ∃ W : Vector Word 80, exec .extract s = .next { s with W := W, t := 16, phase := 5 } ∧
    (∀ i : Fin 80, i.val < 16 → W[i].toNat = (Finset.range s.var.wordBytes).sum (fun j =>
      (Memory.read s.blk (i.val * s.var.wordBytes + j)).toNat * 2 ^ (8 * (s.var.wordBytes - 1 - j)))) ∧
    (∀ i : Fin 80, 16 ≤ i.val → W[i] = s.W[i])

/-- R186: SCHED writes one schedule word, the sum modulo `2^w`, and moves on. -/
def Obligations.SchedComputesOneWord : Prop :=
  ∀ s : State, 16 ≤ s.t.toNat → s.t.toNat < s.var.rounds →
    let W (n : Nat) := lo s.var (s.W.getD (s.t.toNat - n) 0)
    exec .sched s = .next { s with
      W := s.W.setIfInBounds s.t.toNat (zext (smallSigma1 s.var (W 2) + W 7 + smallSigma0 s.var (W 15) + W 16))
      t := if s.t.toNat + 1 = s.var.rounds then 0 else s.t + 1
      phase := if s.t.toNat + 1 = s.var.rounds then 6 else 5 }

/-- R207: INITWV. -/
def Obligations.InitwvLoadsTheDigest : Prop :=
  ∀ s : State, exec .initwv s = .next { s with wv := s.H, t := 0, phase := 7 }

/-- R208, with T1 and T2 of R204 and R205 and the simultaneous assignment of R206. -/
def Obligations.RoundUpdatesTheWorkingVariables : Prop :=
  ∀ s : State, s.t.toNat < s.var.rounds →
    let x (i : Nat) := lo s.var (s.wv.getD i 0)
    let T1 := x 7 + bigSigma1 s.var (x 4) + ch (x 4) (x 5) (x 6) + romK s.var s.t.toNat +
      lo s.var (s.W.getD s.t.toNat 0)
    let T2 := bigSigma0 s.var (x 0) + maj (x 0) (x 1) (x 2)
    exec .round s = .next { s with
      wv := #v[zext (T1 + T2), zext (x 0), zext (x 1), zext (x 2), zext (x 3 + T1), zext (x 4), zext (x 5), zext (x 6)]
      t := if s.t.toNat + 1 = s.var.rounds then 0 else s.t + 1
      phase := if s.t.toNat + 1 = s.var.rounds then 8 else 7 }

/-- R209: ACCUM adds into the running digest and chooses the next block. -/
def Obligations.AccumAddsIntoTheDigest : Prop :=
  ∀ s : State, exec .accum s = .next { s with
    H := Vector.ofFn (fun i : Fin 8 => zext (lo s.var s.H[i] + lo s.var s.wv[i]))
    cnt := if s.pstate = .reading then 0 else s.cnt
    phase := match s.pstate with | .done => 9 | .padPending => 3 | .reading => 1 }

/-- R200: Ch, bit by bit, and its corner cases. -/
def Obligations.ChooseFunction : Prop :=
  (∀ (w : Nat) (x y z : BitVec w),
    ch x y z = (x &&& y) ^^^ (~~~x &&& z) ∧
    (∀ i, (ch x y z).getLsbD i = if x.getLsbD i then y.getLsbD i else z.getLsbD i) ∧
    ch 0 y z = z ∧ ch (BitVec.allOnes w) y z = y ∧ ch x y y = y) ∧
  ch (0xf0f0f0f0 : BitVec 32) 0xff00ff00 0x0ff00ff0 = 0xff00ff00

/-- R201: Maj, bit by bit, and its corner cases. -/
def Obligations.MajorityFunction : Prop :=
  (∀ (w : Nat) (x y z : BitVec w),
    maj x y z = (x &&& y) ^^^ (x &&& z) ^^^ (y &&& z) ∧
    (∀ i, (maj x y z).getLsbD i =
      decide (2 ≤ (x.getLsbD i).toNat + (y.getLsbD i).toNat + (z.getLsbD i).toNat)) ∧
    maj x y z = maj y x z ∧ maj x y z = maj x z y ∧ maj x x z = x) ∧
  maj (0xffffffff : BitVec 32) 0x00000000 0xffffffff = 0xffffffff

/-- σ0, σ1, Σ0, Σ1 (R180, R181, R202, R203) on the zero and the all-ones word, and linear over ⊕. -/
def Obligations.SigmaFunctions : Prop :=
  ∀ (v : Variant) (x y : VWord v),
    smallSigma0 v 0 = 0 ∧ smallSigma1 v 0 = 0 ∧ bigSigma0 v 0 = 0 ∧ bigSigma1 v 0 = 0 ∧
    smallSigma0 v (BitVec.allOnes v.width) = shr (BitVec.allOnes v.width) (if v = .sha256 then 3 else 7) ∧
    smallSigma1 v (BitVec.allOnes v.width) = shr (BitVec.allOnes v.width) (if v = .sha256 then 10 else 6) ∧
    bigSigma0 v (BitVec.allOnes v.width) = BitVec.allOnes v.width ∧
    bigSigma1 v (BitVec.allOnes v.width) = BitVec.allOnes v.width ∧
    smallSigma0 v (x ^^^ y) = smallSigma0 v x ^^^ smallSigma0 v y ∧
    smallSigma1 v (x ^^^ y) = smallSigma1 v x ^^^ smallSigma1 v y ∧
    bigSigma0 v (x ^^^ y) = bigSigma0 v x ^^^ bigSigma0 v y ∧
    bigSigma1 v (x ^^^ y) = bigSigma1 v x ^^^ bigSigma1 v y

/-- The four functions at the amounts of R6, as rotations of the library's own. -/
def Obligations.SigmaAmounts : Prop :=
  (∀ x : BitVec 32,
    smallSigma0 .sha256 x = x.rotateRight 7 ^^^ x.rotateRight 18 ^^^ (x >>> 3) ∧
    smallSigma1 .sha256 x = x.rotateRight 17 ^^^ x.rotateRight 19 ^^^ (x >>> 10) ∧
    bigSigma0 .sha256 x = x.rotateRight 2 ^^^ x.rotateRight 13 ^^^ x.rotateRight 22 ∧
    bigSigma1 .sha256 x = x.rotateRight 6 ^^^ x.rotateRight 11 ^^^ x.rotateRight 25) ∧
  (∀ x : BitVec 64,
    smallSigma0 .sha512 x = x.rotateRight 1 ^^^ x.rotateRight 8 ^^^ (x >>> 7) ∧
    smallSigma1 .sha512 x = x.rotateRight 19 ^^^ x.rotateRight 61 ^^^ (x >>> 6) ∧
    bigSigma0 .sha512 x = x.rotateRight 28 ^^^ x.rotateRight 34 ^^^ x.rotateRight 39 ∧
    bigSigma1 .sha512 x = x.rotateRight 14 ^^^ x.rotateRight 18 ^^^ x.rotateRight 41)

/-- BEdec and BE_k (R12), for the sizes the engine uses: the first byte is the most significant, and each is the other's
inverse. -/
def Obligations.BigEndianFormsAreInverse : Prop :=
  (∀ bytes : List Byte, bytes.length ≤ 8 →
    (beDecode bytes).toNat = (Finset.range bytes.length).sum (fun j =>
      (bytes.getD j 0).toNat * 2 ^ (8 * (bytes.length - 1 - j))) ∧
    beBytes bytes.length ((beDecode bytes).setWidth 128) = bytes) ∧
  (∀ (k : Nat) (x : BitVec 128), k ≤ 8 → (beDecode (beBytes k x)).toNat = x.toNat % 2 ^ (8 * k))

/-! ### The digest driver (spec/45_digest_driver.md) -/

/-- R234: FINISH publishes the digest. -/
def Obligations.FinishPublishesTheDigest : Prop :=
  ∀ s : State, exec .finish s = .next { s with done := true, busy := false, phase := 0 }

/-- In IDLE the engine has no step and all state is kept (R31, R235, R287; that its turn is then a step that changes
nothing is the model's choice, log 9). -/
def Obligations.IdleKeepsAllState : Prop :=
  ∀ s : State, exec .idle s = .next s

/-- R236: the phase after each micro-operation, and the index `t` where the table gives it. -/
def Obligations.NextPhaseFollowsTheTable : Prop :=
  ∀ s t : State,
    (exec .idle s = .next t → t = s) ∧
    (exec .fill s = .next t →
      (s.eoiSeen = true → t.phase = 2) ∧
      (s.eoiSeen = false → ∀ r rest, answerNext s r rest →
        ((r.fail = true ∨ 2 ^ s.var.lengthBits ≤ s.len.toNat + 8 * r.k) → t.phase = 0 ∧ t.err = true) ∧
        (r.fail = false → s.len.toNat + 8 * r.k < 2 ^ s.var.lengthBits →
          (s.cnt.toNat + r.k = s.var.blockBytes ∨ r.eoi = true → t.phase = 2) ∧
          (s.cnt.toNat + r.k < s.var.blockBytes → r.eoi = false → t.phase = 1)))) ∧
    (exec .pad s = .next t → t.phase = 4) ∧
    (exec .padblk s = .next t → t.phase = 4) ∧
    (exec .extract s = .next t → t.phase = 5 ∧ t.t = 16) ∧
    (exec .sched s = .next t →
      (s.t.toNat + 1 < s.var.rounds → t.phase = 5 ∧ t.t = s.t + 1) ∧
      (s.t.toNat + 1 = s.var.rounds → t.phase = 6 ∧ t.t = 0)) ∧
    (exec .initwv s = .next t → t.phase = 7 ∧ t.t = 0) ∧
    (exec .round s = .next t →
      (s.t.toNat + 1 < s.var.rounds → t.phase = 7 ∧ t.t = s.t + 1) ∧
      (s.t.toNat + 1 = s.var.rounds → t.phase = 8 ∧ t.t = 0)) ∧
    (exec .accum s = .next t →
      (s.pstate = .done → t.phase = 9) ∧ (s.pstate = .padPending → t.phase = 3) ∧
      (s.pstate = .reading → t.phase = 1 ∧ t.cnt = 0)) ∧
    (exec .finish s = .next t → t.phase = 0)

/-! ### Frames -/

/-- What the host's instructions leave alone: while a computation is in flight, and for all but START and a CMD write at
any time, they change nothing but `cmd_rej` (a rejection) and what the host has been shown (a read). -/
def Obligations.HostInstructionsFrame : Prop :=
  ∀ (i : Instr) (s t : State), hostIssues i = true → i.wf = true → exec i s = .next t →
    (s.busy = true ∨ ((∀ v, i ≠ .start v) ∧ ∀ x, i ≠ .wrCmd x)) →
    t = { s with cmdRej := t.cmdRej, reads := t.reads, draws := t.draws } ∧
    ((∀ off, i ≠ .rd off) → t.reads = s.reads ∧ t.draws = s.draws) ∧
    (∀ off, i = .rd off → t.cmdRej = s.cmdRej ∧ ∃ x, t.reads = x :: s.reads)

/-- What EXTRACT, SCHED, INITWV, ROUND, ACCUM, FINISH and IDLE leave alone: every byte of the block buffer, the length, the
padder's state but for ACCUM's `cnt`, the flags but for FINISH's, every word register but their own destination, and
everything outside the block. -/
def Obligations.WordStepsFrame : Prop :=
  ∀ (i : Instr) (s t : State), i ∈ [.extract, .sched, .initwv, .round, .accum, .finish, .idle] → exec i s = .next t →
    sameBytes s t ∧ sameOutside s t ∧
    t.len = s.len ∧ t.pstate = s.pstate ∧ t.eoiSeen = s.eoiSeen ∧ (i ≠ .accum → t.cnt = s.cnt ∧ t.H = s.H) ∧
    t.var = s.var ∧ t.err = s.err ∧ t.errcode = s.errcode ∧ t.cmdRej = s.cmdRej ∧
    (i ≠ .finish → t.busy = s.busy ∧ t.done = s.done) ∧
    (i ≠ .initwv → i ≠ .round → t.wv = s.wv) ∧
    (i ≠ .extract → i ≠ .sched → t.W = s.W) ∧
    (i = .extract → ∀ n : Fin 80, 16 ≤ n.val → t.W[n] = s.W[n]) ∧
    (i = .sched → ∀ n : Fin 80, n.val ≠ s.t.toNat → t.W[n] = s.W[n])

/-- What FILL, PAD and PADBLK leave alone: every word register, the index, the variant, `cmd_rej`, and every byte of the
block buffer outside the bytes they store: FILL's answer at `cnt`, PAD's padding from `cnt` to the end of the block (none
when it is full), PADBLK's whole block. PAD and PADBLK leave the flags, the counters, the end of input and everything
outside too; FILL leaves the host's view, and the padding state. -/
def Obligations.BlockStepsFrame : Prop :=
  ∀ s t : State, Memory.wf s.blk →
    (∀ i ∈ [Instr.fill, .pad, .padblk], exec i s = .next t →
      sameWords s t ∧ t.t = s.t ∧ t.var = s.var ∧ t.cmdRej = s.cmdRej ∧
      t.agenda = s.agenda ∧ t.agendaAfter = s.agendaAfter ∧ t.sourceAfter = s.sourceAfter ∧ t.reads = s.reads ∧
      t.draws = s.draws) ∧
    (exec .fill s = .next t → t.pstate = s.pstate ∧
      (∀ a, a < s.cnt.toNat ∨ s.cnt.toNat + (t.cnt - s.cnt).toNat ≤ a →
        Memory.read t.blk a = Memory.read s.blk a)) ∧
    (∀ i ∈ [Instr.pad, .padblk], exec i s = .next t →
      sameFlags s t ∧ t.cnt = s.cnt ∧ t.len = s.len ∧ t.eoiSeen = s.eoiSeen ∧ sameOutside s t) ∧
    (exec .pad s = .next t → ∀ a, a < s.cnt.toNat ∨ s.var.blockBytes ≤ a →
      Memory.read t.blk a = Memory.read s.blk a) ∧
    (exec .padblk s = .next t → ∀ a, s.var.blockBytes ≤ a → Memory.read t.blk a = Memory.read s.blk a)

/-! ### Reset (spec/70_reset_and_hazards.md) -/

/-- The control state after reset (R53, R300), in State.reset and after a reset at any moment; STATUS then reads 0. -/
def Obligations.ResetLeavesTheControlState : Prop :=
  (∀ s t : State, (t = State.reset ∨ resetNext s ∧ step s = .next t) →
    t.phase = 0 ∧ t.t = 0 ∧ t.busy = false ∧ t.done = false ∧ t.err = false ∧ t.cmdRej = false ∧ t.errcode = .none ∧
    t.var = .sha256 ∧ t.pstate = .reading ∧ t.eoiSeen = false ∧ t.cnt = 0 ∧ statusWord t = 0) ∧
  (∀ (s : State) (rest : List Event), moveNext s .reset rest →
    ∃ t, step s = .next t ∧ t.source = s.source ∧ t.sourceAfter = s.sourceAfter ∧ t.agenda = rest ∧
      t.agendaAfter = s.agendaAfter ∧ t.reads = s.reads ∧ t.requests = s.requests)

/-! ### The whole machine -/

/-- The state after reset meets the invariant. -/
def Obligations.ResetMeetsTheInvariant : Prop :=
  State.reset.Inv

/-- Every step keeps the invariant: legal phase codes, `busy = 1 ⇔ phase ≠ IDLE`, the flags' exclusions, the ranges of `t`
and `cnt`, the padder's state in each phase, the buffer's canonical form, the length counter's range and its count of whole
blocks, and zero high halves of SHA-256 words. -/
def Obligations.StepKeepsTheInvariant : Prop :=
  ∀ s t : State, s.Inv → step s = .next t → t.Inv

/-- No fault of the model is reached from a state of the invariant: each is a totality guard only (R123, U10; log 13). -/
def Obligations.InvariantExcludesEveryFault : Prop :=
  ∀ (s : State) (f : Fault), s.Inv → step s ≠ .fault f

/-- With DONE = 1 the result stays (spec/20 R91 point 1): no step but an accepted START or reset changes DONE, the digest,
the length or the variant. -/
def Obligations.PublishedResultStands : Prop :=
  ∀ s t : State, s.busy = false → s.done = true → step s = .next t → ¬ acceptsStart s → ¬ resetNext s →
    t.done = true ∧ t.busy = false ∧ t.H = s.H ∧ t.len = s.len ∧ t.var = s.var

/-- BUSY = 1 lasts until FINISH, an engine error or reset (spec/20 R91 point 2). -/
def Obligations.BusyLastsUntilFinishOrError : Prop :=
  ∀ s t : State, s.busy = true → step s = .next t → t.busy = false →
    resetNext s ∨ (s.phase = 9 ∧ t.done = true ∧ t.err = s.err) ∨ (s.phase = 1 ∧ t.err = true ∧ t.done = false)

/-- The step sequence depends on lengths, not on values (R322): two states that differ in data only step alike, and still
differ in data only. -/
def Obligations.ControlIsIndependentOfData : Prop :=
  ∀ s t : State, sameControl s t →
    (∀ s', step s = .next s' → ∃ t', step t = .next t' ∧ sameControl s' t') ∧
    (∀ f, step s = .fault f → step t = .fault f) ∧ (∀ r, step s = .refused r → step t = .refused r)

/-- The compression function of one block (R210, R182, R206): from EXTRACT, `2N - 13` engine steps (115 or 147) lead past
ACCUM, with the running digest `C_V(H, block)`, the block and the length unchanged, and the next phase by `pstate`. -/
def Obligations.BlockIsCompressed : Prop :=
  ∀ s : State, engineAlone s → s.busy = true → s.phase = 4 →
    ∃ t : State, Host.Core.run Sys2Proof.core (s.var.rounds - 16 + s.var.rounds + 3) s = .next t ∧
      t = { s with H := t.H, wv := t.wv, W := t.W, t := 0, cnt := if s.pstate = .reading then 0 else s.cnt,
                   phase := match s.pstate with | .done => 9 | .padPending => 3 | .reading => 1 } ∧
      t.H = (compress s.var (s.H.map (lo s.var)) (Memory.readList s.blk 0 s.var.blockBytes)).map zext

/-- The result of a computation (R239, R240): for every message delivered by answers that keep the source's duty, however
split, START and `stepCount` engine steps end in FINISH, with the digest `SHA_V(m)`, the length `8·|m|`, DONE set and no
error, and with no answer taken beyond the end of input. -/
def Obligations.ComputationHashesTheMessage : Prop :=
  ∀ (v : Variant) (answers rest : List SrcResponse) (s : State),
    s.busy = false → s.agenda = [.command (startWord v)] → s.agendaAfter = [] → s.source = answers ++ rest →
    Memory.wf s.blk → answersWell v 0 answers = true → 8 * (messageOf answers).length < 2 ^ v.lengthBits →
    ∃ t : State, Host.Core.run Sys2Proof.core (1 + stepCount v answers) s = .next t ∧
      t.done = true ∧ t.busy = false ∧ t.err = false ∧ t.var = v ∧ t.pstate = .done ∧ t.eoiSeen = true ∧
      t.H = (sha v (messageOf answers)).map zext ∧ t.len.toNat = 8 * (messageOf answers).length ∧ t.source = rest

/-- The result does not depend on how host accesses interleave (R239, R314, R90): the same computation with any legal moves of
the host, STARTs and reads among them, before and between its `stepCount` engine turns ends, at the last of these turns, in the
same digest, length and flags. -/
def Obligations.InterleavingDoesNotMatter : Prop :=
  ∀ (v : Variant) (answers rest : List SrcResponse) (moves later : List Event) (s : State),
    s.busy = false → s.agenda = .command (startWord v) :: (moves ++ .engine :: later) → s.source = answers ++ rest →
    Memory.wf s.blk → answersWell v 0 answers = true → 8 * (messageOf answers).length < 2 ^ v.lengthBits →
    (∀ e ∈ moves, e = .engine ∨ hostMove e) → moves.count .engine + 1 = stepCount v answers →
    ∃ t : State, Host.Core.run Sys2Proof.core (moves.length + 2) s = .next t ∧
      t.done = true ∧ t.busy = false ∧ t.err = false ∧ t.var = v ∧ t.pstate = .done ∧ t.eoiSeen = true ∧
      t.H = (sha v (messageOf answers)).map zext ∧ t.len.toNat = 8 * (messageOf answers).length ∧ t.source = rest ∧
      t.agenda = later

/-- Fairness (R90, R320): from every state, whatever the other agents do, the engine's turn comes within as many steps as
there are moves in the agenda and in the moves that start over, unless a move of the host is refused. On its turn the engine
takes its step when it has one (EngineStepsExactlyWhenEnabled). That the moves of an endless run start over is the model's
form (log 5). -/
def Obligations.EngineTurnAlwaysComes : Prop :=
  ∀ s : State, ∃ k ≤ s.agenda.length + s.agendaAfter.length,
    (∃ t rest, Host.Core.run Sys2Proof.core k s = .next t ∧ engineTurn t rest) ∨
    (∃ r, Host.Core.run Sys2Proof.core k s = .refused r)
end

