-- ==== Sys2Proof/Laws/Meanings.lean ====
section
/-! SUPPORT. What each meaning with more than one outcome can do, said once: if it answers a next state, then one of these
cases holds. -/

namespace Sys2Proof.Machine

/-- The padding case of a block, by its data count (R154). -/
theorem padCase_cases (v : Variant) (c : Nat) :
    (padCase v c = some .full ∧ c = v.blockBytes) ∨ (padCase v c = some .final ∧ c ≤ v.finalMax ∧ c ≠ v.blockBytes) ∨
      (padCase v c = some .spill ∧ v.finalMax < c ∧ c < v.blockBytes) ∨ (padCase v c = none ∧ v.blockBytes < c) := by
  unfold padCase
  split
  · simp_all
  · split
    · simp_all
    · split
      · simp_all
      · simp_all; omega

/-- PAD's outcomes (R155). -/
theorem execPad_next {s t : State} (h : execPad s = .next t) :
    (s.cnt.toNat = s.var.blockBytes ∧ t = { s with phase := 4 }) ∨
      (s.cnt.toNat ≤ s.var.finalMax ∧ t = { s with
        blk := Memory.writeList s.blk s.cnt.toNat (finalPadding s.var s.cnt.toNat s.len)
        pstate := .done
        phase := 4 }) ∨
      (s.var.finalMax < s.cnt.toNat ∧ s.cnt.toNat < s.var.blockBytes ∧ t = { s with
        blk := Memory.writeList s.blk s.cnt.toNat (spillPadding s.var s.cnt.toNat)
        pstate := .padPending
        phase := 4 }) := by
  unfold execPad at h
  rcases padCase_cases s.var s.cnt.toNat with ⟨hp, hc⟩ | ⟨hp, hc, -⟩ | ⟨hp, hc, hc'⟩ | ⟨hp, -⟩ <;> rw [hp] at h
  · exact .inl ⟨hc, by cases h; rfl⟩
  · exact .inr (.inl ⟨hc, by cases h; rfl⟩)
  · exact .inr (.inr ⟨hc, hc', by cases h; rfl⟩)
  · cases h

/-- The outcomes of FILL on one answer (R152, R277). -/
theorem fillFrom_next {r : SrcResponse} {rs : List SrcResponse} {s t : State} (h : fillFrom r rs s = .next t) :
    (r.fail = true ∧ t = raiseEngineError .srcFail (takeAnswer rs s)) ∨
      (r.fail = false ∧ r.k ≤ requestSize s ∧ r.data.length = r.k ∧
        ((lengthOverflows s r.k = true ∧ t = raiseEngineError .lenOvf (takeAnswer rs s)) ∨
          (lengthOverflows s r.k = false ∧ t = acceptBytes r (takeAnswer rs s)))) := by
  unfold fillFrom at h
  split at h
  · next hf => exact .inl ⟨hf, by cases h; rfl⟩
  · next hf =>
    split at h
    · cases h
    · next hp =>
      rw [not_or, not_lt, not_not] at hp
      refine .inr ⟨by simpa using hf, hp.1, hp.2, ?_⟩
      split at h
      · next ho => exact .inl ⟨ho, by cases h; rfl⟩
      · next ho => exact .inr ⟨by simpa using ho, by cases h; rfl⟩

/-- The source's answer, from the state's two fields. -/
theorem nextAnswer_of_answerNext {s : State} {r : SrcResponse} {rs : List SrcResponse} (h : answerNext s r rs) :
    nextAnswer s = some (r, rs) := by
  unfold nextAnswer
  rcases h with h | ⟨h, ha, rfl⟩
  · rw [h]
  · rw [h, ha]
    rfl

/-- What the source's answer says of the state's two fields. -/
theorem answerNext_of_some {s : State} {r : SrcResponse} {rs : List SrcResponse} (h : nextAnswer s = some (r, rs)) :
    answerNext s r rs := by
  unfold nextAnswer at h
  split at h
  · next hs =>
    cases h
    exact .inl hs
  · next hs =>
    rw [Option.map_eq_some_iff] at h
    obtain ⟨q, hq, hr⟩ := h
    cases hr
    exact .inr ⟨hs, hq, rfl⟩

/-- The source does not answer exactly when nothing is left and nothing is given from there on (R289). -/
theorem nextAnswer_eq_none {s : State} : nextAnswer s = none ↔ s.source = [] ∧ s.sourceAfter = none := by
  unfold nextAnswer
  split
  · next hs => simp [hs]
  · next hs => simp [hs]

/-- FILL's outcomes (R152, R289). -/
theorem execFill_next {s t : State} (h : execFill s = .next t) :
    (s.eoiSeen = true ∧ t = { s with phase := 2 }) ∨
      (s.eoiSeen = false ∧ 0 < requestSize s ∧
        ((nextAnswer s = none ∧ t = s) ∨ ∃ r rs, answerNext s r rs ∧ fillFrom r rs s = .next t)) := by
  unfold execFill at h
  split at h
  · next he => exact .inl ⟨he, by cases h; rfl⟩
  · next he =>
    split at h
    · cases h
    · next hn =>
      refine .inr ⟨by simpa using he, by omega, ?_⟩
      split at h
      · next hs => exact .inl ⟨hs, by cases h; rfl⟩
      · next r rs hs => exact .inr ⟨r, rs, answerNext_of_some hs, h⟩

/-- SCHED's outcomes (R186). -/
theorem execSched_next {s t : State} (h : execSched s = .next t) :
    16 ≤ s.t.toNat ∧ s.t.toNat < s.var.rounds ∧
      ((s.t.toNat + 1 = s.var.rounds ∧ t = { s with
          W := s.W.setIfInBounds s.t.toNat (nextScheduleWord s)
          t := 0
          phase := 6 }) ∨
        (s.t.toNat + 1 ≠ s.var.rounds ∧ t = { s with
          W := s.W.setIfInBounds s.t.toNat (nextScheduleWord s)
          t := s.t + 1
          phase := 5 })) := by
  unfold execSched at h
  split at h
  · cases h
  · next hr =>
    refine ⟨by omega, by omega, ?_⟩
    dsimp only at h
    split at h
    · next hn => exact .inl ⟨hn, by cases h; rfl⟩
    · next hn => exact .inr ⟨hn, by cases h; rfl⟩

/-- ROUND's outcomes (R208). -/
theorem execRound_next {s t : State} (h : execRound s = .next t) :
    s.t.toNat < s.var.rounds ∧
      ((s.t.toNat + 1 = s.var.rounds ∧ t = { s with wv := roundWorking s, t := 0, phase := 8 }) ∨
        (s.t.toNat + 1 ≠ s.var.rounds ∧ t = { s with wv := roundWorking s, t := s.t + 1, phase := 7 })) := by
  unfold execRound at h
  split at h
  · cases h
  · next hr =>
    refine ⟨by omega, ?_⟩
    split at h
    · next hn => exact .inl ⟨hn, by cases h; rfl⟩
    · next hn => exact .inr ⟨hn, by cases h; rfl⟩

/-- START's outcomes (R231, R276). -/
theorem startOrReject_cases (v : Variant) (s : State) :
    (s.busy = true ∧ startOrReject v s = rejectCommand s) ∨ (s.busy = false ∧ startOrReject v s = beginComputation v s) := by
  unfold startOrReject
  cases s.busy <;> simp

/-- What a command word decodes to (R121). -/
theorem decodeCmd_cases (x : Word) :
    decodeCmd x = .nop ∨ (∃ v, decodeCmd x = .start v) ∨ decodeCmd x = .reject x := by
  unfold decodeCmd
  split
  · exact .inl rfl
  · split
    · exact .inr (.inl ⟨_, rfl⟩)
    · exact .inr (.inr rfl)

/-- Only the START words decode to START (R121). -/
theorem decodeCmd_start {x : Word} {v : Variant} (h : decodeCmd x = .start v) : x = startWord v := by
  unfold decodeCmd at h
  split at h
  · cases h
  · split at h
    · next hc =>
      cases h
      have hhigh : ∀ j < 59, x.getLsbD (5 + j) = false := fun j hj => by
        simpa [BitVec.getLsbD_extractLsb', hj] using congrArg (fun y => BitVec.getLsbD y j) hc.1
      have hlow : ∀ j < 4, x.getLsbD j = (1 : BitVec 4).getLsbD j := fun j hj => by
        simpa [BitVec.getLsbD_extractLsb', hj] using congrArg (fun y => BitVec.getLsbD y j) hc.2
      have hhigh' : ∀ v, ∀ i < 64, 5 ≤ i → (startWord v).getLsbD i = false := by intro v; cases v <;> decide
      have hlow' : ∀ v, ∀ i < 4, (1 : BitVec 4).getLsbD i = (startWord v).getLsbD i := by intro v; cases v <;> decide
      refine BitVec.eq_of_getLsbD_eq fun i hi => ?_
      rcases lt_trichotomy i 4 with h4 | rfl | h4
      · exact (hlow i h4).trans (hlow' _ i h4)
      · cases x.getLsbD 4 <;> rfl
      · have := hhigh (i - 5) (by omega)
        rw [show 5 + (i - 5) = i by omega] at this
        exact this.trans (hhigh' _ i hi (by omega)).symm
    · cases h

/-- A command's outcomes (R230). -/
theorem performCommand_cases (x : Word) (s : State) :
    (decodeCmd x = .nop ∧ performCommand x s = s) ∨
      (∃ v, decodeCmd x = .start v ∧ performCommand x s = startOrReject v s) ∨
      (decodeCmd x = .reject x ∧ performCommand x s = rejectCommand s) := by
  unfold performCommand
  rcases decodeCmd_cases x with h | ⟨v, h⟩ | h <;> rw [h]
  · exact .inl ⟨rfl, rfl⟩
  · exact .inr (.inl ⟨v, rfl, rfl⟩)
  · exact .inr (.inr ⟨rfl, rfl⟩)

/-- An access is performed or refused (R86). -/
theorem atAligned_next {off : BitVec 8} {s t : State} (h : atAligned off s = .next t) : alignedOff off = true ∧ t = s := by
  unfold atAligned at h
  split at h
  · next ha => exact ⟨ha, by cases h; rfl⟩
  · cases h

/-- What a host instruction does to the state (R230, R231, R232, R237, R238, R275): nothing, a register read, a rejection,
or an accepted START. -/
theorem exec_host_next {i : Instr} {s t : State} (hi : hostIssues i = true) (h : exec i s = .next t) :
    t = s ∨ (∃ r, t = readRegister r s) ∨ t = rejectCommand s ∨ (s.busy = false ∧ ∃ v, t = beginComputation v s) := by
  have hstart : ∀ v, startOrReject v s = rejectCommand s ∨ (s.busy = false ∧ startOrReject v s = beginComputation v s) :=
    fun v => (startOrReject_cases v s).imp And.right id
  have hcmd : ∀ x, performCommand x s = s ∨ performCommand x s = rejectCommand s ∨
      (s.busy = false ∧ ∃ v, performCommand x s = beginComputation v s) := fun x => by
    rcases performCommand_cases x s with ⟨-, hx⟩ | ⟨v, -, hx⟩ | ⟨-, hx⟩
    · exact .inl hx
    · rw [hx]
      exact .inr ((hstart v).imp id fun hv => ⟨hv.1, v, hv.2⟩)
    · exact .inr (.inl hx)
  cases i with
  | nop => exact .inl (by cases h; rfl)
  | start v =>
    cases h
    exact .inr (.inr ((hstart v).imp id fun hv => ⟨hv.1, v, hv.2⟩))
  | reject x => exact .inr (.inr (.inl (by cases h; rfl)))
  | rd off => exact .inr (.inl ⟨_, (atAligned_next h).2⟩)
  | wrCmd x =>
    cases h
    exact (hcmd x).imp id .inr
  | wr off x =>
    rw [(atAligned_next h).2]
    split
    · exact (hcmd x).imp id .inr
    · exact .inl rfl
  | _ => cases hi

end Sys2Proof.Machine
end

