-- ==== Sys2Proof/Laws/Memory.lean ====
section
/-! SUPPORT. The laws of the block buffer: every operation keeps its canonical form and the bytes that exist, a read
after a write, and equal bytes in canonical form are equal data. -/

namespace Sys2Proof.Machine

@[simp] theorem Memory.read_nil (a : Nat) : Memory.read [] a = Memory.unlisted := rfl

theorem Memory.wf_nil : Memory.wf [] := ⟨List.Pairwise.nil, by simp⟩

theorem Memory.wf_tail {c : Host.Cell} {m : Memory} (h : Memory.wf (c :: m)) : Memory.wf m :=
  ⟨h.1.tail, fun x hx => h.2 x (List.mem_cons_of_mem _ hx)⟩

theorem Memory.head_lt {c : Host.Cell} {m : Memory} (h : Memory.wf (c :: m)) : ∀ x ∈ m, c.1 < x.1 :=
  (List.pairwise_cons.1 h.1).1

/-- An address below every listed one reads as the unlisted byte. -/
theorem Memory.read_of_lt {m : Memory} {a : Nat} (h : ∀ c ∈ m, a < c.1) : Memory.read m a = Memory.unlisted := by
  induction m with
  | nil => rfl
  | cons c m ih =>
    have hc := h c (by simp)
    rw [Memory.read, if_neg (by omega)]
    exact ih fun x hx => h x (by simp [hx])

/-- A cell in front: its byte at its address, elsewhere the rest. -/
theorem Memory.read_cell {m : Memory} {a : Nat} (b : Byte) (h : ∀ c ∈ m, a < c.1) (a' : Nat) :
    Memory.read (Memory.cell a b m) a' = if a' = a then b else Memory.read m a' := by
  unfold Memory.cell
  split
  · next hb =>
    subst hb
    split
    · next ha => subst ha; exact Memory.read_of_lt h
    · rfl
  · simp only [Memory.read, eq_comm]

/-- A read after a write gives the byte written there and the old byte everywhere else. -/
theorem Memory.read_write {m : Memory} (h : Memory.wf m) (a : Nat) (b : Byte) (a' : Nat) :
    Memory.read (Memory.write m a b) a' = if a' = a then b else Memory.read m a' := by
  induction m with
  | nil => exact Memory.read_cell b (by simp) a'
  | cons c m ih =>
    obtain ⟨ca, cb⟩ := c
    have hlt : ∀ x ∈ m, ca < x.1 := Memory.head_lt h
    unfold Memory.write
    split
    · next hac =>
      refine Memory.read_cell b (fun x hx => ?_) a'
      rcases List.mem_cons.1 hx with rfl | hx
      · exact hac
      · exact hac.trans (hlt x hx)
    · split
      · next heq =>
        subst heq
        rw [Memory.read_cell b hlt, Memory.read]
        split
        · rfl
        · next hne => rw [if_neg (Ne.symm hne)]
      · next hnlt hne =>
        simp only [Memory.read, ih (Memory.wf_tail h)]
        split
        · next hca => rw [if_neg (by omega)]
        · rfl

theorem Memory.mem_cell {m : Memory} {a : Nat} {b : Byte} {x : Host.Cell} (hx : x ∈ Memory.cell a b m) :
    x = (a, b) ∨ x ∈ m := by
  unfold Memory.cell at hx
  split at hx
  · exact .inr hx
  · simpa using hx

theorem Memory.mem_write {m : Memory} {a : Nat} {b : Byte} {x : Host.Cell} (hx : x ∈ Memory.write m a b) :
    x = (a, b) ∨ x ∈ m := by
  induction m with
  | nil => exact Memory.mem_cell hx
  | cons c m ih =>
    unfold Memory.write at hx
    split at hx
    · exact Memory.mem_cell hx
    · split at hx
      · exact (Memory.mem_cell hx).imp id (List.mem_cons_of_mem _)
      · rcases List.mem_cons.1 hx with rfl | hx
        · exact .inr (by simp)
        · exact (ih hx).imp id (List.mem_cons_of_mem _)

theorem Memory.wf_cell {m : Memory} {a : Nat} (b : Byte) (h : Memory.wf m) (hlt : ∀ c ∈ m, a < c.1) :
    Memory.wf (Memory.cell a b m) := by
  unfold Memory.cell
  split
  · exact h
  · next hb =>
    refine ⟨List.pairwise_cons.2 ⟨hlt, h.1⟩, fun c hc => ?_⟩
    rcases List.mem_cons.1 hc with rfl | hc
    · exact hb
    · exact h.2 c hc

/-- A write keeps the canonical form. -/
theorem Memory.wf_write {m : Memory} (h : Memory.wf m) (a : Nat) (b : Byte) : Memory.wf (Memory.write m a b) := by
  induction m with
  | nil => exact Memory.wf_cell b h (by simp)
  | cons c m ih =>
    have hlt := Memory.head_lt h
    unfold Memory.write
    split
    · next hac =>
      refine Memory.wf_cell b h fun x hx => ?_
      rcases List.mem_cons.1 hx with rfl | hx
      · exact hac
      · exact hac.trans (hlt x hx)
    · split
      · next heq => exact Memory.wf_cell b (Memory.wf_tail h) (by rw [heq]; exact hlt)
      · next hnlt hne =>
        have hw := ih (Memory.wf_tail h)
        refine ⟨List.pairwise_cons.2 ⟨fun x hx => ?_, hw.1⟩, fun x hx => ?_⟩
        · rcases Memory.mem_write hx with rfl | hx
          · show c.1 < a
            omega
          · exact hlt x hx
        · rcases List.mem_cons.1 hx with rfl | hx
          · exact h.2 _ (by simp)
          · exact hw.2 x hx

/-- A write below a bound keeps the buffer below it. -/
theorem Memory.below_write {m : Memory} {n a : Nat} (h : Memory.below m n) (ha : a < n) (b : Byte) :
    Memory.below (Memory.write m a b) n := fun x hx => by
  rcases Memory.mem_write hx with rfl | hx
  · exact ha
  · exact h x hx

/-- Writing several bytes keeps the canonical form. -/
theorem Memory.wf_writeList {m : Memory} (h : Memory.wf m) (a : Nat) (bytes : List Byte) :
    Memory.wf (Memory.writeList m a bytes) := by
  induction bytes generalizing m a with
  | nil => exact h
  | cons b bytes ih => exact ih (Memory.wf_write h a b) (a + 1)

/-- Writing several bytes below a bound keeps the buffer below it. -/
theorem Memory.below_writeList {m : Memory} {n a : Nat} (h : Memory.below m n) {bytes : List Byte}
    (ha : a + bytes.length ≤ n) : Memory.below (Memory.writeList m a bytes) n := by
  induction bytes generalizing m a with
  | nil => exact h
  | cons b bytes ih =>
    rw [List.length_cons] at ha
    exact ih (Memory.below_write h (by omega) b) (by omega)

/-- A read after writing several bytes: the byte written there, the old byte outside. -/
theorem Memory.read_writeList {m : Memory} (h : Memory.wf m) (a : Nat) (bytes : List Byte) (a' : Nat) :
    Memory.read (Memory.writeList m a bytes) a' =
      if h : a ≤ a' ∧ a' - a < bytes.length then bytes[a' - a] else Memory.read m a' := by
  induction bytes generalizing m a with
  | nil => simp [Memory.writeList]
  | cons b bytes ih =>
    rw [Memory.writeList, ih (Memory.wf_write h a b), Memory.read_write h]
    by_cases h0 : a' = a
    · subst h0; simp
    · by_cases h1 : a + 1 ≤ a' ∧ a' - (a + 1) < bytes.length
      · rw [dif_pos h1, dif_pos (by simp; omega)]
        have : a' - a = a' - (a + 1) + 1 := by omega
        simp [this]
      · rw [dif_neg h1, dif_neg (by simp; omega), if_neg h0]

/-- The written bytes read back. -/
theorem Memory.read_writeList_at {m : Memory} (h : Memory.wf m) (a : Nat) (bytes : List Byte) {j : Nat}
    (hj : j < bytes.length) : Memory.read (Memory.writeList m a bytes) (a + j) = bytes[j] := by
  rw [Memory.read_writeList h, dif_pos (by omega)]
  simp

/-- Outside the written bytes nothing changes. -/
theorem Memory.read_writeList_outside {m : Memory} (h : Memory.wf m) {a a' : Nat} {bytes : List Byte}
    (ha : a' < a ∨ a + bytes.length ≤ a') : Memory.read (Memory.writeList m a bytes) a' = Memory.read m a' := by
  rw [Memory.read_writeList h, dif_neg (by omega)]

/-- The bytes just written are the bytes read from there. -/
theorem Memory.readList_writeList {m : Memory} (h : Memory.wf m) (a : Nat) (bytes : List Byte) :
    Memory.readList (Memory.writeList m a bytes) a bytes.length = bytes := by
  refine List.ext_getElem (by simp [Memory.readList]) fun j h1 h2 => ?_
  simp [Memory.readList, Memory.read_writeList_at h a bytes h2]

/-- The byte at a listed address, in canonical form. -/
theorem Memory.read_of_mem {m : Memory} (h : Memory.wf m) {c : Host.Cell} (hc : c ∈ m) : Memory.read m c.1 = c.2 := by
  induction m with
  | nil => simp at hc
  | cons d m ih =>
    rcases List.mem_cons.1 hc with rfl | hc'
    · simp [Memory.read]
    · have := Memory.head_lt h c hc'
      rw [Memory.read, if_neg (by omega), ih (Memory.wf_tail h) hc']

/-- Equal bytes in canonical form are equal data. -/
theorem Memory.ext_read {m n : Memory} (hm : Memory.wf m) (hn : Memory.wf n)
    (h : ∀ a, Memory.read m a = Memory.read n a) : m = n := by
  induction m generalizing n with
  | nil =>
    cases n with
    | nil => rfl
    | cons c n =>
      have := h c.1
      rw [Memory.read_of_mem hn (by simp)] at this
      exact absurd this.symm (hn.2 c (by simp))
  | cons c m ih =>
    cases n with
    | nil =>
      have := h c.1
      rw [Memory.read_of_mem hm (by simp)] at this
      exact absurd this (hm.2 c (by simp))
    | cons d n =>
      have hc := h c.1
      have hd := h d.1
      rw [Memory.read_of_mem hm (by simp)] at hc
      rw [Memory.read_of_mem hn (by simp)] at hd
      have hcd : c.1 = d.1 := by
        rcases Nat.lt_trichotomy c.1 d.1 with hlt | heq | hlt
        · refine absurd (hc.trans (Memory.read_of_lt fun x hx => ?_)) (hm.2 c (by simp))
          rcases List.mem_cons.1 hx with rfl | hx
          · exact hlt
          · exact hlt.trans (Memory.head_lt hn x hx)
        · exact heq
        · refine absurd (hd.symm.trans (Memory.read_of_lt fun x hx => ?_)) (hn.2 d (by simp))
          rcases List.mem_cons.1 hx with rfl | hx
          · exact hlt
          · exact hlt.trans (Memory.head_lt hm x hx)
      have hb : c = d := by
        refine Prod.ext hcd ?_
        rw [hc, hcd, Memory.read_of_mem hn (by simp)]
      subst hb
      congr 1
      refine ih (Memory.wf_tail hm) (Memory.wf_tail hn) fun a => ?_
      by_cases ha : c.1 = a
      · rw [Memory.read_of_lt fun x hx => ha ▸ Memory.head_lt hm x hx,
          Memory.read_of_lt fun x hx => ha ▸ Memory.head_lt hn x hx]
      · simpa [Memory.read, ha] using h a

end Sys2Proof.Machine
end

