-- ==== Sys2Proof/Laws/PerInstr.lean ====
section
/-! SUPPORT. A fact about every instruction as syntax, one lemma per constructor: its encoding lies in its own row of
spec/opcode_table.json, by the row's match and mask and the rows that take precedence (spec/30_encoding.md R121, R122). -/

namespace Sys2Proof.Laws

/-- The encoded form lies in the row of the instruction: match, mask, and no row before it. -/
def inRow (i : Instr) (e : Encoded) : Bool :=
  match i, e with
  | .nop, .cmd w => w &&& 0xFFFFFFFFFFFFFFFF == 0
  | .start _, .cmd w => w &&& 0xFFFFFFFFFFFFFFEF == 1
  | .reject _, .cmd w => w &&& 0xFFFFFFFFFFFFFFFF != 0 && w &&& 0xFFFFFFFFFFFFFFEF != 1
  | .rd _, .bus a _ => a &&& 0x107 == 0
  | .wrCmd _, .bus a _ => a &&& 0x1FF == 0x100
  | .wr _ _, .bus a _ => a &&& 0x107 == 0x100 && a &&& 0x1FF != 0x100
  | .idle, .phase c => c == 0
  | .fill, .phase c => c == 1
  | .pad, .phase c => c == 2
  | .padblk, .phase c => c == 3
  | .extract, .phase c => c == 4
  | .sched, .phase c => c == 5
  | .initwv, .phase c => c == 6
  | .round, .phase c => c == 7
  | .accum, .phase c => c == 8
  | .finish, .phase c => c == 9
  | _, _ => false

/-- A well-formed instruction's encoding lies in its row. -/
def TableRow.Statement (i : Instr) : Prop :=
  i.wf = true → inRow i (encode i) = true

theorem TableRow.nop : TableRow.Statement .nop := fun _ => rfl

theorem TableRow.start (v : Variant) : TableRow.Statement (.start v) := fun _ => by cases v <;> decide

theorem TableRow.reject (value : Word) : TableRow.Statement (.reject value) := fun h => by
  simp only [Instr.wf, legalCmd, Bool.not_or, Bool.and_eq_true, Bool.not_eq_true', beq_eq_false_iff_ne] at h
  simp only [inRow, encode, Bool.and_eq_true, bne_iff_ne]
  refine ⟨?_, h.2⟩
  rw [show (0xFFFFFFFFFFFFFFFF : Word) = BitVec.allOnes 64 from by decide, BitVec.and_allOnes]
  exact h.1

theorem TableRow.rd (off : BitVec 8) : TableRow.Statement (.rd off) := by
  revert off; unfold TableRow.Statement; decide

theorem TableRow.wrCmd (data : Word) : TableRow.Statement (.wrCmd data) := fun _ => rfl

theorem TableRow.wr (off : BitVec 8) (data : Word) : TableRow.Statement (.wr off data) := by
  simp only [TableRow.Statement, Instr.wf, inRow, encode]
  revert off; decide

theorem TableRow.idle : TableRow.Statement .idle := fun _ => rfl

theorem TableRow.fill : TableRow.Statement .fill := fun _ => rfl

theorem TableRow.pad : TableRow.Statement .pad := fun _ => rfl

theorem TableRow.padblk : TableRow.Statement .padblk := fun _ => rfl

theorem TableRow.extract : TableRow.Statement .extract := fun _ => rfl

theorem TableRow.sched : TableRow.Statement .sched := fun _ => rfl

theorem TableRow.initwv : TableRow.Statement .initwv := fun _ => rfl

theorem TableRow.round : TableRow.Statement .round := fun _ => rfl

theorem TableRow.accum : TableRow.Statement .accum := fun _ => rfl

theorem TableRow.finish : TableRow.Statement .finish := fun _ => rfl

end Sys2Proof.Laws
end

