-- ==== Sys2Proof/Laws/State.lean ====
section
/-! SUPPORT. What each shared update leaves in each field of State: one lemma per field per update. -/

namespace Sys2Proof.Machine

/-! ### The engine error (R272) -/

@[simp] theorem raiseEngineError_phase (code : ErrCode) (s : State) : (raiseEngineError code s).phase = 0 := rfl
@[simp] theorem raiseEngineError_t (code : ErrCode) (s : State) : (raiseEngineError code s).t = s.t := rfl
@[simp] theorem raiseEngineError_busy (code : ErrCode) (s : State) : (raiseEngineError code s).busy = false := rfl
@[simp] theorem raiseEngineError_done (code : ErrCode) (s : State) : (raiseEngineError code s).done = false := rfl
@[simp] theorem raiseEngineError_err (code : ErrCode) (s : State) : (raiseEngineError code s).err = true := rfl
@[simp] theorem raiseEngineError_cmdRej (code : ErrCode) (s : State) : (raiseEngineError code s).cmdRej = s.cmdRej :=
  rfl
@[simp] theorem raiseEngineError_errcode (code : ErrCode) (s : State) : (raiseEngineError code s).errcode = code :=
  rfl
@[simp] theorem raiseEngineError_var (code : ErrCode) (s : State) : (raiseEngineError code s).var = s.var := rfl
@[simp] theorem raiseEngineError_pstate (code : ErrCode) (s : State) : (raiseEngineError code s).pstate = s.pstate :=
  rfl
@[simp] theorem raiseEngineError_eoiSeen (code : ErrCode) (s : State) : (raiseEngineError code s).eoiSeen = s.eoiSeen :=
  rfl
@[simp] theorem raiseEngineError_cnt (code : ErrCode) (s : State) : (raiseEngineError code s).cnt = s.cnt := rfl
@[simp] theorem raiseEngineError_H (code : ErrCode) (s : State) : (raiseEngineError code s).H = s.H := rfl
@[simp] theorem raiseEngineError_wv (code : ErrCode) (s : State) : (raiseEngineError code s).wv = s.wv := rfl
@[simp] theorem raiseEngineError_W (code : ErrCode) (s : State) : (raiseEngineError code s).W = s.W := rfl
@[simp] theorem raiseEngineError_blk (code : ErrCode) (s : State) : (raiseEngineError code s).blk = s.blk := rfl
@[simp] theorem raiseEngineError_len (code : ErrCode) (s : State) : (raiseEngineError code s).len = s.len := rfl
@[simp] theorem raiseEngineError_source (code : ErrCode) (s : State) : (raiseEngineError code s).source = s.source :=
  rfl
@[simp] theorem raiseEngineError_sourceAfter (code : ErrCode) (s : State) :
    (raiseEngineError code s).sourceAfter = s.sourceAfter := rfl
@[simp] theorem raiseEngineError_agenda (code : ErrCode) (s : State) : (raiseEngineError code s).agenda = s.agenda :=
  rfl
@[simp] theorem raiseEngineError_agendaAfter (code : ErrCode) (s : State) :
    (raiseEngineError code s).agendaAfter = s.agendaAfter := rfl
@[simp] theorem raiseEngineError_reads (code : ErrCode) (s : State) : (raiseEngineError code s).reads = s.reads := rfl
@[simp] theorem raiseEngineError_requests (code : ErrCode) (s : State) : (raiseEngineError code s).requests = s.requests :=
  rfl
@[simp] theorem raiseEngineError_draws (code : ErrCode) (s : State) : (raiseEngineError code s).draws = s.draws := rfl

/-! ### The command rejection (R275) -/

@[simp] theorem rejectCommand_phase (s : State) : (rejectCommand s).phase = s.phase := rfl
@[simp] theorem rejectCommand_t (s : State) : (rejectCommand s).t = s.t := rfl
@[simp] theorem rejectCommand_busy (s : State) : (rejectCommand s).busy = s.busy := rfl
@[simp] theorem rejectCommand_done (s : State) : (rejectCommand s).done = s.done := rfl
@[simp] theorem rejectCommand_err (s : State) : (rejectCommand s).err = s.err := rfl
@[simp] theorem rejectCommand_cmdRej (s : State) : (rejectCommand s).cmdRej = true := rfl
@[simp] theorem rejectCommand_errcode (s : State) : (rejectCommand s).errcode = s.errcode := rfl
@[simp] theorem rejectCommand_var (s : State) : (rejectCommand s).var = s.var := rfl
@[simp] theorem rejectCommand_pstate (s : State) : (rejectCommand s).pstate = s.pstate := rfl
@[simp] theorem rejectCommand_eoiSeen (s : State) : (rejectCommand s).eoiSeen = s.eoiSeen := rfl
@[simp] theorem rejectCommand_cnt (s : State) : (rejectCommand s).cnt = s.cnt := rfl
@[simp] theorem rejectCommand_H (s : State) : (rejectCommand s).H = s.H := rfl
@[simp] theorem rejectCommand_wv (s : State) : (rejectCommand s).wv = s.wv := rfl
@[simp] theorem rejectCommand_W (s : State) : (rejectCommand s).W = s.W := rfl
@[simp] theorem rejectCommand_blk (s : State) : (rejectCommand s).blk = s.blk := rfl
@[simp] theorem rejectCommand_len (s : State) : (rejectCommand s).len = s.len := rfl
@[simp] theorem rejectCommand_source (s : State) : (rejectCommand s).source = s.source := rfl
@[simp] theorem rejectCommand_sourceAfter (s : State) : (rejectCommand s).sourceAfter = s.sourceAfter := rfl
@[simp] theorem rejectCommand_agenda (s : State) : (rejectCommand s).agenda = s.agenda := rfl
@[simp] theorem rejectCommand_agendaAfter (s : State) : (rejectCommand s).agendaAfter = s.agendaAfter := rfl
@[simp] theorem rejectCommand_reads (s : State) : (rejectCommand s).reads = s.reads := rfl
@[simp] theorem rejectCommand_requests (s : State) : (rejectCommand s).requests = s.requests := rfl
@[simp] theorem rejectCommand_draws (s : State) : (rejectCommand s).draws = s.draws := rfl

/-! ### The start of a computation (R231) -/

@[simp] theorem beginComputation_phase (v : Variant) (s : State) : (beginComputation v s).phase = 1 := rfl
@[simp] theorem beginComputation_t (v : Variant) (s : State) : (beginComputation v s).t = 0 := rfl
@[simp] theorem beginComputation_busy (v : Variant) (s : State) : (beginComputation v s).busy = true := rfl
@[simp] theorem beginComputation_done (v : Variant) (s : State) : (beginComputation v s).done = false := rfl
@[simp] theorem beginComputation_err (v : Variant) (s : State) : (beginComputation v s).err = false := rfl
@[simp] theorem beginComputation_cmdRej (v : Variant) (s : State) : (beginComputation v s).cmdRej = false := rfl
@[simp] theorem beginComputation_errcode (v : Variant) (s : State) : (beginComputation v s).errcode = .none := rfl
@[simp] theorem beginComputation_var (v : Variant) (s : State) : (beginComputation v s).var = v := rfl
@[simp] theorem beginComputation_pstate (v : Variant) (s : State) : (beginComputation v s).pstate = .reading := rfl
@[simp] theorem beginComputation_eoiSeen (v : Variant) (s : State) : (beginComputation v s).eoiSeen = false := rfl
@[simp] theorem beginComputation_cnt (v : Variant) (s : State) : (beginComputation v s).cnt = 0 := rfl
@[simp] theorem beginComputation_H (v : Variant) (s : State) : (beginComputation v s).H = initialDigest v := rfl
@[simp] theorem beginComputation_wv (v : Variant) (s : State) : (beginComputation v s).wv = s.wv := rfl
@[simp] theorem beginComputation_W (v : Variant) (s : State) : (beginComputation v s).W = s.W := rfl
@[simp] theorem beginComputation_blk (v : Variant) (s : State) : (beginComputation v s).blk = s.blk := rfl
@[simp] theorem beginComputation_len (v : Variant) (s : State) : (beginComputation v s).len = 0 := rfl
@[simp] theorem beginComputation_source (v : Variant) (s : State) : (beginComputation v s).source = s.source := rfl
@[simp] theorem beginComputation_sourceAfter (v : Variant) (s : State) :
    (beginComputation v s).sourceAfter = s.sourceAfter := rfl
@[simp] theorem beginComputation_agenda (v : Variant) (s : State) : (beginComputation v s).agenda = s.agenda := rfl
@[simp] theorem beginComputation_agendaAfter (v : Variant) (s : State) :
    (beginComputation v s).agendaAfter = s.agendaAfter := rfl
@[simp] theorem beginComputation_reads (v : Variant) (s : State) : (beginComputation v s).reads = s.reads := rfl
@[simp] theorem beginComputation_requests (v : Variant) (s : State) : (beginComputation v s).requests = s.requests :=
  rfl
@[simp] theorem beginComputation_draws (v : Variant) (s : State) : (beginComputation v s).draws = s.draws := rfl

/-! ### A source transaction (R82) -/

@[simp] theorem takeAnswer_phase (rs : List SrcResponse) (s : State) : (takeAnswer rs s).phase = s.phase := rfl
@[simp] theorem takeAnswer_t (rs : List SrcResponse) (s : State) : (takeAnswer rs s).t = s.t := rfl
@[simp] theorem takeAnswer_busy (rs : List SrcResponse) (s : State) : (takeAnswer rs s).busy = s.busy := rfl
@[simp] theorem takeAnswer_done (rs : List SrcResponse) (s : State) : (takeAnswer rs s).done = s.done := rfl
@[simp] theorem takeAnswer_err (rs : List SrcResponse) (s : State) : (takeAnswer rs s).err = s.err := rfl
@[simp] theorem takeAnswer_cmdRej (rs : List SrcResponse) (s : State) : (takeAnswer rs s).cmdRej = s.cmdRej := rfl
@[simp] theorem takeAnswer_errcode (rs : List SrcResponse) (s : State) : (takeAnswer rs s).errcode = s.errcode := rfl
@[simp] theorem takeAnswer_var (rs : List SrcResponse) (s : State) : (takeAnswer rs s).var = s.var := rfl
@[simp] theorem takeAnswer_pstate (rs : List SrcResponse) (s : State) : (takeAnswer rs s).pstate = s.pstate := rfl
@[simp] theorem takeAnswer_eoiSeen (rs : List SrcResponse) (s : State) : (takeAnswer rs s).eoiSeen = s.eoiSeen := rfl
@[simp] theorem takeAnswer_cnt (rs : List SrcResponse) (s : State) : (takeAnswer rs s).cnt = s.cnt := rfl
@[simp] theorem takeAnswer_H (rs : List SrcResponse) (s : State) : (takeAnswer rs s).H = s.H := rfl
@[simp] theorem takeAnswer_wv (rs : List SrcResponse) (s : State) : (takeAnswer rs s).wv = s.wv := rfl
@[simp] theorem takeAnswer_W (rs : List SrcResponse) (s : State) : (takeAnswer rs s).W = s.W := rfl
@[simp] theorem takeAnswer_blk (rs : List SrcResponse) (s : State) : (takeAnswer rs s).blk = s.blk := rfl
@[simp] theorem takeAnswer_len (rs : List SrcResponse) (s : State) : (takeAnswer rs s).len = s.len := rfl
@[simp] theorem takeAnswer_source (rs : List SrcResponse) (s : State) : (takeAnswer rs s).source = rs := rfl
@[simp] theorem takeAnswer_sourceAfter (rs : List SrcResponse) (s : State) :
    (takeAnswer rs s).sourceAfter = s.sourceAfter := rfl
@[simp] theorem takeAnswer_agenda (rs : List SrcResponse) (s : State) : (takeAnswer rs s).agenda = s.agenda := rfl
@[simp] theorem takeAnswer_agendaAfter (rs : List SrcResponse) (s : State) :
    (takeAnswer rs s).agendaAfter = s.agendaAfter := rfl
@[simp] theorem takeAnswer_reads (rs : List SrcResponse) (s : State) : (takeAnswer rs s).reads = s.reads := rfl
@[simp] theorem takeAnswer_requests (rs : List SrcResponse) (s : State) : (takeAnswer rs s).requests = requestSize s :: s.requests :=
  rfl
@[simp] theorem takeAnswer_draws (rs : List SrcResponse) (s : State) : (takeAnswer rs s).draws = s.draws := rfl

/-! ### The bytes of an answer (R152) -/

@[simp] theorem acceptBytes_phase (r : SrcResponse) (s : State) :
    (acceptBytes r s).phase = phaseAfterFill s r.k r.eoi := rfl
@[simp] theorem acceptBytes_t (r : SrcResponse) (s : State) : (acceptBytes r s).t = s.t := rfl
@[simp] theorem acceptBytes_busy (r : SrcResponse) (s : State) : (acceptBytes r s).busy = s.busy := rfl
@[simp] theorem acceptBytes_done (r : SrcResponse) (s : State) : (acceptBytes r s).done = s.done := rfl
@[simp] theorem acceptBytes_err (r : SrcResponse) (s : State) : (acceptBytes r s).err = s.err := rfl
@[simp] theorem acceptBytes_cmdRej (r : SrcResponse) (s : State) : (acceptBytes r s).cmdRej = s.cmdRej := rfl
@[simp] theorem acceptBytes_errcode (r : SrcResponse) (s : State) : (acceptBytes r s).errcode = s.errcode := rfl
@[simp] theorem acceptBytes_var (r : SrcResponse) (s : State) : (acceptBytes r s).var = s.var := rfl
@[simp] theorem acceptBytes_pstate (r : SrcResponse) (s : State) : (acceptBytes r s).pstate = s.pstate := rfl
@[simp] theorem acceptBytes_eoiSeen (r : SrcResponse) (s : State) : (acceptBytes r s).eoiSeen = r.eoi := rfl
@[simp] theorem acceptBytes_cnt (r : SrcResponse) (s : State) : (acceptBytes r s).cnt = s.cnt + BitVec.ofNat 8 r.k :=
  rfl
@[simp] theorem acceptBytes_H (r : SrcResponse) (s : State) : (acceptBytes r s).H = s.H := rfl
@[simp] theorem acceptBytes_wv (r : SrcResponse) (s : State) : (acceptBytes r s).wv = s.wv := rfl
@[simp] theorem acceptBytes_W (r : SrcResponse) (s : State) : (acceptBytes r s).W = s.W := rfl
@[simp] theorem acceptBytes_blk (r : SrcResponse) (s : State) : (acceptBytes r s).blk = Memory.writeList s.blk s.cnt.toNat r.data :=
  rfl
@[simp] theorem acceptBytes_len (r : SrcResponse) (s : State) : (acceptBytes r s).len = s.len + BitVec.ofNat 128 (8 * r.k) :=
  rfl
@[simp] theorem acceptBytes_source (r : SrcResponse) (s : State) : (acceptBytes r s).source = s.source := rfl
@[simp] theorem acceptBytes_sourceAfter (r : SrcResponse) (s : State) :
    (acceptBytes r s).sourceAfter = s.sourceAfter := rfl
@[simp] theorem acceptBytes_agenda (r : SrcResponse) (s : State) : (acceptBytes r s).agenda = s.agenda := rfl
@[simp] theorem acceptBytes_agendaAfter (r : SrcResponse) (s : State) :
    (acceptBytes r s).agendaAfter = s.agendaAfter := rfl
@[simp] theorem acceptBytes_reads (r : SrcResponse) (s : State) : (acceptBytes r s).reads = s.reads := rfl
@[simp] theorem acceptBytes_requests (r : SrcResponse) (s : State) : (acceptBytes r s).requests = s.requests := rfl
@[simp] theorem acceptBytes_draws (r : SrcResponse) (s : State) : (acceptBytes r s).draws = s.draws := rfl

/-! ### Reset (R300) -/

@[simp] theorem resetBlock_phase (s : State) : (resetBlock s).phase = 0 := rfl
@[simp] theorem resetBlock_t (s : State) : (resetBlock s).t = 0 := rfl
@[simp] theorem resetBlock_busy (s : State) : (resetBlock s).busy = false := rfl
@[simp] theorem resetBlock_done (s : State) : (resetBlock s).done = false := rfl
@[simp] theorem resetBlock_err (s : State) : (resetBlock s).err = false := rfl
@[simp] theorem resetBlock_cmdRej (s : State) : (resetBlock s).cmdRej = false := rfl
@[simp] theorem resetBlock_errcode (s : State) : (resetBlock s).errcode = .none := rfl
@[simp] theorem resetBlock_var (s : State) : (resetBlock s).var = .sha256 := rfl
@[simp] theorem resetBlock_pstate (s : State) : (resetBlock s).pstate = .reading := rfl
@[simp] theorem resetBlock_eoiSeen (s : State) : (resetBlock s).eoiSeen = false := rfl
@[simp] theorem resetBlock_cnt (s : State) : (resetBlock s).cnt = 0 := rfl
@[simp] theorem resetBlock_H (s : State) : (resetBlock s).H = Config.anyH s.draws := rfl
@[simp] theorem resetBlock_wv (s : State) : (resetBlock s).wv = Config.anyWv s.draws := rfl
@[simp] theorem resetBlock_W (s : State) : (resetBlock s).W = Config.anyW s.draws := rfl
@[simp] theorem resetBlock_blk (s : State) : (resetBlock s).blk = Memory.writeList [] 0 (Config.anyBlk s.draws).toList :=
  rfl
@[simp] theorem resetBlock_len (s : State) : (resetBlock s).len = Config.anyLen s.draws := rfl
@[simp] theorem resetBlock_source (s : State) : (resetBlock s).source = s.source := rfl
@[simp] theorem resetBlock_sourceAfter (s : State) : (resetBlock s).sourceAfter = s.sourceAfter := rfl
@[simp] theorem resetBlock_agenda (s : State) : (resetBlock s).agenda = s.agenda := rfl
@[simp] theorem resetBlock_agendaAfter (s : State) : (resetBlock s).agendaAfter = s.agendaAfter := rfl
@[simp] theorem resetBlock_reads (s : State) : (resetBlock s).reads = s.reads := rfl
@[simp] theorem resetBlock_requests (s : State) : (resetBlock s).requests = s.requests := rfl
@[simp] theorem resetBlock_draws (s : State) : (resetBlock s).draws = s.draws + 1 := rfl

/-! ### A register read (R237): it changes nothing but what the host has been shown and the count of draws -/

@[simp] theorem readRegister_phase (r : Register) (s : State) : (readRegister r s).phase = s.phase := by
  unfold readRegister; split <;> rfl
@[simp] theorem readRegister_t (r : Register) (s : State) : (readRegister r s).t = s.t := by
  unfold readRegister; split <;> rfl
@[simp] theorem readRegister_busy (r : Register) (s : State) : (readRegister r s).busy = s.busy := by
  unfold readRegister; split <;> rfl
@[simp] theorem readRegister_done (r : Register) (s : State) : (readRegister r s).done = s.done := by
  unfold readRegister; split <;> rfl
@[simp] theorem readRegister_err (r : Register) (s : State) : (readRegister r s).err = s.err := by
  unfold readRegister; split <;> rfl
@[simp] theorem readRegister_cmdRej (r : Register) (s : State) : (readRegister r s).cmdRej = s.cmdRej := by
  unfold readRegister; split <;> rfl
@[simp] theorem readRegister_errcode (r : Register) (s : State) : (readRegister r s).errcode = s.errcode := by
  unfold readRegister; split <;> rfl
@[simp] theorem readRegister_var (r : Register) (s : State) : (readRegister r s).var = s.var := by
  unfold readRegister; split <;> rfl
@[simp] theorem readRegister_pstate (r : Register) (s : State) : (readRegister r s).pstate = s.pstate := by
  unfold readRegister; split <;> rfl
@[simp] theorem readRegister_eoiSeen (r : Register) (s : State) : (readRegister r s).eoiSeen = s.eoiSeen := by
  unfold readRegister; split <;> rfl
@[simp] theorem readRegister_cnt (r : Register) (s : State) : (readRegister r s).cnt = s.cnt := by
  unfold readRegister; split <;> rfl
@[simp] theorem readRegister_H (r : Register) (s : State) : (readRegister r s).H = s.H := by
  unfold readRegister; split <;> rfl
@[simp] theorem readRegister_wv (r : Register) (s : State) : (readRegister r s).wv = s.wv := by
  unfold readRegister; split <;> rfl
@[simp] theorem readRegister_W (r : Register) (s : State) : (readRegister r s).W = s.W := by
  unfold readRegister; split <;> rfl
@[simp] theorem readRegister_blk (r : Register) (s : State) : (readRegister r s).blk = s.blk := by
  unfold readRegister; split <;> rfl
@[simp] theorem readRegister_len (r : Register) (s : State) : (readRegister r s).len = s.len := by
  unfold readRegister; split <;> rfl
@[simp] theorem readRegister_source (r : Register) (s : State) : (readRegister r s).source = s.source := by
  unfold readRegister; split <;> rfl
@[simp] theorem readRegister_sourceAfter (r : Register) (s : State) :
    (readRegister r s).sourceAfter = s.sourceAfter := by
  unfold readRegister; split <;> rfl
@[simp] theorem readRegister_agenda (r : Register) (s : State) : (readRegister r s).agenda = s.agenda := by
  unfold readRegister; split <;> rfl
@[simp] theorem readRegister_agendaAfter (r : Register) (s : State) :
    (readRegister r s).agendaAfter = s.agendaAfter := by
  unfold readRegister; split <;> rfl
@[simp] theorem readRegister_requests (r : Register) (s : State) : (readRegister r s).requests = s.requests := by
  unfold readRegister; split <;> rfl

/-- A register that has a value shows it and draws nothing. -/
theorem readRegister_some {r : Register} {s : State} {v : Word} (h : registerValue s r = some v) :
    readRegister r s = { s with reads := v :: s.reads } := by
  simp only [readRegister, h]

/-- A read the spec answers with `any` shows the next draw. -/
theorem readRegister_any {r : Register} {s : State} (h : registerValue s r = none) :
    readRegister r s = { s with reads := Config.anyRead s.draws :: s.reads, draws := s.draws + 1 } := by
  simp only [readRegister, h]

/-- Some value is shown, whichever the register. -/
theorem readRegister_reads (r : Register) (s : State) : ∃ v, (readRegister r s).reads = v :: s.reads := by
  unfold readRegister; split <;> exact ⟨_, rfl⟩

end Sys2Proof.Machine
end

