-- ==== Sys2Proof/Laws/Step.lean ====
section
/-! SUPPORT. What a step can do, said once: it performs what the fetch found. -/

namespace Sys2Proof.Machine

/-- A step that answers a next state has performed an instruction or a move of the environment. -/
theorem step_next {s t : State} (h : step s = .next t) :
    (∃ i s', fetch s = .run i s' ∧ exec i s' = .next t) ∨ fetch s = .environment t := by
  unfold step at h
  split at h
  · next i s' hf => exact .inl ⟨i, s', hf, h⟩
  · next s' hf =>
    cases h
    exact .inr hf
  · cases h
  · cases h

theorem step_of_run {s s' : State} {i : Instr} (h : fetch s = .run i s') : step s = exec i s' := by
  unfold step; rw [h]

/-- A run of the machine takes its first step first. -/
theorem run_succ {s t : State} (k : Nat) (h : step s = .next t) :
    Host.Core.run Sys2Proof.core (k + 1) s = Host.Core.run Sys2Proof.core k t := by
  simp only [Host.Core.run, core, h]

theorem step_of_environment {s s' : State} (h : fetch s = .environment s') : step s = .next s' := by
  unfold step; rw [h]

/-- The next move, as the state's two fields give it, is the one that is fetched. -/
theorem fetch_of_moveNext {s : State} {e : Event} {rest : List Event} (h : moveNext s e rest) :
    fetch s = fetchEvent e { s with agenda := rest } := by
  unfold fetch nextMove
  rcases h with h | ⟨h, ha⟩
  · rw [h]
  · rw [h]
    cases hb : s.agendaAfter <;> rw [hb] at ha <;> cases ha <;> rfl

/-- There is always a next move. -/
theorem exists_moveNext (s : State) : ∃ e rest, moveNext s e rest := by
  cases ha : s.agenda with
  | cons e rest => exact ⟨e, rest, .inl ha⟩
  | nil =>
    cases hb : s.agendaAfter with
    | cons e rest => exact ⟨e, rest ++ [.engine], .inr ⟨ha, by rw [hb]; rfl⟩⟩
    | nil => exact ⟨.engine, [], .inr ⟨ha, by rw [hb]; rfl⟩⟩

/-- With the engine alone, the next move is its turn, and stays so. -/
theorem engineTurn_of_engineAlone {s : State} (h : engineAlone s) : engineTurn s [] :=
  .inr ⟨h.1, by rw [h.2]; rfl⟩

/-- There is one next move. -/
theorem moveNext_unique {s : State} {e e' : Event} {rest rest' : List Event} (h : moveNext s e rest)
    (h' : moveNext s e' rest') : e = e' ∧ rest = rest' := by
  rcases h with h | ⟨h, ha⟩ <;> rcases h' with h' | ⟨h', ha'⟩ <;> simp_all

/-- The state in which a fetched instruction runs differs from the state fetched from in the agenda only. -/
theorem fetch_run_state {s s' : State} {i : Instr} (h : fetch s = .run i s') : ∃ rest, s' = { s with agenda := rest } := by
  have hengine : ∀ u, fetchEngine u = .run i s' → s' = u := fun u hu => by
    unfold fetchEngine at hu
    split at hu
    · split at hu <;> simp_all
    · simp_all
  have haccess : ∀ a u, fetchAccess a u = .run i s' → s' = u := fun a u hu => by
    unfold fetchAccess at hu
    split at hu
    · cases hu
    · split at hu
      · cases hu
      · split at hu <;> simp_all
  obtain ⟨e, rest, hm⟩ := exists_moveNext s
  rw [fetch_of_moveNext hm] at h
  refine ⟨rest, ?_⟩
  cases e with
  | engine => exact hengine _ h
  | access a => exact haccess a _ h
  | platform addr a =>
    simp only [fetchEvent, fetchPlatform] at h
    split at h
    · exact haccess _ _ h
    · cases h
  | command x =>
    simp only [fetchEvent] at h
    cases h
    rfl
  | reset => cases h
  | supply rs after => cases h

/-- The environment's moves: reset, and what the source port is given. -/
theorem fetch_environment {s t : State} (h : fetch s = .environment t) :
    (∃ rest, moveNext s .reset rest ∧ t = resetBlock { s with agenda := rest }) ∨
      ∃ answers after rest, moveNext s (.supply answers after) rest ∧
        t = { s with agenda := rest, source := answers, sourceAfter := after } := by
  have hengine : ∀ u, fetchEngine u ≠ .environment t := fun u hu => by
    unfold fetchEngine at hu
    split at hu
    · split at hu <;> simp_all
    · simp_all
  have haccess : ∀ a u, fetchAccess a u ≠ .environment t := fun a u hu => by
    unfold fetchAccess at hu
    split at hu
    · cases hu
    · split at hu
      · cases hu
      · split at hu <;> simp_all
  obtain ⟨e, rest, hm⟩ := exists_moveNext s
  rw [fetch_of_moveNext hm] at h
  cases e with
  | engine => exact absurd h (hengine _)
  | access a => exact absurd h (haccess a _)
  | platform addr a =>
    simp only [fetchEvent, fetchPlatform] at h
    split at h
    · exact absurd h (haccess _ _)
    · cases h
  | command x => cases h
  | reset =>
    cases h
    exact .inl ⟨rest, hm, rfl⟩
  | supply answers after =>
    cases h
    exact .inr ⟨answers, after, rest, hm, rfl⟩

/-- An engine instruction is fetched only as the micro-operation of the phase register, or as IDLE (R123, R235). -/
theorem fetchEngine_run {s s' : State} {i : Instr} (h : fetchEngine s = .run i s') :
    s' = s ∧ ((s.busy = true ∧ decodePhase s.phase = .ok i) ∨ (s.busy = false ∧ i = .idle)) := by
  unfold fetchEngine decode at h
  split at h
  · next hb =>
    split at h
    · next j hj =>
      cases h
      exact ⟨rfl, .inl ⟨hb, hj⟩⟩
    · cases h
  · next hb =>
    cases h
    exact ⟨rfl, .inr ⟨by simpa using hb, rfl⟩⟩

/-- The micro-operation a phase code decodes to, code by code (R116, R123). -/
theorem decodePhase_ok {c : BitVec 4} {i : Instr} (h : decodePhase c = .ok i) :
    (c = 0 ∧ i = .idle) ∨ (c = 1 ∧ i = .fill) ∨ (c = 2 ∧ i = .pad) ∨ (c = 3 ∧ i = .padblk) ∨ (c = 4 ∧ i = .extract) ∨
      (c = 5 ∧ i = .sched) ∨ (c = 6 ∧ i = .initwv) ∨ (c = 7 ∧ i = .round) ∨ (c = 8 ∧ i = .accum) ∨
      (c = 9 ∧ i = .finish) := by
  have hcodes : ∀ c : BitVec 4, c = 0 ∨ c = 1 ∨ c = 2 ∨ c = 3 ∨ c = 4 ∨ c = 5 ∨ c = 6 ∨ c = 7 ∨ c = 8 ∨ c = 9 ∨
      10 ≤ c.toNat := by decide
  rcases hcodes c with rfl | rfl | rfl | rfl | rfl | rfl | rfl | rfl | rfl | rfl | hc
  case inr.inr.inr.inr.inr.inr.inr.inr.inr.inr =>
    exfalso
    unfold decodePhase at h
    split at h <;> first | omega | cases h
  all_goals (cases h; decide)

/-- A phase code above 9 decodes to nothing (R123). -/
theorem decodePhase_reserved {c : BitVec 4} (h : 10 ≤ c.toNat) : decodePhase c = .error (.reservedPhase c) := by
  unfold decodePhase
  split <;> first | omega | rfl

/-- A bus access decodes to a host instruction (R122). -/
theorem decodeBus_host {access : BitVec 9} {data : Word} {i : Instr} (h : decodeBus access data = .ok i) :
    hostIssues i = true := by
  unfold decodeBus at h
  dsimp only at h
  split at h
  · cases h
  · split at h
    · cases h
      rfl
    · split at h <;> cases h <;> rfl

/-- A bus access that decodes to WR is no write to CMD (R122). -/
theorem decodeBus_wr {access : BitVec 9} {data x : Word} {off : BitVec 8} (h : decodeBus access data = .ok (.wr off x)) :
    off ≠ 0 := by
  unfold decodeBus at h
  dsimp only at h
  split at h
  · cases h
  · split at h
    · cases h
    · split at h
      · cases h
      · next hne =>
        cases h
        exact hne

/-- A host access that is fetched is the instruction its `bus` form decodes to. -/
theorem fetchAccess_run {a : BusAccess} {u s' : State} {i : Instr} (h : fetchAccess a u = .run i s') :
    ∃ access, decodeBus access a.data = .ok i := by
  unfold fetchAccess BusAccess.encoded decode at h
  split at h
  · cases h
  · split at h
    · cases h
    · split at h
      · next j hj =>
        cases h
        exact ⟨_, hj⟩
      · cases h

/-- What is fetched to run: a register access, a command, the micro-operation of the phase register while a computation is
in flight, or IDLE. -/
theorem fetch_run {s s' : State} {i : Instr} (h : fetch s = .run i s') :
    (∃ access data, decodeBus access data = .ok i) ∨ (∃ x, i = decodeCmd x) ∨
      (s.busy = true ∧ decodePhase s.phase = .ok i) ∨ i = .idle := by
  have hengine : ∀ u : State, fetchEngine u = .run i s' → (u.busy = true ∧ decodePhase u.phase = .ok i) ∨ i = .idle :=
    fun u hu => (fetchEngine_run hu).2.imp id And.right
  obtain ⟨e, rest, hm⟩ := exists_moveNext s
  rw [fetch_of_moveNext hm] at h
  cases e with
  | engine => exact .inr (.inr (hengine { s with agenda := rest } h))
  | access a =>
    obtain ⟨access, hd⟩ := fetchAccess_run h
    exact .inl ⟨access, _, hd⟩
  | platform addr a =>
    simp only [fetchEvent, fetchPlatform] at h
    split at h
    · obtain ⟨access, hd⟩ := fetchAccess_run h
      exact .inl ⟨access, _, hd⟩
    · cases h
  | command x =>
    cases h
    exact .inr (.inl ⟨x, rfl⟩)
  | reset => cases h
  | supply rs after => cases h

/-- What is fetched to run, by who issues it. -/
theorem fetch_run_cases {s s' : State} {i : Instr} (h : fetch s = .run i s') :
    hostIssues i = true ∨ (s.busy = true ∧ decodePhase s.phase = .ok i) ∨ i = .idle := by
  rcases fetch_run h with ⟨access, data, hd⟩ | ⟨x, rfl⟩ | h
  · exact .inl (decodeBus_host hd)
  · rcases decodeCmd_cases x with h | ⟨v, h⟩ | h <;> rw [h] <;> exact .inl rfl
  · exact .inr h

/-- A WR that is fetched is no write to CMD (R122). -/
theorem fetch_wr_off {s s' : State} {off : BitVec 8} {x : Word} (h : fetch s = .run (.wr off x) s') : off ≠ 0 := by
  rcases fetch_run h with ⟨access, data, hd⟩ | ⟨y, hy⟩ | ⟨-, hd⟩ | hd
  · exact decodeBus_wr hd
  · rcases decodeCmd_cases y with h | ⟨v, h⟩ | h <;> rw [h] at hy <;> cases hy
  · rcases decodePhase_ok hd with ⟨-, h⟩ | ⟨-, h⟩ | ⟨-, h⟩ | ⟨-, h⟩ | ⟨-, h⟩ | ⟨-, h⟩ | ⟨-, h⟩ | ⟨-, h⟩ | ⟨-, h⟩ | ⟨-, h⟩ <;> cases h
  · cases hd

/-- What a fetched host instruction does: nothing, a register read, a rejection, or the start it was accepted for. -/
theorem fetch_host_next {s t s' : State} {i : Instr} (hf : fetch s = .run i s') (he : exec i s' = .next t)
    (hi : hostIssues i = true) :
    t = s' ∨ (∃ r, t = readRegister r s') ∨ t = rejectCommand s' ∨ (acceptsStart s ∧ ∃ v, t = beginComputation v s') := by
  obtain ⟨rest, hs'⟩ := fetch_run_state hf
  have hb : s'.busy = s.busy := by rw [hs']
  cases i with
  | nop => exact .inl (by cases he; rfl)
  | start v =>
    cases he
    rcases startOrReject_cases v s' with ⟨-, h⟩ | ⟨hn, h⟩
    · exact .inr (.inr (.inl h))
    · exact .inr (.inr (.inr ⟨⟨hb ▸ hn, v, s', .inl hf⟩, v, h⟩))
  | reject x => exact .inr (.inr (.inl (by cases he; rfl)))
  | rd off => exact .inr (.inl ⟨_, (atAligned_next he).2⟩)
  | wrCmd x =>
    cases he
    rcases performCommand_cases x s' with ⟨-, hx⟩ | ⟨v, hv, hx⟩ | ⟨-, hx⟩
    · exact .inl hx
    · rcases startOrReject_cases v s' with ⟨-, h⟩ | ⟨hn, h⟩
      · exact .inr (.inr (.inl (hx.trans h)))
      · exact .inr (.inr (.inr ⟨⟨hb ▸ hn, v, s', .inr (decodeCmd_start hv ▸ hf)⟩, v, hx.trans h⟩))
    · exact .inr (.inr (.inl hx))
  | wr off x =>
    rw [(atAligned_next he).2, if_neg (fetch_wr_off hf)]
    exact .inl rfl
  | _ => cases hi

end Sys2Proof.Machine
end

