-- ==== Sys2Proof/Laws/Words.lean ====
section
/-! SUPPORT. The laws of the stored words and of the byte forms: a word survives its storage, what is stored fits its
variant, how long the padding pieces are, and what a big-endian decoding is worth. -/

namespace Sys2Proof

theorem Variant.width_le (v : Variant) : v.width ≤ 64 := by cases v <;> decide

theorem Variant.width_eq (v : Variant) : v.width = 8 * v.wordBytes := by cases v <;> rfl

theorem Variant.rounds_le (v : Variant) : v.rounds ≤ 80 := by cases v <;> decide

theorem Variant.sixteen_lt_rounds (v : Variant) : 16 < v.rounds := by cases v <;> decide

theorem Variant.blockBytes_le (v : Variant) : v.blockBytes ≤ 128 := by cases v <;> decide

theorem Variant.blockBytes_pos (v : Variant) : 0 < v.blockBytes := by cases v <;> decide

theorem Variant.blockBytes_eq (v : Variant) : v.blockBytes = 16 * v.wordBytes := by cases v <;> rfl

/-- The bound of R6: `FINAL_MAX = B - L - 1`. -/
theorem Variant.finalMax_eq (v : Variant) : v.finalMax + v.lengthBytes + 1 = v.blockBytes := by cases v <;> rfl

/-- A word of the variant survives its storage (R36). -/
@[simp] theorem lo_zext {v : Variant} (x : VWord v) : lo v (zext x) = x := by
  have := v.width_le
  apply BitVec.eq_of_toNat_eq
  simp [lo, zext, BitVec.toNat_setWidth, Nat.mod_eq_of_lt (x.isLt.trans_le (Nat.pow_le_pow_right (by decide) this))]

/-- What is stored has its value (R36). -/
theorem zext_toNat {v : Variant} (x : VWord v) : (zext x).toNat = x.toNat := by
  have := v.width_le
  simp [zext, BitVec.toNat_setWidth, Nat.mod_eq_of_lt (x.isLt.trans_le (Nat.pow_le_pow_right (by decide) this))]

/-- What is stored fits the variant (R36). -/
theorem zext_lt {v : Variant} (x : VWord v) : (zext x).toNat < 2 ^ v.width := by
  rw [zext_toNat]; exact x.isLt

/-- A stored word that fits its variant is the word it holds (R36). -/
theorem zext_lo {v : Variant} {x : Word} (h : x.toNat < 2 ^ v.width) : zext (lo v x) = x := by
  apply BitVec.eq_of_toNat_eq
  rw [zext_toNat, lo, BitVec.toNat_setWidth, Nat.mod_eq_of_lt h]

theorem shr_xor {w : Nat} (x y : BitVec w) (n : Nat) : shr (x ^^^ y) n = shr x n ^^^ shr y n := by
  ext i; simp [shr]

theorem rotr_xor {w : Nat} (x y : BitVec w) (n : Nat) :
    rotr (x ^^^ y) n = rotr x n ^^^ rotr y n := by
  ext i hi
  simp only [rotr, shr, BitVec.getElem_or, BitVec.getElem_xor, BitVec.getElem_ushiftRight, BitVec.getElem_shiftLeft,
    BitVec.getLsbD_xor]
  by_cases h : i < w - n
  · simp [h]
  · rw [BitVec.getLsbD_of_ge x (n + i) (by omega), BitVec.getLsbD_of_ge y (n + i) (by omega)]
    simp [h]

/-- A rotation moves each bit `n` places down, modulo `w` (R11). -/
theorem rotr_getElem {w : Nat} (x : BitVec w) {n : Nat} (hw : n < w) (i : Nat) (hi : i < w) :
    (rotr x n)[i] = if h : i < w - n then x[i + n] else x[i - (w - n)] := by
  simp only [rotr, shr, BitVec.getElem_or, BitVec.getElem_ushiftRight, BitVec.getElem_shiftLeft]
  by_cases h : i < w - n
  · simp [h, Nat.add_comm n i, BitVec.getLsbD_eq_getElem (show i + n < w by omega)]
  · rw [BitVec.getLsbD_of_ge x (n + i) (by omega)]
    simp [h]

/-! ### Bytes -/

@[simp] theorem beBytes_length (k : Nat) (x : BitVec 128) : (beBytes k x).length = k := by simp [beBytes]

/-- Byte `j` of `BE_k(x)` (R12). -/
theorem beBytes_getElem (k : Nat) (x : BitVec 128) (j : Nat) (hj : j < (beBytes k x).length) :
    (beBytes k x)[j] = x.extractLsb' (8 * (k - 1 - j)) 8 := by simp [beBytes]

/-- A big-endian decoding with one more byte (R12). -/
theorem beDecode_append (bytes : List Byte) (b : Byte) :
    beDecode (bytes ++ [b]) = (beDecode bytes <<< 8) ||| b.setWidth 64 := by simp [beDecode]

/-- The value of `k` big-endian bytes is below `2^(8k)` (R12). -/
theorem beDecode_lt (bytes : List Byte) (hk : bytes.length ≤ 8) : (beDecode bytes).toNat < 2 ^ (8 * bytes.length) := by
  induction bytes using List.reverseRecOn with
  | nil => simp [beDecode]
  | append_singleton bytes b ih =>
    rw [List.length_append, List.length_singleton] at hk
    have hih := ih (by omega)
    rw [beDecode_append, BitVec.toNat_or, List.length_append, List.length_singleton]
    refine Nat.or_lt_two_pow ?_ ?_
    · rw [BitVec.toNat_shiftLeft, Nat.shiftLeft_eq]
      refine (Nat.mod_le _ _).trans_lt ?_
      calc (beDecode bytes).toNat * 2 ^ 8 < 2 ^ (8 * bytes.length) * 2 ^ 8 := by gcongr
        _ = 2 ^ (8 * (bytes.length + 1)) := by rw [← pow_add, Nat.mul_add]
    · rw [BitVec.toNat_setWidth]
      refine (Nat.mod_le _ _).trans_lt (b.isLt.trans_le (Nat.pow_le_pow_right (by decide) (by omega)))

namespace Machine

@[simp] theorem Memory.readList_length (m : Memory) (a k : Nat) : (Memory.readList m a k).length = k := by
  simp [Memory.readList]

/-- A word read from the block fits the variant (R36, R140). -/
theorem blockWord_lt (v : Variant) (m : Memory) (i : Nat) : (blockWord v m i).toNat < 2 ^ v.width := by
  have h := beDecode_lt (Memory.readList m (i * v.wordBytes) v.wordBytes)
    (by rw [Memory.readList_length]; cases v <;> decide)
  rw [Memory.readList_length, ← v.width_eq] at h
  exact h

/-- The FINAL padding fills the block (R155). -/
theorem finalPadding_length {v : Variant} {c : Nat} (hc : c ≤ v.finalMax) (len : BitVec 128) :
    c + (finalPadding v c len).length = v.blockBytes := by
  have := v.finalMax_eq
  simp only [finalPadding, List.length_append, List.length_cons, List.length_replicate, beBytes_length]
  omega

/-- The SPILL padding fills the block (R155). -/
theorem spillPadding_length {v : Variant} {c : Nat} (hc : c < v.blockBytes) :
    c + (spillPadding v c).length = v.blockBytes := by
  simp only [spillPadding, List.length_cons, List.length_replicate]
  omega

/-- The length-only block fills the block (R158). -/
theorem lengthBlock_length (v : Variant) (len : BitVec 128) : (lengthBlock v len).length = v.blockBytes := by
  have := v.finalMax_eq
  simp only [lengthBlock, List.length_append, List.length_replicate, beBytes_length]
  omega

end Machine

end Sys2Proof
end

