-- ==== Sys2Proof/Machine/HostNotation.lean ====
section
/-! DEFINITION. The host's notation and its pseudo-instructions (spec/30_encoding.md R119, R120): host software, written here
as the accesses it stands for. The block executes none of it; each access reaches the block as an agenda move. -/

namespace Sys2Proof.Machine

/-- The register names of R119. -/
inductive RegName where
  | cmd
  | status
  | lenLo
  | lenHi
  | digest (i : Fin 8)
  deriving DecidableEq, Repr

/-- `off(REG)` (R119). -/
def RegName.offset : RegName → Nat
  | .cmd => 0x00
  | .status => 0x08
  | .lenLo => 0x10
  | .lenHi => 0x18
  | .digest i => 0x40 + 8 * i.val

/-- One host statement (R119); a label is the index of a statement of the program. -/
inductive HostStatement where
  /-- `wr REG, imm64`. -/
  | wr (r : RegName) (imm : Word)
  /-- `rd REG`. -/
  | rd (r : RegName)
  /-- `bset REG, bit, label`. -/
  | bset (r : RegName) (bit : Nat) (label : Nat)
  deriving DecidableEq, Repr

/-- The bus access of a statement (R119). -/
def HostStatement.access : HostStatement → BusAccess
  | .wr r imm => ⟨true, r.offset, 64, imm⟩
  | .rd r => ⟨false, r.offset, 64, 0⟩
  | .bset r _ _ => ⟨false, r.offset, 64, 0⟩

/-- Where the host goes after statement `pc`, once its access has been performed in `s` (R119: `bset` goes to its label if
the bit of the value just read is 1). -/
def HostStatement.next (pc : Nat) (s : State) : HostStatement → Nat
  | .wr _ _ => pc + 1
  | .rd _ => pc + 1
  | .bset _ bit label => if (s.reads.headD 0).getLsbD bit then label else pc + 1

/-- One step of the host at statement `pc`: its access is the machine's next move. -/
def hostStep (program : List HostStatement) (pc : Nat) (s : State) : Option (Nat × Host.Outcome State Fault Refusal) :=
  match program[pc]? with
  | none => none
  | some h =>
    match step { s with agenda := .access h.access :: s.agenda } with
    | .next s' => some (h.next pc s', .next s')
    | .fault f => some (pc, .fault f)
    | .refused r => some (pc, .refused r)

/-- The pseudo-instructions of R120. -/
inductive Pseudo where
  | nop
  | start256
  | start512
  | wait
  | getlen
  | getdigest
  | hash256
  | hash512
  deriving DecidableEq, Repr

/-- The expansion of a pseudo-instruction whose first statement has index `pc` (R120). -/
def Pseudo.expand (pc : Nat) : Pseudo → List HostStatement
  | .nop => [.wr .cmd 0x0000000000000000]
  | .start256 => [.wr .cmd 0x0000000000000001]
  | .start512 => [.wr .cmd 0x0000000000000011]
  | .wait => [.bset .status 0 pc]
  | .getlen => [.rd .lenLo, .rd .lenHi]
  | .getdigest => (List.finRange 8).map fun i => .rd (.digest i)
  | .hash256 => [.wr .cmd 0x0000000000000001, .bset .status 0 (pc + 1)] ++ (List.finRange 8).map fun i => .rd (.digest i)
  | .hash512 => [.wr .cmd 0x0000000000000011, .bset .status 0 (pc + 1)] ++ (List.finRange 8).map fun i => .rd (.digest i)

end Sys2Proof.Machine
end

