-- ==== Sys2Proof/Tests/Slice0.lean ====
section
/-! SUPPORT. The model's own tests: ill-formed terms, words written out from spec/30_encoding.md, single steps with the
results that spec/95_test_vectors.md gives, and one witness for the hypotheses of each statement. -/

namespace Sys2Proof.Tests

open Sys2Proof Sys2Proof.Machine

/-! ### Helpers -/

/-- The next state of an outcome. -/
def nextOf : Host.Outcome State Fault Refusal → Option State
  | .next s => some s
  | _ => none

/-- What STATUS reads after an outcome. -/
def statusAfter (o : Host.Outcome State Fault Refusal) : Option Word :=
  (nextOf o).map statusWord

/-- A computation in flight at a phase and index. -/
def inFlight (v : Variant) (phase : BitVec 4) (t : BitVec 7) : State :=
  { beginComputation v State.reset with phase := phase, t := t }

/-- Eight stored words. -/
def words8 (xs : List Word) : Vector Word 8 :=
  Vector.ofFn fun i => xs.getD i.val 0

/-- A schedule with some words set. -/
def scheduleWith (xs : List (Nat × Word)) : Vector Word 80 :=
  xs.foldl (fun W x => W.setIfInBounds x.1 x.2) (Vector.replicate 80 0)

/-- A block buffer with these bytes from index 0 on. -/
def bufferOf (bytes : List Byte) : Memory :=
  Memory.writeList [] 0 bytes

/-- The end of the input with no failure: these bytes, then no more. -/
def lastAnswer (bytes : List Byte) : SrcResponse :=
  ⟨bytes.length, bytes, true, false⟩

/-- The message "abc". -/
def abc : List Byte := [0x61, 0x62, 0x63]

/-- The padded block of "abc" (V-PAD-2). -/
def abcBlock (v : Variant) : List Byte :=
  abc ++ 0x80 :: List.replicate (v.blockBytes - 5) 0x00 ++ [0x18]

/-- The IV of SHA-256 as stored words (R42). -/
def iv256 : List Word :=
  [0x6a09e667, 0xbb67ae85, 0x3c6ef372, 0xa54ff53a, 0x510e527f, 0x9b05688c, 0x1f83d9ab, 0x5be0cd19]

/-- The IV of SHA-512 (R43). -/
def iv512 : List Word :=
  [0x6a09e667f3bcc908, 0xbb67ae8584caa73b, 0x3c6ef372fe94f82b, 0xa54ff53a5f1d36f1,
   0x510e527fade682d1, 0x9b05688c2b3e6c1f, 0x1f83d9abfb41bd6b, 0x5be0cd19137e2179]

/-- The working variables of SHA-256 "abc" after round 0 (V-RD-1). -/
def abcRound0 : List Word :=
  [0x5d6aebcd, 0x6a09e667, 0xbb67ae85, 0x3c6ef372, 0xfa2a4622, 0x510e527f, 0x9b05688c, 0x1f83d9ab]

/-- The working variables of SHA-256 "abc" after round 63 (V-RD-1). -/
def abcRound63 : List Word :=
  [0x506e3058, 0xd39a2165, 0x04d24d6c, 0xb85e2ce9, 0x5ef50f24, 0xfb121210, 0x948d25b6, 0x961f4894]

/-- The SHA-256 digest of "abc" (KAT-2). -/
def abcDigest : List Word :=
  [0xba7816bf, 0x8f01cfea, 0x414140de, 0x5dae2223, 0xb00361a3, 0x96177a9c, 0xb410ff61, 0xf20015ad]

/-- The state after SHA-256 of "abc" (P1): STATUS 0x030000c2, the digest and a length of 24 bits. -/
def abcDone : State :=
  { State.reset with
    done := true, pstate := .done, eoiSeen := true, cnt := 3, len := 24, H := words8 abcDigest,
    blk := bufferOf (abcBlock .sha256) }

/-- An accepted START of SHA-256 whose source will give "abc". -/
def filling : State :=
  { beginComputation .sha256 State.reset with source := [lastAnswer abc] }

/-! ### Ill-formed terms are refused -/

theorem test_wf_reject_legal_word : (Instr.reject 0x11).wf = false := by decide
theorem test_wf_rd_misaligned : (Instr.rd 0x04).wf = false := by decide
theorem test_wf_wr_misaligned : (Instr.wr 0x0c 0).wf = false := by decide
theorem test_wf_wr_cmd : (Instr.wr 0x00 1).wf = false := by decide
theorem test_exec_rd_misaligned : exec (.rd 0x04) State.reset = .refused (.accessMisaligned 0x04) := rfl
theorem test_exec_wr_misaligned : exec (.wr 0x0c 0) State.reset = .refused (.accessMisaligned 0x0c) := rfl

/-! ### Decoding of written-out words, field by field from R111, R115, R116 -/

/-- RSV = 0 (59 bits), V = 0, OP = 0. -/
theorem test_decode_nop : decode (.cmd ((0b0 : BitVec 59) ++ (0b0 : BitVec 1) ++ (0b0000 : BitVec 4))) = .ok .nop := rfl
/-- RSV = 0, V = 0, OP = 1. -/
theorem test_decode_start256 :
    decode (.cmd ((0b0 : BitVec 59) ++ (0b0 : BitVec 1) ++ (0b0001 : BitVec 4))) = .ok (.start .sha256) := rfl
/-- RSV = 0, V = 1, OP = 1. -/
theorem test_decode_start512 :
    decode (.cmd ((0b0 : BitVec 59) ++ (0b1 : BitVec 1) ++ (0b0001 : BitVec 4))) = .ok (.start .sha512) := rfl
/-- The rejected words of V-CMD-1: V without OP, OP = 2, OP = 15, and a reserved bit (5, 8, 63) set. -/
theorem test_decode_reject :
    [0x10, 0x2, 0xf, 0x20, 0x21, 0x101, 0x8000000000000001].map decodeCmd =
      [.reject 0x10, .reject 0x2, .reject 0xf, .reject 0x20, .reject 0x21, .reject 0x101, .reject 0x8000000000000001] := by
  decide
/-- `R 78`: dir = 0, off = 0111_1000. -/
theorem test_decode_rd : decode (.bus ((0b0 : BitVec 1) ++ (0b01111000 : BitVec 8)) 0) = .ok (.rd 0x78) := rfl
/-- `W 00 0000000000000011`: dir = 1, off = 0. -/
theorem test_decode_wrCmd :
    decode (.bus ((0b1 : BitVec 1) ++ (0b00000000 : BitVec 8)) 0x11) = .ok (.wrCmd 0x11) := rfl
/-- `W 40 5`: dir = 1, off = 0100_0000. -/
theorem test_decode_wr : decode (.bus ((0b1 : BitVec 1) ++ (0b01000000 : BitVec 8)) 5) = .ok (.wr 0x40 5) := rfl
/-- `R 04` is misaligned (V-BUS-5). -/
theorem test_decode_misaligned :
    decode (.bus ((0b0 : BitVec 1) ++ (0b00000100 : BitVec 8)) 0) = .error (.misaligned 0x04) := rfl
/-- The ten phase codes. -/
theorem test_decode_phases :
    [0b0000, 0b0001, 0b0010, 0b0011, 0b0100, 0b0101, 0b0110, 0b0111, 0b1000, 0b1001].map (fun c => decode (.phase c)) =
      [.ok .idle, .ok .fill, .ok .pad, .ok .padblk, .ok .extract, .ok .sched, .ok .initwv, .ok .round, .ok .accum,
       .ok .finish] := rfl
theorem test_decode_phase_reserved : decode (.phase 0b1111) = .error (.reservedPhase 15) := rfl

/-- The opcode table's words: the cmd rows in 64 bits, the bus rows in 16, the phase rows in 8. -/
theorem test_table_words :
    decodeTableWord 64 0x0 = some .nop ∧ decodeTableWord 64 0x1 = some (.start .sha256) ∧
    decodeTableWord 64 0x11 = some (.start .sha512) ∧ decodeTableWord 64 0x10 = some (.reject 0x10) ∧
    decodeTableWord 16 0x048 = some (.rd 0x48) ∧ decodeTableWord 16 0x100 = some (.wrCmd 0) ∧
    decodeTableWord 16 0x108 = some (.wr 0x08 0) ∧ decodeTableWord 16 0x004 = none ∧
    (List.range 11).map (decodeTableWord 8) = [some .idle, some .fill, some .pad, some .padblk, some .extract, some .sched,
      some .initwv, some .round, some .accum, some .finish, none] := by decide
/-- A bus access with its data word, and bits that its access word does not have. -/
theorem test_table_bus_data :
    decodeTableWord 80 (0x11 * 2 ^ 16 + 0x100) = some (.wrCmd 0x11) ∧ decodeTableWord 16 0x0200 = none ∧
    decodeTableWord 8 0x10 = none := by decide
/-- The next step after withFetchWord runs the word's instruction: SCHED at its entry index, INITWV, and a START. -/
theorem test_withFetchWord :
    statusAfter (step (State.reset.withFetchWord 8 5)) = some 0x00115001 ∧
    statusAfter (step (State.reset.withFetchWord 8 6)) = some 0x00007001 ∧
    statusAfter (step (State.reset.withFetchWord 64 0x11)) = some 0x00001011 ∧
    statusAfter (step (State.reset.withFetchWord 16 0x108)) = some 0 := by decide +kernel

/-! ### Word functions (V-FN-1 to V-FN-5) -/

theorem test_sigma256 :
    smallSigma0 .sha256 0x6a09e667 = 0xba0cf582 ∧ smallSigma1 .sha256 0x6a09e667 = 0xcfe5da3c ∧
    bigSigma0 .sha256 0x6a09e667 = 0xce20b47e ∧ bigSigma1 .sha256 0x6a09e667 = 0x55b65510 ∧
    smallSigma0 .sha256 0x80000000 = 0x11002000 ∧ smallSigma1 .sha256 0xffffffff = 0x003fffff := by decide +kernel
theorem test_sigma512 :
    smallSigma0 .sha512 0x0123456789abcdef = 0x6f92c77c6c4f1aa1 ∧
    smallSigma1 .sha512 0x0123456789abcdef = 0x70a3460dbbd4317a ∧
    bigSigma0 .sha512 0x0123456789abcdef = 0xb7c57a100c7ec1ab ∧
    bigSigma1 .sha512 0x0123456789abcdef = 0x7703112333475567 := by decide +kernel
theorem test_ch_maj :
    ch (0x510e527f : BitVec 32) 0x9b05688c 0x1f83d9ab = 0x1f85c98c ∧
    maj (0x6a09e667 : BitVec 32) 0xbb67ae85 0x3c6ef372 = 0x3a6fe667 ∧
    ch (0x510e527fade682d1 : BitVec 64) 0x9b05688c2b3e6c1f 0x1f83d9abfb41bd6b = 0x1f85c98c7b273d3b ∧
    maj (0x6a09e667f3bcc908 : BitVec 64) 0xbb67ae8584caa73b 0x3c6ef372fe94f82b = 0x3a6fe667f69ce92b := by decide +kernel
theorem test_shifts :
    rotr (0x00000001 : BitVec 32) 1 = 0x80000000 ∧ shr (0x80000000 : BitVec 32) 31 = 0x00000001 := by decide
/-- The ends, lengths and row labels of the constant tables (R40 to R43), and the prefix property that R41 states. -/
theorem test_rom :
    K256Table.labelled = true ∧ K512Table.labelled = true ∧
    romK .sha256 0 = 0x428a2f98 ∧ romK .sha256 63 = 0xc67178f2 ∧ romK .sha512 0 = 0x428a2f98d728ae22 ∧
    romK .sha512 79 = 0x6c44198c4a475817 ∧ romIV .sha256 7 = 0x5be0cd19 ∧ romIV .sha512 7 = 0x5be0cd19137e2179 ∧
    K256.length = 64 ∧ K512.length = 80 ∧ IV256.length = 8 ∧ IV512.length = 8 ∧
    (K512.take 64).map (·.extractLsb' 32 32) = K256 := by decide +kernel

/-! ### The host's instructions -/

/-- V-CMD-1, V-CMD-3. -/
theorem test_nop : statusAfter (exec .nop abcDone) = some 0x030000c2 := by decide +kernel
/-- V-CMD-1: STATUS after each START. -/
theorem test_start_status :
    statusAfter (exec (.start .sha256) abcDone) = some 0x1001 ∧
    statusAfter (exec (.start .sha512) State.reset) = some 0x1011 := by decide +kernel
/-- R231: the digest starts from the IV. -/
theorem test_start_iv :
    (nextOf (exec (.start .sha256) State.reset)).map (·.H) = some (words8 iv256) ∧
    (nextOf (exec (.start .sha512) State.reset)).map (·.H) = some (words8 iv512) := by decide +kernel
/-- V-CMD-1. -/
theorem test_reject : statusAfter (exec (.reject 0x10) State.reset) = some 0x8 := by decide +kernel
/-- V-BUS-1, V-BUS-3: DIGEST0, LEN_LO, STATUS, CMD, a reserved offset. -/
theorem test_rd :
    [0x40, 0x78, 0x10, 0x18, 0x08, 0x00, 0x20, 0x80].map (fun off => (nextOf (exec (.rd off) abcDone)).map (·.reads)) =
      [some [0xba7816bf], some [0xf20015ad], some [0x18], some [0], some [0x030000c2], some [0], some [0], some [0]] := by
  decide +kernel
/-- V-BUS-6: while `done = 0` each DIGEST read is a new draw. -/
theorem test_rd_any :
    (nextOf (exec (.rd 0x40) { inFlight .sha256 1 0 with draws := 6 })).map (fun t => (t.reads, t.draws)) =
      some ([Config.anyRead 6], 7) := rfl
/-- V-CMD-2: a START while busy is rejected, and the computation goes on. -/
theorem test_wrCmd : statusAfter (exec (.wrCmd 0x11) (inFlight .sha256 1 0)) = some 0x1009 := by decide +kernel
/-- V-BUS-4. -/
theorem test_wr :
    statusAfter (exec (.wr 0x08 0xffffffffffffffff) abcDone) = some 0x030000c2 ∧
    (nextOf (exec (.wr 0x40 0) abcDone)).map (·.H) = some (words8 abcDigest) := by decide +kernel

/-! ### The engine's micro-operations -/

theorem test_idle : statusAfter (exec .idle abcDone) = some 0x030000c2 := by decide +kernel
/-- V-PAD-1: STATUS, the bytes, `len`, and the request. -/
theorem test_fill :
    (nextOf (exec .fill { inFlight .sha256 1 0 with source := [lastAnswer abc] })).map
      (fun t => (statusWord t, Memory.readList t.blk 0 3, t.len, t.requests)) =
      some (0x03002081, abc, 24, [64]) := by decide +kernel
/-- V-ERR-3, V-ERR-4, V-ERR-5, V-ERR-6 and V-ERR-1. -/
theorem test_fill_errors :
    statusAfter (exec .fill { inFlight .sha256 1 0 with len := 2 ^ 64 - 16, source := [⟨2, [1, 2], false, false⟩] }) =
      some 0x204 ∧
    statusAfter (exec .fill { inFlight .sha256 1 0 with len := 2 ^ 64 - 16, source := [⟨1, [1], false, false⟩] }) =
      some 0x01001001 ∧
    statusAfter (exec .fill { inFlight .sha512 1 0 with len := -8, source := [⟨1, [1], false, false⟩] }) = some 0x214 ∧
    statusAfter (exec .fill { inFlight .sha256 1 0 with len := 2 ^ 64 - 16, source := [⟨2, [], false, true⟩] }) =
      some 0x104 ∧
    statusAfter (exec .fill { inFlight .sha512 1 0 with source := [⟨0, [], false, true⟩] }) = some 0x114 := by
  decide +kernel
/-- V-PAD-2: FINAL with 3 and with 55 data bytes (SHA-256), and with 111 (SHA-512). -/
theorem test_pad_final :
    (nextOf (exec .pad { inFlight .sha256 2 0 with cnt := 3, len := 24, blk := bufferOf abc })).map
      (fun t => (Memory.readList t.blk 0 64, t.pstate)) = some (abcBlock .sha256, .done) ∧
    (nextOf (exec .pad { inFlight .sha256 2 0 with cnt := 55, len := 440 })).map
      (fun t => Memory.readList t.blk 55 9) = some [0x80, 0, 0, 0, 0, 0, 0, 0x01, 0xb8] ∧
    (nextOf (exec .pad { inFlight .sha512 2 0 with cnt := 111, len := 888 })).map
      (fun t => Memory.readList t.blk 111 17) = some (0x80 :: List.replicate 14 0x00 ++ [0x03, 0x78]) := by decide +kernel
/-- V-PAD-3, V-PAD-4: SPILL with 56 data bytes over a stale block, and FULL. -/
theorem test_pad_spill_full :
    (nextOf (exec .pad { inFlight .sha256 2 0 with cnt := 56, len := 448, blk := bufferOf (List.replicate 64 0x61) })).map
      (fun t => (Memory.readList t.blk 55 9, t.pstate)) = some ([0x61, 0x80, 0, 0, 0, 0, 0, 0, 0], .padPending) ∧
    (nextOf (exec .pad { inFlight .sha256 2 0 with cnt := 64, len := 512, blk := bufferOf (List.replicate 64 0x61) })).map
      (fun t => (t.blk, t.pstate, t.phase)) = some (bufferOf (List.replicate 64 0x61), .reading, 4) := by decide +kernel
/-- V-PAD-3: the length-only block. -/
theorem test_padblk :
    (nextOf (exec .padblk { inFlight .sha256 3 0 with
        pstate := .padPending, cnt := 56, len := 448, blk := bufferOf (List.replicate 64 0x61) })).map
      (fun t => (Memory.readList t.blk 0 64, t.pstate, t.cnt)) =
      some (List.replicate 62 0x00 ++ [0x01, 0xc0], .done, 56) := by decide +kernel
/-- V-EX-1, V-EX-3: words 0, 1 and 15. -/
theorem test_extract :
    (nextOf (exec .extract { inFlight .sha256 4 0 with blk := bufferOf (abcBlock .sha256) })).map
      (fun t => (t.W[0], t.W[1], t.W[15], t.t, t.phase)) = some (0x61626380, 0, 0x18, 16, 5) ∧
    (nextOf (exec .extract { inFlight .sha512 4 0 with blk := bufferOf (abcBlock .sha512) })).map
      (fun t => (t.W[0], t.W[1], t.W[15])) = some (0x6162638000000000, 0, 0x18) := by decide +kernel
/-- V-EX-2: the first byte of a word is the most significant. -/
theorem test_extract_order :
    (nextOf (exec .extract { inFlight .sha256 4 0 with
        blk := bufferOf ((List.range 64).map (BitVec.ofNat 8)) })).map (fun t => (t.W[0], t.W[1], t.W[15])) =
      some (0x00010203, 0x04050607, 0x3c3d3e3f) := by decide +kernel
/-- V-SC-1: `W[16]` and `W[17]` of SHA-256 "abc". -/
theorem test_sched256 :
    (nextOf (exec .sched { inFlight .sha256 5 16 with W := scheduleWith [(0, 0x61626380), (15, 0x18)] })).map
      (fun t => (t.W[16], t.t, t.phase)) = some (0x61626380, 17, 5) ∧
    (nextOf (exec .sched { inFlight .sha256 5 17 with W := scheduleWith [(0, 0x61626380), (15, 0x18)] })).map
      (fun t => t.W[17]) = some 0x000f0000 := by decide +kernel
/-- V-SC-6: `W[17]` of SHA-512 "abc"; the last index ends the schedule (R186). -/
theorem test_sched512 :
    (nextOf (exec .sched { inFlight .sha512 5 17 with W := scheduleWith [(0, 0x6162638000000000), (15, 0x18)] })).map
      (fun t => t.W[17]) = some 0x00030000000000c0 ∧
    (nextOf (exec .sched (inFlight .sha512 5 79))).map (fun t => (t.t, t.phase)) = some (0, 6) := by decide +kernel
/-- V-RD-1, V-STAT-1 (step 52). -/
theorem test_initwv :
    (nextOf (exec .initwv (inFlight .sha256 6 0))).map (fun t => (t.wv, t.t, t.phase)) = some (words8 iv256, 0, 7) := by
  decide +kernel
/-- V-RD-1: rounds 0 and 1 of SHA-256 "abc". -/
theorem test_round256 :
    (nextOf (exec .round { inFlight .sha256 7 0 with wv := words8 iv256, W := scheduleWith [(0, 0x61626380)] })).map
      (fun t => (t.wv, t.t, t.phase)) = some (words8 abcRound0, 1, 7) ∧
    (nextOf (exec .round { inFlight .sha256 7 1 with wv := words8 abcRound0, W := scheduleWith [(0, 0x61626380)] })).map
      (fun t => t.wv) = some (words8 [0x5a6ad9ad, 0x5d6aebcd, 0x6a09e667, 0xbb67ae85, 0x78ce7989, 0xfa2a4622, 0x510e527f,
        0x9b05688c]) := by decide +kernel
/-- V-RD-3: round 0 of SHA-512 "abc"; the last round ends the rounds (R208). -/
theorem test_round512 :
    (nextOf (exec .round { inFlight .sha512 7 0 with wv := words8 iv512, W := scheduleWith [(0, 0x6162638000000000)] })).map
      (fun t => (t.wv[0], t.wv[4])) = some (0xf6afceb8bcfcddf5, 0x58cb02347ab51f91) ∧
    (nextOf (exec .round (inFlight .sha512 7 79))).map (fun t => (t.t, t.phase)) = some (0, 8) := by decide +kernel
/-- V-RD-1: the digest of "abc", and FINISH next. -/
theorem test_accum :
    (nextOf (exec .accum { inFlight .sha256 8 0 with wv := words8 abcRound63, pstate := .done })).map
      (fun t => (t.H, t.phase)) = some (words8 abcDigest, 9) := by decide +kernel
/-- R209, R161: a full block goes back to FILL with `cnt = 0`; a spilled one goes to PADBLK. -/
theorem test_accum_next :
    (nextOf (exec .accum { inFlight .sha256 8 0 with cnt := 64 })).map (fun t => (t.cnt, t.phase)) = some (0, 1) ∧
    (nextOf (exec .accum { inFlight .sha256 8 0 with cnt := 56, pstate := .padPending })).map
      (fun t => (t.cnt, t.phase)) = some (56, 3) := by decide +kernel
/-- V-STAT-1: steps 117 and 118. -/
theorem test_finish :
    statusAfter (exec .finish { inFlight .sha256 9 0 with pstate := .done, eoiSeen := true, cnt := 3 }) =
      some 0x030000c2 := by decide +kernel

/-! ### Steps and whole functions -/

/-- V-CMD-4: STATUS after reset, at reset and after a reset during a computation. -/
theorem test_reset :
    statusWord State.reset = 0 ∧ statusAfter (step { inFlight .sha512 7 9 with agenda := [.reset] }) = some 0 := by
  constructor <;> decide +kernel
/-- R289: an empty answer of an endless source leaves the engine in FILL, and the next one is as near. -/
theorem test_endless_source :
    (nextOf (step { filling with source := [], sourceAfter := some ⟨0, [], false, false⟩ })).map
      (fun t => (statusWord t, engineEnabled t, t.requests)) = some (0x1001, true, [64]) := by decide +kernel
/-- R90: a host that polls STATUS without end, in turn with the engine. -/
theorem test_endless_polling :
    (nextOf (step { abcDone with agendaAfter := [.access ⟨false, 0x08, 64, 0⟩] })).map
      (fun t => (t.reads, t.agenda, t.agendaAfter)) =
      some ([0x030000c2], [.engine], [.access ⟨false, 0x08, 64, 0⟩]) := by decide +kernel
/-- The host's notation (R119, R120): `start512` is `W 00 11`, `rd DIGEST7` is `R 78`. -/
theorem test_notation :
    (Pseudo.expand 0 .start512).map HostStatement.access = [⟨true, 0x00, 64, 0x11⟩] ∧
    (Pseudo.expand 0 .hash256).length = 10 ∧
    (HostStatement.rd (.digest 7)).access = ⟨false, 0x78, 64, 0⟩ := by decide
/-- `wait` reads STATUS again while BUSY = 1, and goes on when it is 0 (R120). -/
theorem test_wait :
    (hostStep (Pseudo.expand 0 .wait) 0 (inFlight .sha256 1 0)).map Prod.fst = some 0 ∧
    (hostStep (Pseudo.expand 0 .wait) 0 abcDone).map Prod.fst = some 1 := by decide +kernel
/-- V-PAD-5: block counts. -/
theorem test_blockCount :
    [0, 55, 56, 64, 119, 120, 128].map (blockCount .sha256) = [1, 1, 2, 2, 2, 3, 3] ∧
    [0, 111, 112, 128, 239, 240].map (blockCount .sha512) = [1, 1, 2, 2, 2, 3] := by decide
/-- V-SEQ-1, V-SEQ-2: step counts. -/
theorem test_stepCount :
    stepCount .sha256 [lastAnswer abc] = 118 ∧ stepCount .sha512 [lastAnswer abc] = 150 ∧
    stepCount .sha256 [⟨2, [0x61, 0x62], false, false⟩, ⟨0, [], false, false⟩, lastAnswer [0x63]] = 120 ∧
    stepCount .sha256 [lastAnswer (List.replicate 64 0x61)] = 235 := by decide +kernel
/-- R50: the byte form of a digest. -/
theorem test_digestBytes :
    ((digestBytes .sha256 ((words8 abcDigest).map (lo .sha256))).take 5, (digestBytes .sha512 (words8 iv512)).length) =
      ([0xba, 0x78, 0x16, 0xbf, 0x8f], 64) := by decide +kernel

/-! ### Witnesses: the hypotheses of each statement are met together

A clause over a range is met at the ends of the range. -/

/-- A state of the invariant with a computation in flight. -/
theorem witness_inv : filling.Inv where
  control := ⟨by decide, by decide, by decide, by decide, by decide, by decide⟩
  index := ⟨by decide, by decide, by decide⟩
  padding := ⟨by decide, by decide, by decide, by decide, by decide, by decide, by decide, by decide⟩
  buffer := ⟨by decide, by decide⟩
  length := ⟨by decide, by decide⟩
  words := ⟨by decide +kernel, by decide, by decide, by decide⟩

/-- The same before its source has answered. -/
theorem witness_inv_waiting : { filling with source := [] }.Inv where
  control := ⟨by decide, by decide, by decide, by decide, by decide, by decide⟩
  index := ⟨by decide, by decide, by decide⟩
  padding := ⟨by decide, by decide, by decide, by decide, by decide, by decide, by decide, by decide⟩
  buffer := ⟨by decide, by decide⟩
  length := ⟨by decide, by decide⟩
  words := ⟨by decide +kernel, by decide, by decide, by decide⟩

theorem witness_DecodeOfEncodeIsIdentity :
    (Instr.start .sha512).wf = true ∧ (Instr.reject 0x10).wf = true ∧ (Instr.reject (BitVec.allOnes 64)).wf = true ∧
    (Instr.rd 0x00).wf = true ∧ (Instr.rd 0xf8).wf = true ∧ (Instr.wr 0x08 5).wf = true ∧
    (Instr.wr 0xf8 5).wf = true := by decide
theorem witness_EncodeOfDecodeIsIdentity : decode (.bus 0x048 7) = .ok (.rd 0x48) ∧ decode (.phase 9) = .ok .finish :=
  ⟨rfl, rfl⟩
theorem witness_BusDecoderFollowsItsRows :
    (0x000 : BitVec 9) &&& 0x107 = 0x000 ∧ (0x0f8 : BitVec 9) &&& 0x107 = 0x000 ∧ (0x100 : BitVec 9) &&& 0x1FF = 0x100 ∧
    ((0x108 : BitVec 9) &&& 0x107 = 0x100 ∧ (0x108 : BitVec 9) &&& 0x1FF ≠ 0x100) ∧
    ((0x1f8 : BitVec 9) &&& 0x107 = 0x100 ∧ (0x1f8 : BitVec 9) &&& 0x1FF ≠ 0x100) ∧
    ((0x001 : BitVec 9) &&& 0x107 ≠ 0x000 ∧ (0x001 : BitVec 9) &&& 0x107 ≠ 0x100) ∧
    ((0x1ff : BitVec 9) &&& 0x107 ≠ 0x000 ∧ (0x1ff : BitVec 9) &&& 0x107 ≠ 0x100) := by decide
/-- The ways in which a move is next: it stands first, it starts over, and the engine's turn after the moves that do. -/
theorem witness_StepRunsTheDecodedPhase :
    engineTurn filling [] ∧ engineTurn { filling with agenda := [.engine, .reset] } [.reset] ∧
    engineTurn { filling with agendaAfter := [.engine, .reset] } [.reset, .engine] ∧ filling.busy = true ∧
    decode (.phase filling.phase) = .ok .fill := ⟨by decide, by decide, by decide, rfl, rfl⟩
theorem witness_StepRunsTheDecodedAccess :
    (∃ s : State, moveNext s (.access ⟨false, 0xf8, 64, 0⟩) []) ∧
    (∃ s : State, ∃ b : BusAccess, moveNext s (.platform (Config.regBase + 0xf8) b) [] ∧
      (⟨false, 0xf8, 64, 0⟩ : BusAccess) = { b with off := 0xf8 }) ∧
    0xf8 < 256 ∧ decode (.bus (BitVec.ofBool false ++ BitVec.ofNat 8 0xf8) 0) = .ok (.rd 0xf8) :=
  ⟨⟨{ filling with agenda := [.access ⟨false, 0xf8, 64, 0⟩] }, .inl rfl⟩,
   ⟨{ filling with agenda := [.platform (Config.regBase + 0xf8) ⟨false, 0, 64, 0⟩] }, _, .inl rfl, rfl⟩, by decide, rfl⟩
theorem witness_StepRunsTheDecodedCommand : moveNext { filling with agenda := [.command 0x11] } (.command 0x11) [] := .inl rfl
theorem witness_ReservedPhaseFaults :
    engineTurn { filling with phase := 10 } [] ∧ { filling with phase := 10 }.busy = true ∧
    step { filling with phase := 10 } = .fault (.reservedPhase 10) ∧
    engineTurn { filling with phase := 9 } [] ∧ (nextOf (step { filling with phase := 9 })).isSome = true :=
  ⟨by decide, rfl, rfl, by decide, rfl⟩
theorem witness_EngineStepsExactlyWhenEnabled :
    (engineTurn filling [] ∧ filling.Inv ∧ engineEnabled filling = true) ∧
    (engineTurn { filling with source := [] } [] ∧ { filling with source := [] }.Inv ∧
      engineEnabled { filling with source := [] } = false) :=
  ⟨⟨by decide, witness_inv, rfl⟩, by decide, witness_inv_waiting, rfl⟩
/-- The ends of the window, and one access beyond each limit. -/
theorem witness_IllegalAccessIsRefused :
    (∃ s : State, moveNext s (.access ⟨true, 0xf8, 64, 0⟩) [] ∧ (nextOf (step s)).isSome = true) ∧
    (∃ s : State, moveNext s (.access ⟨true, 0x00, 32, 0⟩) [] ∧ step s = .refused (.accessWidth 32)) ∧
    (∃ s : State, moveNext s (.access ⟨false, 0x04, 64, 0⟩) [] ∧ step s = .refused (.accessMisaligned 0x04)) ∧
    (∃ s : State, moveNext s (.access ⟨false, 0x100, 64, 0⟩) [] ∧ step s = .refused .accessOutsideWindow) :=
  ⟨⟨{ filling with agenda := [.access ⟨true, 0xf8, 64, 0⟩] }, .inl rfl, rfl⟩,
   ⟨{ filling with agenda := [.access ⟨true, 0x00, 32, 0⟩] }, .inl rfl, rfl⟩,
   ⟨{ filling with agenda := [.access ⟨false, 0x04, 64, 0⟩] }, .inl rfl, rfl⟩,
   ⟨{ filling with agenda := [.access ⟨false, 0x100, 64, 0⟩] }, .inl rfl, rfl⟩⟩
/-- The window's first and last offsets, and the first address after it. (REG_BASE has no known value, so no address is
known to lie before it.) -/
theorem witness_PlatformAddressReachesItsOffset :
    (∃ s : State, moveNext s (.platform (Config.regBase + 0) ⟨false, 0, 64, 0⟩) []) ∧ 0 < 256 ∧
    (∃ s : State, moveNext s (.platform (Config.regBase + 255) ⟨false, 0, 64, 0⟩) []) ∧ 255 < 256 ∧
    (∃ s : State, moveNext s (.platform (Config.regBase + 256) ⟨false, 0, 64, 0⟩) []) ∧
    Config.regBase + 256 ≤ Config.regBase + 256 :=
  ⟨⟨{ filling with agenda := [.platform (Config.regBase + 0) ⟨false, 0, 64, 0⟩] }, .inl rfl⟩, by decide,
   ⟨{ filling with agenda := [.platform (Config.regBase + 255) ⟨false, 0, 64, 0⟩] }, .inl rfl⟩, by decide,
   ⟨{ filling with agenda := [.platform (Config.regBase + 256) ⟨false, 0, 64, 0⟩] }, .inl rfl⟩, Nat.le_refl _⟩
theorem witness_StartBeginsAComputation : State.reset.busy = false ∧ filling.busy = true := by decide
/-- A rejection flag that an accepted START clears, and one that reset clears. -/
theorem witness_RejectionIsStickyAndAlone :
    (∃ t, { abcDone with cmdRej := true, agenda := [.command 0x1] }.cmdRej = true ∧
      step { abcDone with cmdRej := true, agenda := [.command 0x1] } = .next t ∧ t.cmdRej = false) ∧
    (∃ t, { abcDone with cmdRej := true, agenda := [.reset] }.cmdRej = true ∧
      step { abcDone with cmdRej := true, agenda := [.reset] } = .next t ∧ t.cmdRej = false) :=
  ⟨⟨_, rfl, rfl, rfl⟩, _, rfl, rfl, rfl⟩
/-- The smallest values of each cause of rejection, a rejected START, and NOP. -/
theorem witness_CommandRejectionCauses :
    2 ≤ ((0x2 : Word).extractLsb' 0 4).toNat ∧ 2 ≤ ((0xf : Word).extractLsb' 0 4).toNat ∧
    (0x20 : Word).extractLsb' 5 59 ≠ 0 ∧ (0x8000000000000001 : Word).extractLsb' 5 59 ≠ 0 ∧
    ((0x10 : Word).getLsbD 4 = true ∧ (0x10 : Word).extractLsb' 0 4 = 0) ∧ filling.busy = true ∧
    filling.cmdRej = false ∧ (nextOf (exec (.wrCmd 0x1) filling)).map (·.cmdRej) = some true ∧
    (nextOf (exec (.wrCmd 0x2) State.reset)).map (·.cmdRej) = some true := by decide +kernel
theorem witness_CmdWritePerformsItsCommand :
    decodeCmd 0x0 = .nop ∧ decodeCmd 0x1 = .start .sha256 ∧ decodeCmd 0x11 = .start .sha512 ∧
    decodeCmd 0x10 = .reject 0x10 ∧ decodeCmd 0x8000000000000001 = .reject 0x8000000000000001 ∧
    abcDone.busy = false ∧ filling.busy = true := by decide
/-- Each register's offsets, at the ends of each range. -/
theorem witness_RegisterReadsReturnTheirValue :
    abcDone.done = true ∧ filling.done = false ∧
    (∀ off ∈ [0x00, 0x08, 0x10, 0x18, 0x20, 0x38, 0x40, 0x78, 0x80, (0xf8 : BitVec 8)], off &&& 7 = 0) ∧
    (0x40 : BitVec 8).toNat = 0x40 + 8 * (0 : Fin 8).val ∧ (0x78 : BitVec 8).toNat = 0x40 + 8 * (7 : Fin 8).val ∧
    (0x20 ≤ (0x20 : BitVec 8).toNat ∧ (0x38 : BitVec 8).toNat < 0x40) ∧ 0x80 ≤ (0x80 : BitVec 8).toNat ∧
    0x80 ≤ (0xf8 : BitVec 8).toNat ∧ (0x01 : BitVec 8) &&& 7 ≠ 0 ∧ (0xff : BitVec 8) &&& 7 ≠ 0 := by decide
theorem witness_WritesElsewhereChangeNothing :
    ((0x08 : BitVec 8) &&& 7 = 0 ∧ (0x08 : BitVec 8) ≠ 0) ∧ ((0xf8 : BitVec 8) &&& 7 = 0 ∧ (0xf8 : BitVec 8) ≠ 0) := by decide
theorem witness_RepeatedReadsAgree : (0x78 : BitVec 8) &&& 7 = 0 ∧ abcDone.done = true ∧ (0x08 : BitVec 8) &&& 7 = 0 := by
  decide
/-- FILL's cases: the latched end; an answer from either field, and none; a failure; an overflow by exactly one bit pattern; the largest length; a full request. -/
theorem witness_FillFollowsItsRule :
    { filling with eoiSeen := true }.eoiSeen = true ∧
    (filling.eoiSeen = false ∧ filling.cnt.toNat < filling.var.blockBytes ∧ answerNext filling (lastAnswer abc) []) ∧
    answerNext { filling with source := [], sourceAfter := some (lastAnswer abc) } (lastAnswer abc) [] ∧
    ({ filling with source := [] }.source = [] ∧ { filling with source := [] }.sourceAfter = none) ∧
    (⟨0, [], false, true⟩ : SrcResponse).fail = true ∧
    (2 ^ Variant.lengthBits .sha256 ≤ (2 ^ 64 - 16 : BitVec 128).toNat + 8 * 2) ∧
    ((2 ^ 64 - 16 : BitVec 128).toNat + 8 * 1 < 2 ^ Variant.lengthBits .sha256) ∧
    ((lastAnswer (List.replicate 64 0x61)).k ≤ Variant.blockBytes .sha256 - 0 ∧
      (lastAnswer (List.replicate 64 0x61)).data.length = (lastAnswer (List.replicate 64 0x61)).k) ∧
    Memory.wf filling.blk := by decide +kernel
theorem witness_EngineErrorIsPrecise :
    ∃ t, exec .fill { filling with source := [⟨0, [], false, true⟩] } = .next t ∧ filling.err = false ∧ t.err = true :=
  ⟨_, rfl, rfl, rfl⟩
theorem witness_SourceProtocolViolationIsRefused :
    filling.eoiSeen = false ∧ filling.cnt.toNat < filling.var.blockBytes ∧
    answerNext { filling with source := [⟨65, List.replicate 65 0, false, false⟩] }
      ⟨65, List.replicate 65 0, false, false⟩ [] ∧
    (⟨65, List.replicate 65 0, false, false⟩ : SrcResponse).fail = false ∧
    filling.var.blockBytes - filling.cnt.toNat < 65 ∧ ([1] : List Byte).length ≠ 2 := ⟨rfl, by decide, .inl rfl, rfl,
      by decide, by decide⟩
/-- A source that falls silent after two empty answers, and one that gives empty answers without end. -/
theorem witness_SilentSourceHangsTheEngine :
    (∀ after ∈ [none, some ⟨0, [], false, false⟩],
      let s : State := { filling with source := List.replicate 2 ⟨0, [], false, false⟩, sourceAfter := after }
      engineAlone s ∧ s.busy = true ∧ s.phase = 1 ∧ s.eoiSeen = false ∧ s.cnt.toNat < s.var.blockBytes ∧
      s.len.toNat < 2 ^ s.var.lengthBits ∧ s.source = List.replicate 2 ⟨0, [], false, false⟩ ∧
      s.sourceAfter = after) := by decide +kernel
/-- PAD's cases at the ends of their ranges, in both variants. -/
theorem witness_PadCompletesTheBlock :
    (∀ v : Variant, ∃ c : BitVec 8, c.toNat = v.blockBytes) ∧
    ((0 : BitVec 8).toNat ≤ Variant.blockBytes .sha256 - Variant.lengthBytes .sha256 - 1 ∧
      (55 : BitVec 8).toNat ≤ Variant.blockBytes .sha256 - Variant.lengthBytes .sha256 - 1 ∧
      (111 : BitVec 8).toNat ≤ Variant.blockBytes .sha512 - Variant.lengthBytes .sha512 - 1) ∧
    (Variant.blockBytes .sha256 - Variant.lengthBytes .sha256 ≤ (56 : BitVec 8).toNat ∧
      (63 : BitVec 8).toNat < Variant.blockBytes .sha256 ∧
      Variant.blockBytes .sha512 - Variant.lengthBytes .sha512 ≤ (112 : BitVec 8).toNat ∧
      (127 : BitVec 8).toNat < Variant.blockBytes .sha512) ∧
    Memory.wf (bufferOf abc) := ⟨fun v => by cases v; exact ⟨64, rfl⟩; exact ⟨128, rfl⟩, by decide, by decide, by decide⟩
theorem witness_PadblkBuildsTheLengthBlock : Memory.wf (bufferOf (abcBlock .sha256)) := by decide +kernel
theorem witness_PaddingFillsWholeBlocks :
    (abc.length + 1 + 52 + Variant.lengthBytes .sha256) % Variant.blockBytes .sha256 = 0 ∧
    8 * abc.length < 2 ^ Variant.lengthBits .sha256 := by decide
theorem witness_SchedComputesOneWord :
    (16 ≤ (inFlight .sha256 5 16).t.toNat ∧ (inFlight .sha256 5 16).t.toNat < (inFlight .sha256 5 16).var.rounds) ∧
    (16 ≤ (inFlight .sha512 5 79).t.toNat ∧ (inFlight .sha512 5 79).t.toNat < (inFlight .sha512 5 79).var.rounds) := by decide
theorem witness_RoundUpdatesTheWorkingVariables :
    (inFlight .sha256 7 63).t.toNat < (inFlight .sha256 7 63).var.rounds ∧
    (inFlight .sha512 7 79).t.toNat < (inFlight .sha512 7 79).var.rounds := by decide
theorem witness_BigEndianFormsAreInverse : [1, 2, 3, 4, 5, 6, 7, (8 : Byte)].length ≤ 8 ∧ ([] : List Byte).length ≤ 8 ∧ 8 ≤ 8 := by
  decide
/-- Every micro-operation has a next state; FILL with each kind of answer, SCHED and ROUND at their last index. -/
theorem witness_NextPhaseFollowsTheTable :
    (nextOf (exec .idle filling)).isSome = true ∧ (nextOf (exec .fill filling)).isSome = true ∧
    (nextOf (exec .fill { filling with eoiSeen := true })).isSome = true ∧
    (nextOf (exec .fill { filling with source := [⟨0, [], false, true⟩] })).isSome = true ∧
    (nextOf (exec .fill { filling with source := [⟨1, [0], false, false⟩] })).isSome = true ∧
    (nextOf (exec .pad filling)).isSome = true ∧ (nextOf (exec .padblk filling)).isSome = true ∧
    (nextOf (exec .extract filling)).isSome = true ∧ (nextOf (exec .sched (inFlight .sha256 5 16))).isSome = true ∧
    (nextOf (exec .sched (inFlight .sha256 5 63))).isSome = true ∧ (nextOf (exec .initwv filling)).isSome = true ∧
    (nextOf (exec .round (inFlight .sha256 7 0))).isSome = true ∧
    (nextOf (exec .round (inFlight .sha256 7 63))).isSome = true ∧ (nextOf (exec .accum filling)).isSome = true ∧
    (nextOf (exec .finish filling)).isSome = true := by decide +kernel
theorem witness_HostInstructionsFrame :
    ∀ i ∈ [Instr.nop, .start .sha256, .reject 0x10, .rd 0x40, .wrCmd 0x1, .wr 0x40 0],
      hostIssues i = true ∧ i.wf = true ∧ (nextOf (exec i filling)).isSome = true ∧ filling.busy = true := by decide +kernel
theorem witness_WordStepsFrame :
    (∀ i ∈ [Instr.extract, .sched, .initwv, .round, .accum, .finish, .idle],
      (nextOf (exec i (inFlight .sha256 5 16))).isSome = true) ∧ 16 ≤ (79 : Fin 80).val ∧
    (17 : Fin 80).val ≠ (inFlight .sha256 5 16).t.toNat := by decide +kernel
theorem witness_BlockStepsFrame :
    Memory.wf filling.blk ∧ ∀ i ∈ [Instr.fill, .pad, .padblk], (nextOf (exec i filling)).isSome = true := by decide +kernel
theorem witness_ResetLeavesTheControlState :
    ∃ t rest, moveNext { filling with agenda := [.reset] } .reset rest ∧
      step { filling with agenda := [.reset] } = .next t := ⟨_, [], .inl rfl, rfl⟩
theorem witness_StepKeepsTheInvariant : filling.Inv ∧ ∃ t, step filling = .next t := ⟨witness_inv, _, rfl⟩
theorem witness_PublishedResultStands :
    ∃ t, abcDone.busy = false ∧ abcDone.done = true ∧ step { abcDone with agenda := [.command 0x10] } = .next t ∧
      ¬ acceptsStart { abcDone with agenda := [.command 0x10] } ∧ ¬ resetNext { abcDone with agenda := [.command 0x10] } := by
  refine ⟨_, rfl, rfl, rfl, ?_, ?_⟩
  · rintro ⟨-, v, s, h | h⟩ <;> cases h
  · rintro ⟨rest, h | ⟨h, -⟩⟩ <;> cases h
/-- FINISH, an engine error and reset. -/
theorem witness_BusyLastsUntilFinishOrError :
    (∃ t, step (inFlight .sha256 9 0) = .next t ∧ (inFlight .sha256 9 0).busy = true ∧ t.busy = false) ∧
    (∃ t, step { filling with source := [⟨0, [], false, true⟩] } = .next t ∧ filling.busy = true ∧ t.busy = false) ∧
    (∃ t, step { filling with agenda := [.reset] } = .next t ∧ filling.busy = true ∧ t.busy = false) :=
  ⟨⟨_, rfl, rfl, rfl⟩, ⟨_, rfl, rfl, rfl⟩, _, rfl, rfl, rfl⟩
/-- Two states whose message bytes differ. -/
theorem witness_ControlIsIndependentOfData :
    sameControl filling { filling with source := [lastAnswer [0x78, 0x79, 0x7a]], H := words8 iv512 } where
  place := ⟨rfl, rfl⟩
  flags := ⟨rfl, rfl, rfl, rfl, rfl, rfl⟩
  padder := ⟨rfl, rfl, rfl, rfl⟩
  agenda := rfl
  agendaAfter := rfl
  requests := rfl
  draws := rfl
  source := .cons ⟨rfl, rfl, rfl, rfl⟩ .nil
  sourceAfter := .none
theorem witness_BlockIsCompressed :
    engineAlone (inFlight .sha512 4 0) ∧ (inFlight .sha512 4 0).busy = true ∧ (inFlight .sha512 4 0).phase = 4 := by decide
theorem witness_ComputationHashesTheMessage :
    let answers : List SrcResponse := [⟨2, [0x61, 0x62], false, false⟩, ⟨0, [], false, false⟩, lastAnswer [0x63]]
    let s : State := { State.reset with agenda := [.command (startWord .sha512)], source := answers ++ [lastAnswer abc] }
    s.busy = false ∧ s.agenda = [.command (startWord .sha512)] ∧ s.agendaAfter = [] ∧ s.source = answers ++ [lastAnswer abc] ∧
    Memory.wf s.blk ∧ answersWell .sha512 0 answers = true ∧
    8 * (messageOf answers).length < 2 ^ Variant.lengthBits .sha512 := by decide +kernel
/-- START of SHA-256 of the empty message, with the host reading STATUS, writing a START that is rejected and reading DIGEST0
while the engine runs. -/
theorem witness_InterleavingDoesNotMatter :
    let answers : List SrcResponse := [⟨0, [], true, false⟩]
    let moves : List Event := [.access ⟨false, 0x08, 64, 0⟩, .command 0x1, .engine, .access ⟨false, 0x40, 64, 0⟩] ++
      List.replicate 116 .engine
    let s : State := { State.reset with
      agenda := .command (startWord .sha256) :: (moves ++ .engine :: [.reset]), source := answers ++ [lastAnswer abc] }
    s.busy = false ∧ s.agenda = .command (startWord .sha256) :: (moves ++ .engine :: [.reset]) ∧
    s.source = answers ++ [lastAnswer abc] ∧ Memory.wf s.blk ∧ answersWell .sha256 0 answers = true ∧
    8 * (messageOf answers).length < 2 ^ Variant.lengthBits .sha256 ∧ (∀ e ∈ moves, e = .engine ∨ hostMove e) ∧
    moves.count .engine + 1 = stepCount .sha256 answers := by
  refine ⟨rfl, rfl, rfl, by decide, by decide, by decide, ?_, by decide +kernel⟩
  intro e he
  simp only [List.cons_append, List.nil_append, List.mem_cons, List.mem_replicate] at he
  rcases he with rfl | rfl | rfl | rfl | ⟨-, rfl⟩
  · exact .inr (.inr ⟨⟨false, 0, 64, 0⟩, 0x08, rfl, rfl, by decide, .inl rfl⟩)
  · exact .inr (.inl ⟨_, rfl⟩)
  · exact .inl rfl
  · exact .inr (.inr ⟨⟨false, 0, 64, 0⟩, 0x40, rfl, rfl, by decide, .inl rfl⟩)
  · exact .inl rfl

end Sys2Proof.Tests
end

section
/-! PROOFS. The statements on rotations and big-endian bytes (spec/00_scope.md R6, R11, R12). -/

namespace Sys2Proof

/-! ### Rotations -/

/-- For an amount below the width, the rotation of R11 is the library's. -/
theorem rotr_eq_rotateRight {w n : Nat} (x : BitVec w) (hn : n < w) : rotr x n = x.rotateRight n := by
  rw [rotr, shr, BitVec.rotateRight_def, Nat.mod_eq_of_lt hn]

/-- σ0 as rotations of the library's (R180). -/
theorem smallSigma0_eq_rotateRight (v : Variant) (x : VWord v) : smallSigma0 v x =
    x.rotateRight v.smallSigma0.p ^^^ x.rotateRight v.smallSigma0.q ^^^ x >>> v.smallSigma0.r := by
  rw [smallSigma0, rotr_eq_rotateRight x (by cases v <;> decide), rotr_eq_rotateRight x (by cases v <;> decide), shr]

/-- σ1 as rotations of the library's (R181). -/
theorem smallSigma1_eq_rotateRight (v : Variant) (x : VWord v) : smallSigma1 v x =
    x.rotateRight v.smallSigma1.p ^^^ x.rotateRight v.smallSigma1.q ^^^ x >>> v.smallSigma1.r := by
  rw [smallSigma1, rotr_eq_rotateRight x (by cases v <;> decide), rotr_eq_rotateRight x (by cases v <;> decide), shr]

/-- Σ0 as rotations of the library's (R202). -/
theorem bigSigma0_eq_rotateRight (v : Variant) (x : VWord v) : bigSigma0 v x =
    x.rotateRight v.bigSigma0.p ^^^ x.rotateRight v.bigSigma0.q ^^^ x.rotateRight v.bigSigma0.r := by
  rw [bigSigma0, rotr_eq_rotateRight x (by cases v <;> decide), rotr_eq_rotateRight x (by cases v <;> decide),
    rotr_eq_rotateRight x (by cases v <;> decide)]

/-- Σ1 as rotations of the library's (R203). -/
theorem bigSigma1_eq_rotateRight (v : Variant) (x : VWord v) : bigSigma1 v x =
    x.rotateRight v.bigSigma1.p ^^^ x.rotateRight v.bigSigma1.q ^^^ x.rotateRight v.bigSigma1.r := by
  rw [bigSigma1, rotr_eq_rotateRight x (by cases v <;> decide), rotr_eq_rotateRight x (by cases v <;> decide),
    rotr_eq_rotateRight x (by cases v <;> decide)]

/-- Settles O37: every amount of R6 is below its width, so each rotation is the library's. -/
theorem sigmaAmounts : Obligations.SigmaAmounts := by
  unfold Obligations.SigmaAmounts
  exact ⟨fun x => ⟨smallSigma0_eq_rotateRight .sha256 x, smallSigma1_eq_rotateRight .sha256 x,
      bigSigma0_eq_rotateRight .sha256 x, bigSigma1_eq_rotateRight .sha256 x⟩,
    fun x => ⟨smallSigma0_eq_rotateRight .sha512 x, smallSigma1_eq_rotateRight .sha512 x,
      bigSigma0_eq_rotateRight .sha512 x, bigSigma1_eq_rotateRight .sha512 x⟩⟩

/-! ### Big-endian bytes -/

/-- One more byte multiplies the decoded value by 256 and adds the byte, as long as the word holds it (R12). -/
theorem beDecode_append_toNat (bytes : List Byte) (b : Byte) (hk : bytes.length ≤ 7) :
    (beDecode (bytes ++ [b])).toNat = (beDecode bytes).toNat * 2 ^ 8 + b.toNat := by
  have hlt : (beDecode bytes).toNat * 2 ^ 8 < 2 ^ 64 :=
    calc (beDecode bytes).toNat * 2 ^ 8 < 2 ^ (8 * bytes.length) * 2 ^ 8 := by
          gcongr; exact beDecode_lt bytes (by omega)
      _ = 2 ^ (8 * bytes.length + 8) := (pow_add ..).symm
      _ ≤ 2 ^ 64 := Nat.pow_le_pow_right (by decide) (by omega)
  rw [beDecode_append, BitVec.toNat_or, BitVec.toNat_shiftLeft, Nat.shiftLeft_eq, Nat.mod_eq_of_lt hlt,
    BitVec.toNat_setWidth_of_le (by decide), ← Nat.shiftLeft_eq, Nat.shiftLeft_add_eq_or_of_lt b.isLt]

/-- The last byte of `BE_{k+1}(x)` is the low byte of `x`, and the bytes before it are those of `x` without its low byte
(R12). -/
theorem beBytes_succ (k : Nat) (x : BitVec 128) : beBytes (k + 1) x = beBytes k (x >>> 8) ++ [x.setWidth 8] := by
  rw [beBytes, beBytes, List.range_succ, List.map_append, List.map_singleton]
  congr 1
  · refine List.map_congr_left fun j hj => ?_
    have hj := List.mem_range.mp hj
    have hshift : 8 * (k + 1 - 1 - j) = 8 + 8 * (k - 1 - j) := by omega
    rw [hshift]
    ext i hi
    simp [Nat.add_assoc]
  · simp [BitVec.setWidth_eq_extractLsb']

/-- The sum of R12 over the bytes, the first one the most significant. -/
theorem beDecode_toNat (bytes : List Byte) (hk : bytes.length ≤ 8) :
    (beDecode bytes).toNat = ∑ j ∈ Finset.range bytes.length,
      (bytes.getD j 0).toNat * 2 ^ (8 * (bytes.length - 1 - j)) := by
  induction bytes using List.reverseRecOn with
  | nil => rfl
  | append_singleton bytes b ih =>
    rw [List.length_append, List.length_singleton] at hk ⊢
    rw [beDecode_append_toNat bytes b (by omega), ih (by omega), Finset.sum_range_succ, Finset.sum_mul]
    congr 1
    · refine Finset.sum_congr rfl fun j hj => ?_
      have hj := Finset.mem_range.mp hj
      rw [List.getD_append _ _ _ _ hj, mul_assoc, ← pow_add]
      congr 2; omega
    · simp

/-- Encoding a decoded byte list gives the bytes back (R12). -/
theorem beBytes_beDecode (bytes : List Byte) (hk : bytes.length ≤ 8) :
    beBytes bytes.length ((beDecode bytes).setWidth 128) = bytes := by
  induction bytes using List.reverseRecOn with
  | nil => rfl
  | append_singleton bytes b ih =>
    rw [List.length_append, List.length_singleton] at hk ⊢
    have happend := beDecode_append_toNat bytes b (by omega)
    have hinit : (beDecode (bytes ++ [b])).setWidth 128 >>> 8 = (beDecode bytes).setWidth 128 := by
      bv_omega
    have hlast : ((beDecode (bytes ++ [b])).setWidth 128).setWidth 8 = b := by
      bv_omega
    rw [beBytes_succ, hinit, hlast, ih (by omega)]

/-- Decoding the `k` encoded bytes of a value gives it modulo `2^(8k)` (R12). -/
theorem beDecode_beBytes_toNat (k : Nat) (x : BitVec 128) (hk : k ≤ 8) :
    (beDecode (beBytes k x)).toNat = x.toNat % 2 ^ (8 * k) := by
  induction k generalizing x with
  | zero => simp [beBytes, beDecode, Nat.mod_one]
  | succ k ih =>
    rw [beBytes_succ, beDecode_append_toNat _ _ (by rw [beBytes_length]; omega), ih _ (by omega),
      BitVec.toNat_ushiftRight, Nat.shiftRight_eq_div_pow, BitVec.toNat_setWidth, Nat.mul_succ, pow_add,
      mul_comm (2 ^ _), Nat.mod_mul]
    ring

/-- Settles O38: both directions by induction on the last byte. -/
theorem bigEndianFormsAreInverse : Obligations.BigEndianFormsAreInverse := by
  unfold Obligations.BigEndianFormsAreInverse
  exact ⟨fun bytes hk => ⟨beDecode_toNat bytes hk, beBytes_beDecode bytes hk⟩, beDecode_beBytes_toNat⟩

end Sys2Proof
end

section
/-! PROOFS. The statements on the state as a whole: the STATUS word, the state after reset, and the invariant that every step
keeps (spec/10_state.md). -/

namespace Sys2Proof

theorem Variant.lengthBits_le (v : Variant) : v.lengthBits ≤ 128 := by cases v <;> decide

namespace Machine

/-! ### STATUS (R48) -/

/-- A bit below the seam of a concatenation is one of the lower part. -/
theorem getLsbD_append_low {n m i : ℕ} (x : BitVec n) (y : BitVec m) (h : i < m) :
    (x ++ y).getLsbD i = y.getLsbD i := by
  rw [BitVec.getLsbD_append, if_pos h]

/-- A bit above the seam of a concatenation is one of the upper part. -/
theorem getLsbD_append_high {n m i : ℕ} (x : BitVec n) (y : BitVec m) (h : m ≤ i) :
    (x ++ y).getLsbD i = x.getLsbD (i - m) := by
  rw [BitVec.getLsbD_append, if_neg (by omega)]

/-- Settles O19: every field lies on one side of each seam of the STATUS word, so it is the part it was put together from;
what remains are the codes of the variant, the padding state and the error. -/
theorem statusShowsTheState : Obligations.StatusShowsTheState := by
  unfold Obligations.StatusShowsTheState
  refine ⟨rfl, fun s => ⟨rfl, ?_⟩⟩
  simp (disch := decide) only [statusWord, BitVec.extractLsb'_append_eq_of_le, BitVec.extractLsb'_append_eq_of_add_le,
    getLsbD_append_low, getLsbD_append_high, Nat.reduceSub, BitVec.extractLsb'_eq_self]
  have hvar : bitOfVariant s.var = (s.var == .sha512) := by cases s.var <;> rfl
  simp only [Order.lt_one_iff, BitVec.getLsbD_eq_getElem, BitVec.getElem_ofBool, hvar, BitVec.ofNat_eq_ofNat,
    BitVec.getElem_zero, and_self, and_true, true_and]
  exact ⟨by cases s.pstate <;> rfl, by cases s.errcode <;> rfl⟩

/-! ### The parts of the invariant in a phase that asks little of them -/

/-- Outside SCHED the index 0 is in range (R32). -/
theorem State.IndexInv.of_zero {s : State} (ht : s.t = 0) (hphase : s.phase ≠ 5) : s.IndexInv where
  sched h := absurd h hphase
  round _ := by rw [ht]; exact lt_trans (by decide) s.var.sixteen_lt_rounds
  other _ _ := ht

/-- Outside the phases from SCHED to ACCUM the engine will read the digest only (R36). -/
theorem State.WordInv.of_digest {s : State} (hdigest : s.started → ∀ i : Fin 8, holds s.var s.H[i])
    (hphase : s.phase.toNat < 5 ∨ 8 < s.phase.toNat) : s.WordInv where
  digest := hdigest
  working h := by rcases h with h | h <;> rw [h] at hphase <;> exact absurd hphase (by decide)
  schedule_part h := by rw [h] at hphase; exact absurd hphase (by decide)
  schedule h6 h8 := by omega

/-! ### Reset (R53, R300) -/

/-- The control state has its reset values (R53). -/
structure State.ControlReset (s : State) : Prop where
  phase : s.phase = 0
  t : s.t = 0
  busy : s.busy = false
  done : s.done = false
  err : s.err = false
  cmdRej : s.cmdRej = false
  errcode : s.errcode = .none
  var : s.var = .sha256
  pstate : s.pstate = .reading
  eoiSeen : s.eoiSeen = false
  cnt : s.cnt = 0

theorem reset_controlReset : State.reset.ControlReset :=
  ⟨rfl, rfl, rfl, rfl, rfl, rfl, rfl, rfl, rfl, rfl, rfl⟩

theorem resetBlock_controlReset (s : State) : (resetBlock s).ControlReset :=
  ⟨rfl, rfl, rfl, rfl, rfl, rfl, rfl, rfl, rfl, rfl, rfl⟩

/-- STATUS reads 0 after reset (R48, R53). -/
theorem State.ControlReset.statusWord_eq {s : State} (h : s.ControlReset) : statusWord s = 0 := by
  obtain ⟨hphase, ht, hbusy, hdone, herr, hcmdRej, herrcode, hvar, hpstate, heoi, hcnt⟩ := h
  rw [statusWord, hphase, ht, hbusy, hdone, herr, hcmdRej, herrcode, hvar, hpstate, heoi, hcnt]
  rfl

/-- A step whose next move is a reset is the reset of the block (R300). -/
theorem step_of_reset {s : State} {rest : List Event} (h : moveNext s .reset rest) :
    step s = .next (resetBlock { s with agenda := rest }) :=
  step_of_environment (fetch_of_moveNext h)

/-- Settles O45: State.reset and the block after a reset event have the same control state; the event leaves the model's own
fields (log 4). -/
theorem resetLeavesTheControlState : Obligations.ResetLeavesTheControlState := by
  unfold Obligations.ResetLeavesTheControlState
  refine ⟨fun s t ht => ?_, fun s rest hm => ⟨_, step_of_reset hm, rfl, rfl, rfl, rfl, rfl, rfl⟩⟩
  have hreset : t.ControlReset := by
    rcases ht with rfl | ⟨⟨rest, hm⟩, hstep⟩
    · exact reset_controlReset
    · rw [step_of_reset hm] at hstep
      cases hstep
      exact resetBlock_controlReset _
  exact ⟨hreset.phase, hreset.t, hreset.busy, hreset.done, hreset.err, hreset.cmdRej, hreset.errcode, hreset.var,
    hreset.pstate, hreset.eoiSeen, hreset.cnt, hreset.statusWord_eq⟩

/-- With the control state reset, the invariant asks for a canonical buffer only (R37). -/
theorem State.ControlReset.inv {s : State} (h : s.ControlReset) (hbuffer : s.BufferInv) : s.Inv := by
  have hstarted : ¬ s.started := by simp [h.busy, h.done, h.err]
  exact {
    control := by constructor <;> simp [h.phase, h.busy, h.done, h.err, h.errcode]
    index := .of_zero h.t (by simp [h.phase])
    padding := by constructor <;> simp [h.phase, h.done, h.pstate, h.cnt]
    buffer := hbuffer
    length := ⟨fun hs => absurd hs hstarted, fun hs => absurd hs hstarted⟩
    words := .of_digest (fun hs => absurd hs hstarted) (.inl (by simp [h.phase])) }

/-- Settles O46: the control state is reset and the buffer is empty. -/
theorem resetMeetsTheInvariant : Obligations.ResetMeetsTheInvariant :=
  reset_controlReset.inv ⟨Memory.wf_nil, by simp [State.reset]⟩

/-- The invariant after a reset event, whatever the buffer's bytes are (R300; log 4). -/
theorem resetBlock_inv (s : State) : (resetBlock s).Inv :=
  (resetBlock_controlReset s).inv
    ⟨Memory.wf_writeList Memory.wf_nil _ _, Memory.below_writeList (by simp) (by simp)⟩

/-! ### What the invariant does not speak of -/

/-- The state without what the invariant does not speak of: the rejection flag and the model's own fields. -/
def State.bare (s : State) : State :=
  { s with cmdRej := false, source := [], sourceAfter := none, agenda := [], agendaAfter := [], reads := [],
           requests := [], draws := 0 }

theorem bare_inv_iff (s : State) : s.bare.Inv ↔ s.Inv :=
  ⟨fun h => ⟨{ h.control with }, { h.index with }, { h.padding with }, { h.buffer with }, { h.length with },
      { h.words with }⟩,
    fun h => ⟨{ h.control with }, { h.index with }, { h.padding with }, { h.buffer with }, { h.length with },
      { h.words with }⟩⟩

theorem State.Inv.of_bare {s t : State} (h : s.Inv) (hbare : t.bare = s.bare) : t.Inv :=
  (bare_inv_iff t).1 (hbare ▸ (bare_inv_iff s).2 h)

theorem readRegister_bare (r : Register) (s : State) : (readRegister r s).bare = s.bare := by
  cases hv : registerValue s r with
  | some v => rw [readRegister_some hv]; rfl
  | none => rw [readRegister_any hv]; rfl

/-! ### What an engine step writes -/

/-- Each word EXTRACT loads fits its variant (R36, R141). -/
theorem extracted_holds (s : State) (i : Fin 80) (hi : i.val < 16) : holds s.var (extracted s)[i] := by
  simp [extracted, hi, blockWord_lt]

/-- The schedule after SCHED fits its variant up to and including index `t` (R36, R186). -/
theorem scheduled_holds {s : State} {i : Fin 80} (h : i.val < s.t.toNat → holds s.var s.W[i])
    (hi : i.val < s.t.toNat + 1) : holds s.var (s.W.setIfInBounds s.t.toNat (nextScheduleWord s))[i] := by
  rw [Fin.getElem_fin, Vector.getElem_setIfInBounds]
  split
  · exact zext_lt _
  · exact h (by omega)

/-- The working variables after a round fit their variant (R36, R208). -/
theorem roundWorking_holds (s : State) (i : Fin 8) : holds s.var (roundWorking s)[i] := by
  fin_cases i <;> exact zext_lt _

/-- The running digest after ACCUM fits its variant (R36, R209). -/
theorem accumulated_holds (s : State) (i : Fin 8) : holds s.var (accumulated s)[i] := by
  rw [Fin.getElem_fin, accumulated, Vector.getElem_ofFn]
  exact zext_lt _

/-- The initial digest fits its variant (R36, R231). -/
theorem initialDigest_holds (v : Variant) (i : Fin 8) : holds v (initialDigest v)[i] := by
  rw [Fin.getElem_fin, initialDigest, Vector.getElem_ofFn]
  exact zext_lt _

/-- The index below the round count moves on without wrapping (R32). -/
theorem index_succ {s : State} (h : s.t.toNat < s.var.rounds) : (s.t + 1).toNat = s.t.toNat + 1 := by
  have := s.var.rounds_le
  exact BitVec.toNat_add_of_lt (y := 1) (show s.t.toNat + 1 < 128 by omega)

/-- The bytes of an answer are counted without wrapping while there is room for them (R35, R83). -/
theorem cnt_add_toNat {s : State} {k : ℕ} (hcnt : s.cnt.toNat ≤ s.var.blockBytes) (hk : k ≤ requestSize s) :
    (s.cnt + BitVec.ofNat 8 k).toNat = s.cnt.toNat + k := by
  have := s.var.blockBytes_le
  unfold requestSize at hk
  rw [BitVec.toNat_add, BitVec.toNat_ofNat]
  omega

/-- The length counter counts an answer without wrapping unless LEN_OVF is raised (R38, R274). -/
theorem len_add_toNat {s : State} {k : ℕ} (h : lengthOverflows s k = false) :
    (s.len + BitVec.ofNat 128 (8 * k)).toNat = s.len.toNat + 8 * k ∧ s.len.toNat + 8 * k < 2 ^ s.var.lengthBits := by
  have hfits : s.len.toNat + 8 * k < 2 ^ s.var.lengthBits := by simpa [lengthOverflows] using h
  have hlt : s.len.toNat + 8 * k < 2 ^ 128 :=
    hfits.trans_le (Nat.pow_le_pow_right (by decide) s.var.lengthBits_le)
  refine ⟨?_, hfits⟩
  rw [BitVec.toNat_add, BitVec.toNat_ofNat]
  omega

/-! ### Parts of the invariant that many steps keep alike -/

/-- Going on to another phase, with the flags as they are, keeps the control bits (R235). -/
theorem State.ControlInv.goOn {s : State} (h : s.ControlInv) (hbusy : s.busy = true) {p : BitVec 4} (hp : p ≠ 0)
    (hlegal : p.toNat ≤ 9) : { s with phase := p }.ControlInv :=
  { h with
    phase_legal := hlegal
    busy_iff := ⟨fun _ => hp, fun _ => hbusy⟩ }

/-- In a phase that uses no index it is 0 (R32). -/
theorem State.Inv.index_zero {s : State} (h : s.Inv) {p : BitVec 4} (hphase : s.phase = p) (h5 : p ≠ 5 := by decide)
    (h7 : p ≠ 7 := by decide) : s.t = 0 :=
  h.index.other (hphase ▸ h5) (hphase ▸ h7)

/-- The phases from EXTRACT to ACCUM ask the same of the padder (R161). -/
theorem State.PaddingInv.goOn {s : State} (h : s.PaddingInv) (hs : 4 ≤ s.phase.toNat ∧ s.phase.toNat ≤ 8)
    (hdone : s.done = false) {p : BitVec 4} (hp : 4 ≤ p.toNat ∧ p.toNat ≤ 8) : { s with phase := p }.PaddingInv := by
  have hne : p ≠ 1 ∧ p ≠ 2 ∧ p ≠ 3 ∧ p ≠ 9 := by
    refine ⟨?_, ?_, ?_, ?_⟩ <;> rintro rfl <;> revert hp <;> decide
  obtain ⟨h1, h2, h3, h9⟩ := hne
  exact { h with
    fill_room := fun h => absurd h h1
    fill_reading := fun h => absurd h (not_or.2 ⟨h1, h2⟩)
    pad_ended := fun h => absurd h h2
    padblk_pending := fun h => absurd h h3
    block_full := fun _ _ => h.block_full hs.1 hs.2
    finished := fun h => absurd h (not_or.2 ⟨h9, by simp [hdone]⟩) }

/-- A step that goes on from one phase between EXTRACT and ACCUM to another and writes the schedule, the working variables
and the index only: what is left to show is their part of the invariant (R31, R36). -/
theorem State.Inv.wordStep {s : State} (h : s.Inv) (hbusy : s.busy = true)
    (hs : 4 ≤ s.phase.toNat ∧ s.phase.toNat ≤ 8) {p : BitVec 4} {i : BitVec 7} {wv : Vector Word 8} {W : Vector Word 80}
    (hp : 4 ≤ p.toNat ∧ p.toNat ≤ 8) (hindex : { s with phase := p, t := i, wv := wv, W := W }.IndexInv)
    (hwords : { s with phase := p, t := i, wv := wv, W := W }.WordInv) :
    { s with phase := p, t := i, wv := wv, W := W }.Inv where
  control := { h.control.goOn hbusy (p := p) (by rintro rfl; exact absurd hp.1 (by decide)) (by omega) with }
  index := hindex
  padding := { h.padding.goOn hs (h.control.busy_done hbusy) hp with }
  buffer := { h.buffer with }
  length := { h.length with }
  words := hwords

/-! ### The engine's micro-operations keep the invariant -/

/-- The computation ends, with a published digest or with an error (R33, R234, R272). -/
theorem State.Inv.stop {s : State} (h : s.Inv) (hbusy : s.busy = true) (ht : s.t = 0) {d e : Bool} {code : ErrCode}
    (hexclude : d = true → e = false) (hcode : e = true ↔ code ≠ .none) (hdone : d = true → s.pstate = .done) :
    { s with phase := 0, busy := false, done := d, err := e, errcode := code }.Inv where
  control := {
    phase_legal := by simp
    busy_iff := by simp
    busy_done := by simp
    busy_err := by simp
    done_err := hexclude
    err_iff := hcode }
  index := .of_zero ht (by simp)
  padding := { h.padding with
    fill_room := by simp
    fill_reading := by simp
    pad_ended := by simp
    padblk_pending := by simp
    block_full := by simp
    finished := by simpa using hdone }
  buffer := { h.buffer with }
  length := ⟨fun _ => h.length.fits (.inl hbusy), fun _ => h.length.counts (.inl hbusy)⟩
  words := .of_digest (fun _ => h.words.digest (.inl hbusy)) (.inl (by simp))

/-- An engine error (R272). -/
theorem raiseEngineError_inv {s : State} (h : s.Inv) (hbusy : s.busy = true) (ht : s.t = 0) {code : ErrCode}
    (hcode : code ≠ .none) : (raiseEngineError code s).Inv :=
  h.stop hbusy ht nofun (iff_of_true rfl hcode) nofun

/-- The phase after FILL, and why (R152). -/
theorem phaseAfterFill_cases (s : State) (k : ℕ) (eoi : Bool) :
    (phaseAfterFill s k eoi = 1 ∧ s.cnt.toNat + k ≠ s.var.blockBytes) ∨
      (phaseAfterFill s k eoi = 2 ∧ (s.cnt.toNat + k = s.var.blockBytes ∨ eoi = true)) := by
  unfold phaseAfterFill
  split
  · next hc => exact .inr ⟨rfl, hc⟩
  · next hc => exact .inl ⟨rfl, (not_or.1 hc).1⟩

/-- The padder's part when FILL takes an answer's bytes (R152, R154). -/
theorem acceptBytes_padding {s : State} (h : s.PaddingInv) (hphase : s.phase = 1) (hdone : s.done = false)
    {r : SrcResponse} (hk : r.k ≤ requestSize s) : (acceptBytes r s).PaddingInv := by
  have hreading := h.fill_reading (.inl hphase)
  have hcnt : (acceptBytes r s).cnt.toNat = s.cnt.toNat + r.k := cnt_add_toNat h.cnt_le hk
  have hle : s.cnt.toNat + r.k ≤ s.var.blockBytes := by
    have := h.cnt_le
    unfold requestSize at hk
    omega
  rcases phaseAfterFill_cases s r.k r.eoi with ⟨hp, hc⟩ | ⟨hp, hc⟩
  · exact {
      cnt_le := by rw [hcnt]; exact hle
      fill_room := fun _ => by rw [hcnt]; exact lt_of_le_of_ne hle hc
      fill_reading := fun _ => hreading
      pad_ended := by simp [hp]
      padblk_pending := by simp [hp]
      block_full := by simp [hp]
      padding_ended := fun hne => absurd hreading hne
      finished := by simp [hp, hdone] }
  · exact {
      cnt_le := by rw [hcnt]; exact hle
      fill_room := by simp [hp]
      fill_reading := fun _ => hreading
      pad_ended := fun _ hlt => hc.resolve_left (by rw [hcnt] at hlt; exact hlt.ne)
      padblk_pending := by simp [hp]
      block_full := by simp [hp]
      padding_ended := fun hne => absurd hreading hne
      finished := by simp [hp, hdone] }

/-- FILL takes an answer's bytes (R152). -/
theorem acceptBytes_inv {s : State} (h : s.Inv) (hbusy : s.busy = true) (hphase : s.phase = 1) {r : SrcResponse}
    (hk : r.k ≤ requestSize s) (hdata : r.data.length = r.k) (hfits : lengthOverflows s r.k = false) :
    (acceptBytes r s).Inv := by
  have hcnt : (acceptBytes r s).cnt.toNat = s.cnt.toNat + r.k := cnt_add_toNat h.padding.cnt_le hk
  obtain ⟨hlen, hlenfits⟩ : (acceptBytes r s).len.toNat = s.len.toNat + 8 * r.k ∧ _ := len_add_toNat hfits
  have hphases : phaseAfterFill s r.k r.eoi = 1 ∨ phaseAfterFill s r.k r.eoi = 2 :=
    (phaseAfterFill_cases s r.k r.eoi).imp And.left And.left
  have hlow : phaseAfterFill s r.k r.eoi ≠ 0 ∧ (phaseAfterFill s r.k r.eoi).toNat < 5 := by
    rcases hphases with hp | hp <;> rw [hp] <;> decide
  exact {
    control := { h.control.goOn hbusy hlow.1 (by omega) with }
    index := .of_zero (h.index_zero hphase) fun h5 => by
      have : (phaseAfterFill s r.k r.eoi).toNat = 5 := congrArg BitVec.toNat h5
      omega
    padding := acceptBytes_padding h.padding hphase (h.control.busy_done hbusy) hk
    buffer := ⟨Memory.wf_writeList h.buffer.wf _ _, Memory.below_writeList h.buffer.below (by
      have := h.padding.cnt_le
      have := s.var.blockBytes_le
      unfold requestSize at hk
      omega)⟩
    length := {
      fits := fun _ => by rw [hlen]; exact hlenfits
      counts := fun _ => by
        rw [hlen, hcnt, Nat.mul_add]
        exact Nat.ModEq.add_right _ (h.length.counts (.inl hbusy)) }
    words := .of_digest (fun _ => h.words.digest (.inl hbusy)) (.inl hlow.2) }

/-- The engine waits, latches the end of the input, fails, or takes an answer's bytes (R152). -/
theorem execFill_inv {s t : State} (h : s.Inv) (hbusy : s.busy = true) (hphase : s.phase = 1)
    (he : execFill s = .next t) : t.Inv := by
  rcases execFill_next he with ⟨heoi, rfl⟩ | ⟨-, -, ⟨-, rfl⟩ | ⟨r, rs, -, hfill⟩⟩
  · exact {
      control := { h.control.goOn hbusy (p := 2) (by decide) (by decide) with }
      index := .of_zero (h.index_zero hphase) (by simp)
      padding := { h.padding with
        fill_room := by simp
        fill_reading := fun _ => h.padding.fill_reading (.inl hphase)
        pad_ended := fun _ _ => heoi
        padblk_pending := by simp
        block_full := by simp
        finished := by simp [h.control.busy_done hbusy] }
      buffer := { h.buffer with }
      length := { h.length with }
      words := .of_digest h.words.digest (.inl (by simp)) }
  · exact h
  · have htaken : (takeAnswer rs s).Inv := h.of_bare rfl
    rcases fillFrom_next hfill with ⟨-, rfl⟩ | ⟨-, hk, hdata, ⟨-, rfl⟩ | ⟨hfits, rfl⟩⟩
    · exact raiseEngineError_inv htaken hbusy (h.index_zero hphase) (by simp)
    · exact raiseEngineError_inv htaken hbusy (h.index_zero hphase) (by simp)
    · exact acceptBytes_inv htaken hbusy hphase hk hdata hfits

/-- A padded block goes on to EXTRACT with its bytes in the buffer, and the padder's new state (R155, R158). -/
theorem State.Inv.toExtract {s : State} (h : s.Inv) (hbusy : s.busy = true) (ht : s.t = 0) {a : ℕ} {bytes : List Byte}
    {ps : PadState} (hbytes : a + bytes.length ≤ 128) (hended : ps ≠ .reading → s.eoiSeen = true)
    (hfull : ps = .reading → s.cnt.toNat = s.var.blockBytes) :
    { s with blk := Memory.writeList s.blk a bytes, pstate := ps, phase := 4 }.Inv where
  control := { h.control.goOn hbusy (p := 4) (by decide) (by decide) with }
  index := .of_zero ht (by simp)
  padding := {
    cnt_le := h.padding.cnt_le
    fill_room := by simp
    fill_reading := by simp
    pad_ended := by simp
    padblk_pending := by simp
    block_full := fun _ _ => hfull
    padding_ended := hended
    finished := by simp [h.control.busy_done hbusy] }
  buffer := ⟨Memory.wf_writeList h.buffer.wf _ _, Memory.below_writeList h.buffer.below hbytes⟩
  length := { h.length with }
  words := .of_digest h.words.digest (.inl (by simp))

/-- PAD: a full block as it is, or the last data block with its padding (R155). -/
theorem execPad_inv {s t : State} (h : s.Inv) (hbusy : s.busy = true) (hphase : s.phase = 2)
    (he : execPad s = .next t) : t.Inv := by
  have ht := h.index_zero hphase
  have hB := s.var.blockBytes_le
  rcases execPad_next he with ⟨hfull, rfl⟩ | ⟨hfinal, rfl⟩ | ⟨-, hlt, rfl⟩
  · have hreading := h.padding.fill_reading (.inr hphase)
    exact h.toExtract hbusy ht (a := 0) (bytes := []) (by simp) (absurd hreading) fun _ => hfull
  · have hlt : s.cnt.toNat < s.var.blockBytes := by
      have := s.var.finalMax_eq
      omega
    have hlength := finalPadding_length hfinal s.len
    exact h.toExtract hbusy ht (by omega) (fun _ => h.padding.pad_ended hphase hlt) nofun
  · have hlength := spillPadding_length hlt
    exact h.toExtract hbusy ht (by omega) (fun _ => h.padding.pad_ended hphase hlt) nofun

/-- PADBLK: the length-only block (R158). -/
theorem execPadblk_inv {s t : State} (h : s.Inv) (hbusy : s.busy = true) (hphase : s.phase = 3)
    (he : execPadblk s = .next t) : t.Inv := by
  cases he
  have hpending := h.padding.padblk_pending hphase
  have hlength := (lengthBlock_length s.var s.len).trans_le s.var.blockBytes_le
  exact h.toExtract hbusy (h.index_zero hphase) (by omega) (fun _ => h.padding.padding_ended (by simp [hpending])) nofun

/-- EXTRACT: the first 16 words are there, and the schedule goes on at 16 (R141). -/
theorem execExtract_inv {s t : State} (h : s.Inv) (hbusy : s.busy = true) (hphase : s.phase = 4)
    (he : execExtract s = .next t) : t.Inv := by
  cases he
  exact h.wordStep hbusy (by rw [hphase]; decide) (p := 5) (by decide)
    { sched := fun _ => ⟨le_refl 16, s.var.sixteen_lt_rounds⟩
      round := by simp
      other := by simp }
    { digest := h.words.digest
      working := by simp
      schedule_part := fun _ i hi => extracted_holds s i hi
      schedule := by simp }

/-- SCHED: the schedule has one more word, and the rounds begin when it is complete (R186). -/
theorem execSched_inv {s t : State} (h : s.Inv) (hbusy : s.busy = true) (hphase : s.phase = 5)
    (he : execSched s = .next t) : t.Inv := by
  have hpart : ∀ i : Fin 80, i.val < s.t.toNat + 1 →
      holds s.var (s.W.setIfInBounds s.t.toNat (nextScheduleWord s))[i] :=
    fun i => scheduled_holds (h.words.schedule_part hphase i)
  obtain ⟨h16, hlt, ⟨hlast, rfl⟩ | ⟨hmore, rfl⟩⟩ := execSched_next he
  · exact h.wordStep hbusy (by rw [hphase]; decide) (p := 6) (by decide) (.of_zero rfl (by simp))
      { digest := h.words.digest
        working := by simp
        schedule_part := by simp
        schedule := fun _ _ i hi => hpart i (hlast ▸ hi) }
  · have hsucc := index_succ hlt
    have hrange : 16 ≤ (s.t + 1).toNat ∧ (s.t + 1).toNat < s.var.rounds := by omega
    exact h.wordStep hbusy (by rw [hphase]; decide) (p := 5) (by decide)
      { sched := fun _ => hrange
        round := by simp
        other := by simp }
      { digest := h.words.digest
        working := by simp
        schedule_part := fun _ i hi => hpart i (hsucc ▸ hi)
        schedule := by simp }

/-- INITWV: the working variables are the digest (R207). -/
theorem execInitwv_inv {s t : State} (h : s.Inv) (hbusy : s.busy = true) (hphase : s.phase = 6)
    (he : execInitwv s = .next t) : t.Inv := by
  cases he
  have hcompute : 4 ≤ s.phase.toNat ∧ s.phase.toNat ≤ 8 := by rw [hphase]; decide
  exact h.wordStep hbusy hcompute (p := 7) (by decide) (.of_zero rfl (by simp))
    { digest := h.words.digest
      working := fun _ => h.words.digest (.inl hbusy)
      schedule_part := by simp
      schedule := fun _ _ => h.words.schedule (by rw [hphase]; decide) hcompute.2 }

/-- ROUND: the working variables are new, and after the last round they are accumulated (R208). -/
theorem execRound_inv {s t : State} (h : s.Inv) (hbusy : s.busy = true) (hphase : s.phase = 7)
    (he : execRound s = .next t) : t.Inv := by
  have hcompute : 4 ≤ s.phase.toNat ∧ s.phase.toNat ≤ 8 := by rw [hphase]; decide
  have hwords : ∀ (p : BitVec 4) (i : BitVec 7), p ≠ 5 →
      { s with wv := roundWorking s, t := i, phase := p }.WordInv := fun p i hp =>
    { digest := h.words.digest
      working := fun _ => roundWorking_holds s
      schedule_part := fun h5 => absurd h5 hp
      schedule := fun _ _ => h.words.schedule (by rw [hphase]; decide) hcompute.2 }
  obtain ⟨hlt, ⟨hlast, rfl⟩ | ⟨hmore, rfl⟩⟩ := execRound_next he
  · exact h.wordStep hbusy hcompute (p := 8) (by decide) (.of_zero rfl (by simp)) (hwords 8 0 (by decide))
  · exact h.wordStep hbusy hcompute (p := 7) (by decide)
      { sched := by simp
        round := fun _ => by
          rw [index_succ hlt]
          exact lt_of_le_of_ne hlt hmore
        other := by simp }
      (hwords 7 _ (by decide))

/-- The phase after ACCUM is FILL, PADBLK or FINISH (R209). -/
theorem phaseAfterAccum_range (ps : PadState) : phaseAfterAccum ps ≠ 0 ∧ phaseAfterAccum ps ≠ 5 ∧
    (phaseAfterAccum ps).toNat ≤ 9 ∧ ((phaseAfterAccum ps).toNat < 5 ∨ 8 < (phaseAfterAccum ps).toNat) := by
  cases ps <;> decide

/-- ACCUM's next block: to be filled from its start, the length-only block, or none (R209). -/
theorem State.PaddingInv.accum {s : State} (h : s.PaddingInv) (hdone : s.done = false) :
    { s with cnt := if s.pstate = PadState.reading then 0 else s.cnt, phase := phaseAfterAccum s.pstate }.PaddingInv := by
  cases hps : s.pstate with
  | reading => constructor <;> simp [phaseAfterAccum, hdone, s.var.blockBytes_pos]
  | padPending =>
    have hended := h.padding_ended (by simp [hps])
    constructor <;> simp [phaseAfterAccum, hdone, h.cnt_le, hended]
  | done =>
    have hended := h.padding_ended (by simp [hps])
    constructor <;> simp [phaseAfterAccum, h.cnt_le, hended]

/-- A block that was full counts as whole, so the count starts over (R38, R209). -/
theorem State.LengthInv.accum {s : State} (h : s.LengthInv)
    (hfull : s.pstate = .reading → s.cnt.toNat = s.var.blockBytes) :
    { s with cnt := if s.pstate = PadState.reading then 0 else s.cnt }.LengthInv where
  fits := h.fits
  counts hs := by
    refine (h.counts hs).trans ?_
    dsimp only
    split
    · next hreading => rw [hfull hreading, Nat.mod_self]; rfl
    · rfl

/-- ACCUM: the digest is new, and the padder's state says which phase comes next (R209). -/
theorem execAccum_inv {s t : State} (h : s.Inv) (hbusy : s.busy = true) (hphase : s.phase = 8)
    (he : execAccum s = .next t) : t.Inv := by
  cases he
  obtain ⟨h0, h5, h9, hother⟩ := phaseAfterAccum_range s.pstate
  have hfull := h.padding.block_full (by rw [hphase]; decide) (by rw [hphase]; decide)
  exact {
    control := { h.control.goOn hbusy h0 h9 with }
    index := .of_zero (h.index_zero hphase) h5
    padding := { h.padding.accum (h.control.busy_done hbusy) with }
    buffer := { h.buffer with }
    length := { h.length.accum hfull with }
    words := .of_digest (fun _ => accumulated_holds s) hother }

/-- FINISH: the digest is published (R234). -/
theorem execFinish_inv {s t : State} (h : s.Inv) (hbusy : s.busy = true) (hphase : s.phase = 9)
    (he : execFinish s = .next t) : t.Inv := by
  cases he
  exact h.stop hbusy (h.index_zero hphase) (fun _ => h.control.busy_err hbusy) h.control.err_iff
    fun _ => h.padding.finished (.inl hphase)

/-! ### Every step keeps the invariant -/

/-- An accepted START (R231). -/
theorem beginComputation_inv {s : State} (h : s.Inv) (v : Variant) : (beginComputation v s).Inv where
  control := by constructor <;> simp
  index := .of_zero rfl (by simp)
  padding := by constructor <;> simp [v.blockBytes_pos]
  buffer := { h.buffer with }
  length := by constructor <;> simp
  words := .of_digest (fun _ => initialDigest_holds v) (.inl (by simp))

/-- The host's instructions (R230, R231, R232, R237, R238, R275). -/
theorem exec_host_inv {i : Instr} {s t : State} (hi : hostIssues i = true) (h : s.Inv) (he : exec i s = .next t) :
    t.Inv := by
  rcases exec_host_next hi he with rfl | ⟨r, rfl⟩ | rfl | ⟨-, v, rfl⟩
  · exact h
  · exact h.of_bare (readRegister_bare r s)
  · exact h.of_bare rfl
  · exact beginComputation_inv h v

/-- The micro-operation of the phase register (R116, R236). -/
theorem exec_phase_inv {i : Instr} {s t : State} (h : s.Inv) (hbusy : s.busy = true)
    (hphase : decodePhase s.phase = .ok i) (he : exec i s = .next t) : t.Inv := by
  rcases decodePhase_ok hphase with ⟨hp, rfl⟩ | ⟨hp, rfl⟩ | ⟨hp, rfl⟩ | ⟨hp, rfl⟩ | ⟨hp, rfl⟩ | ⟨hp, rfl⟩ | ⟨hp, rfl⟩ |
    ⟨hp, rfl⟩ | ⟨hp, rfl⟩ | ⟨hp, rfl⟩
  · exact absurd hp (h.control.busy_iff.1 hbusy)
  · exact execFill_inv h hbusy hp he
  · exact execPad_inv h hbusy hp he
  · exact execPadblk_inv h hbusy hp he
  · exact execExtract_inv h hbusy hp he
  · exact execSched_inv h hbusy hp he
  · exact execInitwv_inv h hbusy hp he
  · exact execRound_inv h hbusy hp he
  · exact execAccum_inv h hbusy hp he
  · exact execFinish_inv h hbusy hp he

/-- Settles O47: a step is an instruction of the host, the micro-operation of the phase register, an idle turn or a move of
the environment, and each keeps the invariant. -/
theorem stepKeepsTheInvariant : Obligations.StepKeepsTheInvariant := by
  unfold Obligations.StepKeepsTheInvariant
  intro s t h hstep
  rcases step_next hstep with ⟨i, s', hfetch, he⟩ | henv
  · obtain ⟨rest, rfl⟩ := fetch_run_state hfetch
    have hs' : { s with agenda := rest }.Inv := h.of_bare rfl
    rcases fetch_run_cases hfetch with hhost | ⟨hbusy, hphase⟩ | rfl
    · exact exec_host_inv hhost hs' he
    · exact exec_phase_inv hs' hbusy hphase he
    · cases he
      exact hs'
  · rcases fetch_environment henv with ⟨rest, -, rfl⟩ | ⟨answers, after, rest, -, rfl⟩
    · exact resetBlock_inv _
    · exact h.of_bare rfl

end Machine

end Sys2Proof
end

section
/-! PROOFS. The statements on the two ports: the register window, what stands while a computation runs or after it, and the
source's protocol (spec/20_memory.md). -/

namespace Sys2Proof.Machine

/-! ### A host access and its decoding (R86, R122) -/

/-- An offset is aligned in the access word exactly when it is a multiple of 8 (R86, R115). -/
theorem alignedOff_ofNat {n : ℕ} : alignedOff (BitVec.ofNat 8 n) = true ↔ n % 8 = 0 := by
  have hmask : (BitVec.ofNat 8 n &&& 7).toNat = n % 8 := by
    rw [BitVec.toNat_and, BitVec.toNat_ofNat, show (7 : BitVec 8).toNat = 2 ^ 3 - 1 from rfl,
      Nat.and_two_pow_sub_one_eq_mod]
    omega
  rw [alignedOff, beq_iff_eq, BitVec.toNat_eq, hmask]
  exact Iff.rfl

/-- The three low bits of an offset are 0 exactly when it is a multiple of 8 (R86, R122). -/
theorem extractLsb'_ofNat_eq_zero {n : ℕ} : (BitVec.ofNat 8 n).extractLsb' 0 3 = 0 ↔ n % 8 = 0 := by
  have hlow : ((BitVec.ofNat 8 n).extractLsb' 0 3).toNat = n % 8 := by
    rw [BitVec.extractLsb'_toNat, BitVec.toNat_ofNat, Nat.shiftRight_zero]
    omega
  rw [BitVec.toNat_eq, hlow]
  exact Iff.rfl

/-- The row of R122 that an access decodes to, by its direction and offset. -/
theorem BusAccess.decode_encoded (a : BusAccess) : decode a.encoded =
    if a.off % 8 ≠ 0 then .error (.misaligned (BitVec.ofNat 8 a.off))
    else if a.write = false then .ok (.rd (BitVec.ofNat 8 a.off))
    else if BitVec.ofNat 8 a.off = 0 then .ok (.wrCmd a.data)
    else .ok (.wr (BitVec.ofNat 8 a.off) a.data) := by
  have hoff : (BitVec.ofBool a.write ++ BitVec.ofNat 8 a.off).extractLsb' 0 8 = BitVec.ofNat 8 a.off :=
    BitVec.extractLsb'_append_eq_right ..
  have hwrite : (BitVec.ofBool a.write ++ BitVec.ofNat 8 a.off).getLsbD 8 = a.write := by
    rw [BitVec.getLsbD_append, if_neg (by decide)]
    simp
  simp only [BusAccess.encoded, decode, decodeBus, hoff, hwrite, ne_eq, extractLsb'_ofNat_eq_zero]

/-- A 64-bit access inside the window whose form decodes is the instruction it decodes to. -/
theorem fetchAccess_of_decode {a : BusAccess} {i : Instr} (s : State) (hwidth : a.width = 64) (hoff : a.off < 256)
    (hdecode : decode a.encoded = .ok i) : fetchAccess a s = .run i s := by
  rw [fetchAccess, if_neg (not_not.2 hwidth), if_neg (not_le.2 hoff), hdecode]

/-- An access of another width, at an offset that is no multiple of 8, or outside the window has no meaning (R86). -/
theorem fetchAccess_refused {a : BusAccess} (s : State) (h : a.width ≠ 64 ∨ a.off % 8 ≠ 0 ∨ 256 ≤ a.off) :
    ∃ r, fetchAccess a s = .refused r := by
  unfold fetchAccess
  split
  · exact ⟨_, rfl⟩
  · next hwidth =>
    split
    · exact ⟨_, rfl⟩
    · next hoff =>
      have halign : a.off % 8 ≠ 0 := (h.resolve_left hwidth).resolve_right hoff
      rw [a.decode_encoded, if_pos halign]
      exact ⟨_, rfl⟩

theorem atAligned_of_aligned {off : BitVec 8} (h : alignedOff off = true) (s : State) : atAligned off s = .next s :=
  if_pos h

/-- An access at a multiple of 8 decodes to an instruction that has a step (R122, R230, R237, R238). -/
theorem BusAccess.exists_exec_next {a : BusAccess} (halign : a.off % 8 = 0) :
    ∃ i, decode a.encoded = .ok i ∧ ∀ s, ∃ t, exec i s = .next t := by
  have haligned := alignedOff_ofNat.2 halign
  rw [a.decode_encoded, if_neg (not_not.2 halign)]
  split
  · exact ⟨_, rfl, fun s => ⟨_, atAligned_of_aligned haligned _⟩⟩
  · split
    · exact ⟨_, rfl, fun s => ⟨_, rfl⟩⟩
    · exact ⟨_, rfl, fun s => ⟨_, atAligned_of_aligned haligned _⟩⟩

/-! ### Steps on the host's turn -/

/-- A fetch that is refused has no step. -/
theorem step_of_refused {s : State} {r : Refusal} (h : fetch s = .refused r) : step s = .refused r := by
  unfold step
  rw [h]

/-- A step depends on what is fetched only. -/
theorem step_eq_of_fetch_eq {s t : State} (h : fetch s = fetch t) : step s = step t := by
  unfold step
  rw [h]

/-- Settles O11: a legal access decodes to an instruction with a step, and each illegal one is refused by the fetch. -/
theorem illegalAccessIsRefused : Obligations.IllegalAccessIsRefused := by
  unfold Obligations.IllegalAccessIsRefused
  intro s rest a hmove
  have hfetch : fetch s = fetchAccess a { s with agenda := rest } := fetch_of_moveNext hmove
  constructor
  · intro hwidth halign hoff
    obtain ⟨i, hdecode, hexec⟩ := BusAccess.exists_exec_next halign
    rw [step_of_run (hfetch.trans (fetchAccess_of_decode _ hwidth hoff hdecode))]
    exact hexec _
  · intro hillegal
    obtain ⟨r, hr⟩ := fetchAccess_refused { s with agenda := rest } hillegal
    exact ⟨r, step_of_refused (hfetch.trans hr)⟩

/-- A platform address in the window is the access at its offset (R95). -/
theorem fetchPlatform_inside {off : ℕ} (h : off < 256) (a : BusAccess) (s : State) :
    fetchPlatform (Config.regBase + off) a s = fetchAccess { a with off := off } s := by
  have hwindow : windowOffset (Config.regBase + off) = some off := by
    rw [windowOffset, if_pos (by omega), Nat.add_sub_cancel_left]
  rw [fetchPlatform, hwindow]

/-- A platform address outside the window is refused (R86, R95). -/
theorem fetchPlatform_outside {addr : ℕ} (h : addr < Config.regBase ∨ Config.regBase + 256 ≤ addr) (a : BusAccess)
    (s : State) : fetchPlatform addr a s = .refused .accessOutsideWindow := by
  have hwindow : windowOffset addr = none := if_neg (by omega)
  rw [fetchPlatform, hwindow]

/-- Settles O7: the fetch of a legal access, given by its offset or by its platform address, is the decoded instruction. -/
theorem stepRunsTheDecodedAccess : Obligations.StepRunsTheDecodedAccess := by
  unfold Obligations.StepRunsTheDecodedAccess
  intro s rest a i hmove hwidth hoff hdecode
  have hfetch : fetch s = fetchAccess a { s with agenda := rest } := by
    rcases hmove with hmove | ⟨b, hmove, hab⟩
    · exact fetch_of_moveNext hmove
    · rw [hab]
      exact (fetch_of_moveNext hmove).trans (fetchPlatform_inside hoff b _)
  exact step_of_run (hfetch.trans (fetchAccess_of_decode _ hwidth hoff hdecode))

/-- Settles O12: inside the window both moves fetch the same access, and outside it the fetch is refused. -/
theorem platformAddressReachesItsOffset : Obligations.PlatformAddressReachesItsOffset := by
  unfold Obligations.PlatformAddressReachesItsOffset
  intro s rest addr a hmove
  have hfetch : fetch s = fetchPlatform addr a { s with agenda := rest } := fetch_of_moveNext hmove
  constructor
  · rintro off hoff rfl
    have haccess : moveNext { s with agenda := .access { a with off := off } :: rest }
        (.access { a with off := off }) rest := .inl rfl
    exact step_eq_of_fetch_eq
      ((hfetch.trans (fetchPlatform_inside hoff a _)).trans (fetch_of_moveNext haccess).symm)
  · intro houtside
    exact step_of_refused (hfetch.trans (fetchPlatform_outside houtside a _))

/-! ### What stands between commands (R91) -/

/-- Settles O49: apart from an accepted START and a reset, a step without a computation is a read, a rejection, an idle turn,
or a move of the source's platform. -/
theorem publishedResultStands : Obligations.PublishedResultStands := by
  unfold Obligations.PublishedResultStands
  intro s t hbusy hdone hstep hstart hreset
  rcases step_next hstep with ⟨i, s', hfetch, hexec⟩ | henv
  · obtain ⟨rest, rfl⟩ := fetch_run_state hfetch
    rcases fetch_run_cases hfetch with hhost | ⟨hbusy', -⟩ | rfl
    · rcases fetch_host_next hfetch hexec hhost with rfl | ⟨r, rfl⟩ | rfl | ⟨haccept, -⟩
      · exact ⟨hdone, hbusy, rfl, rfl, rfl⟩
      · simp [hdone, hbusy]
      · exact ⟨hdone, hbusy, rfl, rfl, rfl⟩
      · exact absurd haccept hstart
    · simp [hbusy] at hbusy'
    · cases hexec
      exact ⟨hdone, hbusy, rfl, rfl, rfl⟩
  · rcases fetch_environment henv with ⟨rest, hmove, -⟩ | ⟨answers, after, rest, -, rfl⟩
    · exact absurd ⟨rest, hmove⟩ hreset
    · exact ⟨hdone, hbusy, rfl, rfl, rfl⟩

/-- A host instruction ends no computation: START is rejected while one is in flight (R33, R276). -/
theorem exec_host_busy {i : Instr} {s t : State} (hi : hostIssues i = true) (h : exec i s = .next t)
    (hbusy : s.busy = true) : t.busy = true := by
  rcases exec_host_next hi h with rfl | ⟨r, rfl⟩ | rfl | ⟨hidle, -⟩
  · exact hbusy
  · simpa using hbusy
  · exact hbusy
  · simp [hbusy] at hidle

/-- FILL goes on with the computation, or ends it with an engine error (R152, R272). -/
theorem execFill_busy {s t : State} (h : execFill s = .next t) : t.busy = s.busy ∨ (t.err = true ∧ t.done = false) := by
  rcases execFill_next h with ⟨-, rfl⟩ | ⟨-, -, ⟨-, rfl⟩ | ⟨r, rs, -, hfill⟩⟩
  · exact .inl rfl
  · exact .inl rfl
  · rcases fillFrom_next hfill with ⟨-, rfl⟩ | ⟨-, -, -, ⟨-, rfl⟩ | ⟨-, rfl⟩⟩
    · exact .inr ⟨rfl, rfl⟩
    · exact .inr ⟨rfl, rfl⟩
    · exact .inl rfl

theorem execPad_busy {s t : State} (h : execPad s = .next t) : t.busy = s.busy := by
  rcases execPad_next h with ⟨-, rfl⟩ | ⟨-, rfl⟩ | ⟨-, -, rfl⟩ <;> rfl

theorem execSched_busy {s t : State} (h : execSched s = .next t) : t.busy = s.busy := by
  obtain ⟨-, -, ⟨-, rfl⟩ | ⟨-, rfl⟩⟩ := execSched_next h <;> rfl

theorem execRound_busy {s t : State} (h : execRound s = .next t) : t.busy = s.busy := by
  obtain ⟨-, ⟨-, rfl⟩ | ⟨-, rfl⟩⟩ := execRound_next h <;> rfl

/-- The micro-operation of the phase register goes on with the computation, unless it is FINISH or a FILL that fails (R33,
R236). -/
theorem exec_phase_busy {i : Instr} {s t : State} (hphase : decodePhase s.phase = .ok i) (h : exec i s = .next t) :
    t.busy = s.busy ∨ (s.phase = 9 ∧ t.done = true ∧ t.err = s.err) ∨ (s.phase = 1 ∧ t.err = true ∧ t.done = false) := by
  rcases decodePhase_ok hphase with ⟨-, rfl⟩ | ⟨hp, rfl⟩ | ⟨-, rfl⟩ | ⟨-, rfl⟩ | ⟨-, rfl⟩ | ⟨-, rfl⟩ | ⟨-, rfl⟩ |
    ⟨-, rfl⟩ | ⟨-, rfl⟩ | ⟨hp, rfl⟩
  · cases h; exact .inl rfl
  · exact (execFill_busy h).imp id fun hfail => .inr ⟨hp, hfail⟩
  · exact .inl (execPad_busy h)
  · cases h; exact .inl rfl
  · cases h; exact .inl rfl
  · exact .inl (execSched_busy h)
  · cases h; exact .inl rfl
  · exact .inl (execRound_busy h)
  · cases h; exact .inl rfl
  · cases h; exact .inr (.inl ⟨hp, rfl, rfl⟩)

/-- Settles O50: no host instruction, idle turn or move of the source's platform ends a computation; of the
micro-operations, FINISH and a FILL that fails do. -/
theorem busyLastsUntilFinishOrError : Obligations.BusyLastsUntilFinishOrError := by
  unfold Obligations.BusyLastsUntilFinishOrError
  intro s t hbusy hstep hend
  have hne : t.busy ≠ s.busy := by simp [hbusy, hend]
  rcases step_next hstep with ⟨i, s', hfetch, hexec⟩ | henv
  · obtain ⟨rest, rfl⟩ := fetch_run_state hfetch
    rcases fetch_run_cases hfetch with hhost | ⟨-, hphase⟩ | rfl
    · exact absurd ((exec_host_busy hhost hexec hbusy).trans hbusy.symm) hne
    · exact .inr ((exec_phase_busy (s := { s with agenda := rest }) hphase hexec).resolve_left hne)
    · cases hexec
      exact absurd rfl hne
  · rcases fetch_environment henv with ⟨rest, hmove, -⟩ | ⟨answers, after, rest, -, rfl⟩
    · exact .inl ⟨rest, hmove⟩
    · exact absurd rfl hne

/-- What the host has been shown is in no register (R237). -/
@[simp] theorem registerValue_reads (s : State) (reads : List Word) (r : Register) :
    registerValue { s with reads := reads } r = registerValue s r := by
  cases r <;> rfl

/-- With a published result no register reads `any` (R49, R50). -/
theorem exists_registerValue_of_done {s : State} (h : s.done = true) (r : Register) : ∃ x, registerValue s r = some x := by
  cases r <;> simp [registerValue, h]

/-- RD of a register that has a value shows it (R237). -/
theorem exec_rd_of_some {off : BitVec 8} {s : State} {x : Word} (haligned : alignedOff off = true)
    (h : registerValue s (registerAt off) = some x) : exec (.rd off) s = .next { s with reads := x :: s.reads } := by
  rw [exec, execRd, atAligned_of_aligned haligned, readRegister_some h]

/-- Settles O21: the register has a value, and showing it does not change it. -/
theorem repeatedReadsAgree : Obligations.RepeatedReadsAgree := by
  unfold Obligations.RepeatedReadsAgree
  intro off s halign hvalue
  have haligned : alignedOff off = true := beq_iff_eq.2 halign
  obtain ⟨x, hx⟩ : ∃ x, registerValue s (registerAt off) = some x := by
    rcases hvalue with hdone | rfl
    · exact exists_registerValue_of_done hdone _
    · exact ⟨statusWord s, rfl⟩
  exact ⟨x, exec_rd_of_some haligned hx, exec_rd_of_some haligned ((registerValue_reads ..).trans hx)⟩

/-! ### The source's protocol (R82, R83) -/

/-- While the input goes on and there is room, FILL handles the source's answer (R151, R152). -/
theorem execFill_of_answerNext {s : State} {r : SrcResponse} {rs : List SrcResponse} (heoi : s.eoiSeen = false)
    (hroom : s.cnt.toNat < s.var.blockBytes) (hanswer : answerNext s r rs) : execFill s = fillFrom r rs s := by
  have hrequest : requestSize s ≠ 0 := (Nat.sub_pos_of_lt hroom).ne'
  simp only [execFill, heoi, hrequest, nextAnswer_of_answerNext hanswer, Bool.false_eq_true, if_false]

/-- Settles O24: FILL handles the answer, which breaks the protocol and is no failure. -/
theorem sourceProtocolViolationIsRefused : Obligations.SourceProtocolViolationIsRefused := by
  unfold Obligations.SourceProtocolViolationIsRefused
  intro s r rest heoi hroom hanswer hfail hbreaks
  rw [exec, execFill_of_answerNext heoi hroom hanswer, fillFrom, if_neg (by simp [hfail]), requestSize, if_pos hbreaks]

end Sys2Proof.Machine
end

section
/-! PROOFS. The statements on the encoded forms: the command words, the access words and the phase codes, each decoder
against its rows and its encoder, and the faults that guard the decoded phases (spec/30_encoding.md). -/

namespace Sys2Proof.Machine

/-! ### Command words (R111, R121) -/

/-- The START row of R121: under its mask only bit 4 is free, so it selects the two words of START. -/
theorem startRow_iff {x : Word} : x &&& 0xFFFFFFFFFFFFFFEF = 1 ↔ ∃ v, x = startWord v := by
  constructor
  · intro hrow
    have hsplit : x = 1 ||| (if x.getLsbD 4 then BitVec.twoPow 64 4 else 0) :=
      calc x = x &&& (0xFFFFFFFFFFFFFFEF ||| BitVec.twoPow 64 4) := by
            rw [show (0xFFFFFFFFFFFFFFEF ||| BitVec.twoPow 64 4 : Word) = BitVec.allOnes 64 from by decide,
              BitVec.and_allOnes]
        _ = 1 ||| (if x.getLsbD 4 then BitVec.twoPow 64 4 else 0) := by
            rw [BitVec.and_or_distrib_left, hrow, BitVec.and_twoPow]
            rfl
    refine ⟨variantOfBit (x.getLsbD 4), hsplit.trans ?_⟩
    cases x.getLsbD 4 <;> decide
  · rintro ⟨v, rfl⟩
    cases v <;> decide

theorem variantOfBit_bitOfVariant (v : Variant) : variantOfBit (bitOfVariant v) = v := by cases v <;> rfl

theorem startWord_bit (v : Variant) : (startWord v).getLsbD 4 = bitOfVariant v := by cases v <;> decide

theorem decodeCmd_startWord (v : Variant) : decodeCmd (startWord v) = .start v := by cases v <;> decide

theorem decodeCmd_eq_start_iff {x : Word} {v : Variant} : decodeCmd x = .start v ↔ x = startWord v :=
  ⟨decodeCmd_start, fun h => h ▸ decodeCmd_startWord v⟩

theorem decodeCmd_eq_nop_iff {x : Word} : decodeCmd x = .nop ↔ x = 0 := by
  unfold decodeCmd
  split
  · next h0 => exact iff_of_true rfl h0
  · next h0 => split <;> exact iff_of_false nofun h0

/-- The legal command words are those of NOP and START (R47). -/
theorem legalCmd_iff {x : Word} : legalCmd x = true ↔ x = 0 ∨ ∃ v, x = startWord v := by
  rw [legalCmd, Bool.or_eq_true, beq_iff_eq, beq_iff_eq, startRow_iff]

/-- The words that are not legal are rejected, each as itself (R121). -/
theorem decodeCmd_eq_reject_iff {x : Word} : decodeCmd x = .reject x ↔ legalCmd x = false := by
  rw [← Bool.not_eq_true, legalCmd_iff, ← decodeCmd_eq_nop_iff]
  simp only [← decodeCmd_eq_start_iff]
  rcases decodeCmd_cases x with h | ⟨v, h⟩ | h <;> simp [h]

/-- The START row with V in bit 4, as one of its words (R111, R121). -/
theorem startRow_bit_iff {x : Word} {v : Variant} :
    (x &&& 0xFFFFFFFFFFFFFFEF = 1 ∧ x.getLsbD 4 = bitOfVariant v) ↔ x = startWord v := by
  rw [startRow_iff]
  constructor
  · rintro ⟨⟨w, rfl⟩, hbit⟩
    rw [startWord_bit] at hbit
    rw [← variantOfBit_bitOfVariant w, hbit, variantOfBit_bitOfVariant]
  · rintro rfl
    exact ⟨⟨v, rfl⟩, startWord_bit v⟩

/-- Settles O4: each row selects the words that decode to its command, and a word of neither row is rejected. -/
theorem commandDecoderIsTotal : Obligations.CommandDecoderIsTotal := by
  unfold Obligations.CommandDecoderIsTotal
  intro x
  have hmask : x &&& 0xFFFFFFFFFFFFFFFF = x := BitVec.and_allOnes
  rw [hmask]
  refine ⟨decodeCmd_eq_nop_iff, ?_, ?_, ?_, ?_⟩
  · exact decodeCmd_eq_start_iff.trans startRow_bit_iff.symm
  · exact decodeCmd_eq_start_iff.trans startRow_bit_iff.symm
  · rw [decodeCmd_eq_reject_iff, ← Bool.not_eq_true, legalCmd_iff, ← startRow_iff, not_or]
  · rcases decodeCmd_cases x with h | ⟨v, h⟩ | h
    · exact .inl h
    · cases v
      · exact .inr (.inl h)
      · exact .inr (.inr (.inl h))
    · exact .inr (.inr (.inr h))

/-! ### Access words (R115, R122) -/

/-- The direction and the offset are all of an access word (R115). -/
theorem exists_access_append (access : BitVec 9) : ∃ write off, access = BitVec.ofBool write ++ (off : BitVec 8) := by
  have hbit : ∀ d : BitVec 1, d = BitVec.ofBool (d.getLsbD 0) := by decide
  refine ⟨(access.extractLsb' 8 1).getLsbD 0, access.extractLsb' 0 8, ?_⟩
  rw [← hbit (access.extractLsb' 8 1), BitVec.extractLsb'_append_extractLsb'_eq_extractLsb' (by rfl : 8 = 0 + 8)]
  exact BitVec.extractLsb'_eq_self.symm

/-- The row of R122 by the direction and the offset. -/
theorem decodeBus_append (write : Bool) (off : BitVec 8) (data : Word) : decodeBus (BitVec.ofBool write ++ off) data =
    if alignedOff off = false then .error (.misaligned off)
    else if write = false then .ok (.rd off)
    else if off = 0 then .ok (.wrCmd data)
    else .ok (.wr off data) := by
  have haligned := alignedOff_ofNat (n := off.toNat)
  rw [BitVec.ofNat_toNat, BitVec.setWidth_eq] at haligned
  have hrow := BusAccess.decode_encoded ⟨write, off.toNat, 64, data⟩
  simp only [BusAccess.encoded, decode, BitVec.ofNat_toNat, BitVec.setWidth_eq] at hrow
  simp only [hrow, ne_eq, ← haligned, Bool.not_eq_true]

theorem decodeBus_read {off : BitVec 8} (h : alignedOff off = true) (data : Word) :
    decodeBus (BitVec.ofBool false ++ off) data = .ok (.rd off) := by
  rw [decodeBus_append, if_neg (by simp [h]), if_pos rfl]

theorem decodeBus_write {off : BitVec 8} (h : alignedOff off = true) (hne : off ≠ 0) (data : Word) :
    decodeBus (BitVec.ofBool true ++ off) data = .ok (.wr off data) := by
  rw [decodeBus_append, if_neg (by simp [h]), if_neg nofun, if_neg hne]

/-- Two concatenations at the same seam are equal part by part. -/
theorem append_eq_append_iff {n m : ℕ} {x x' : BitVec n} {y y' : BitVec m} :
    x ++ y = x' ++ y' ↔ x = x' ∧ y = y' := by
  constructor
  · intro h
    have hlow : y = y' := by simpa only [BitVec.extractLsb'_append_eq_right] using congrArg (BitVec.extractLsb' 0 m) h
    subst hlow
    exact ⟨(BitVec.append_left_inj y).1 h, rfl⟩
  · rintro ⟨rfl, rfl⟩
    rfl

theorem ofBool_eq_ofBool_iff {a b : Bool} : BitVec.ofBool a = BitVec.ofBool b ↔ a = b := by
  cases a <;> cases b <;> decide

/-- The mask 0x107 keeps the direction and the three low bits of the offset (R122). -/
theorem accessRow_iff {write d : Bool} {off : BitVec 8} :
    (BitVec.ofBool write ++ off) &&& 0x107 = BitVec.ofBool d ++ (0 : BitVec 8) ↔
      write = d ∧ alignedOff off = true := by
  rw [show (0x107 : BitVec 9) = BitVec.allOnes 1 ++ (7 : BitVec 8) from rfl, BitVec.and_append, append_eq_append_iff,
    BitVec.and_allOnes, ofBool_eq_ofBool_iff, alignedOff, beq_iff_eq]

/-- The mask 0x1FF keeps the whole access word (R122). -/
theorem wrCmdRow_iff {write : Bool} {off : BitVec 8} :
    (BitVec.ofBool write ++ off) &&& 0x1FF = 0x100 ↔ write = true ∧ off = 0 := by
  rw [show (0x1FF : BitVec 9) = BitVec.allOnes 9 from rfl, BitVec.and_allOnes,
    show (0x100 : BitVec 9) = BitVec.ofBool true ++ (0 : BitVec 8) from rfl, append_eq_append_iff, ofBool_eq_ofBool_iff]

/-- Settles O5: each row is a direction and an alignment, with offset 0 for WR_CMD, and these are what the
decoder asks. -/
theorem busDecoderFollowsItsRows : Obligations.BusDecoderFollowsItsRows := by
  unfold Obligations.BusDecoderFollowsItsRows
  intro access data
  obtain ⟨write, off, rfl⟩ := exists_access_append access
  have hoff : (BitVec.ofBool write ++ off).extractLsb' 0 8 = off := BitVec.extractLsb'_append_eq_right ..
  have hread : (BitVec.ofBool write ++ off) &&& 0x107 = 0x000 ↔ write = false ∧ alignedOff off = true :=
    accessRow_iff (d := false)
  have hwrite : (BitVec.ofBool write ++ off) &&& 0x107 = 0x100 ↔ write = true ∧ alignedOff off = true :=
    accessRow_iff (d := true)
  simp only [ne_eq, hread, hwrite, wrCmdRow_iff, hoff, decode]
  refine ⟨?_, ?_, ?_, ?_⟩
  · rintro ⟨rfl, haligned⟩
    exact decodeBus_read haligned data
  · rintro ⟨rfl, rfl⟩
    exact decodeBus_append true 0 data
  · rintro ⟨rfl, haligned⟩ hcmd
    exact decodeBus_write haligned (fun h0 => hcmd ⟨rfl, h0⟩) data
  · intro hrd hwr
    have hmisaligned : alignedOff off = false := by
      cases write
      · simpa using hrd
      · simpa using hwr
    exact ⟨off, (decodeBus_append write off data).trans (if_pos hmisaligned)⟩

/-! ### Decoding against encoding (R110) -/

theorem wf_wr_iff {off : BitVec 8} {data : Word} :
    (Instr.wr off data).wf = true ↔ alignedOff off = true ∧ off ≠ 0 := by
  rw [Instr.wf, Bool.and_eq_true, bne_iff_ne]

/-- Settles O2: a command by its word, an access by its direction and offset, a phase by its code. -/
theorem decodeOfEncodeIsIdentity : Obligations.DecodeOfEncodeIsIdentity := by
  unfold Obligations.DecodeOfEncodeIsIdentity
  intro i hwf
  cases i with
  | start v => exact congrArg Except.ok (decodeCmd_startWord v)
  | reject x => exact congrArg Except.ok (decodeCmd_eq_reject_iff.2 (by simpa [Instr.wf] using hwf))
  | rd off => exact decodeBus_read hwf 0
  | wrCmd data => exact decodeBus_append true 0 data
  | wr off data =>
    obtain ⟨haligned, hne⟩ := wf_wr_iff.1 hwf
    exact decodeBus_write haligned hne data
  | nop | idle | fill | pad | padblk | extract | sched | initwv | round | accum | finish => rfl

/-- A command word decodes to a well-formed command, whose word it is (R121). -/
theorem decodeCmd_encode (x : Word) : (decodeCmd x).wf = true ∧ encode (decodeCmd x) = .cmd x := by
  rcases decodeCmd_cases x with h | ⟨v, h⟩ | h
  · rw [h, decodeCmd_eq_nop_iff.1 h]
    exact ⟨rfl, rfl⟩
  · rw [h, decodeCmd_start h]
    exact ⟨rfl, rfl⟩
  · rw [h]
    exact ⟨by simp [Instr.wf, decodeCmd_eq_reject_iff.1 h], rfl⟩

/-- An access that decodes is a read at its offset, or a write that encodes as it was (R115, R122). -/
theorem decodeBus_encode {write : Bool} {off : BitVec 8} {data : Word} {i : Instr}
    (h : decodeBus (BitVec.ofBool write ++ off) data = .ok i) :
    i.wf = true ∧ ((write = false ∧ i = .rd off) ∨ encode i = .bus (BitVec.ofBool write ++ off) data) := by
  rw [decodeBus_append] at h
  split at h
  · cases h
  · next haligned =>
    rw [Bool.not_eq_false] at haligned
    split at h
    · next hread =>
      cases h
      exact ⟨haligned, .inl ⟨hread, rfl⟩⟩
    · next hwrite =>
      rw [Bool.not_eq_false] at hwrite
      subst hwrite
      split at h
      · next hcmd =>
        cases h
        exact ⟨rfl, .inr (hcmd ▸ rfl)⟩
      · next hne =>
        cases h
        exact ⟨wf_wr_iff.2 ⟨haligned, hne⟩, .inr rfl⟩

/-- A phase code that decodes is the code of its micro-operation (R116). -/
theorem decodePhase_encode {c : BitVec 4} {i : Instr} (h : decodePhase c = .ok i) :
    i.wf = true ∧ encode i = .phase c := by
  rcases decodePhase_ok h with ⟨rfl, rfl⟩ | ⟨rfl, rfl⟩ | ⟨rfl, rfl⟩ | ⟨rfl, rfl⟩ | ⟨rfl, rfl⟩ | ⟨rfl, rfl⟩ | ⟨rfl, rfl⟩ |
    ⟨rfl, rfl⟩ | ⟨rfl, rfl⟩ | ⟨rfl, rfl⟩ <;> exact ⟨rfl, rfl⟩

/-- Settles O3: form by form; only a read does not encode its data field. -/
theorem encodeOfDecodeIsIdentity : Obligations.EncodeOfDecodeIsIdentity := by
  unfold Obligations.EncodeOfDecodeIsIdentity
  intro e i hdecode
  cases e with
  | cmd x =>
    cases hdecode
    exact (decodeCmd_encode x).imp id .inl
  | bus access data =>
    obtain ⟨write, off, rfl⟩ := exists_access_append access
    obtain ⟨hwf, ⟨rfl, rfl⟩ | hencode⟩ := decodeBus_encode hdecode
    · exact ⟨hwf, .inr ⟨off, data, rfl, rfl⟩⟩
    · exact ⟨hwf, .inl hencode⟩
  | phase c => exact (decodePhase_encode hdecode).imp id .inl

/-- Settles O1: the decoders compute. -/
theorem writtenOutWordsDecode : Obligations.WrittenOutWordsDecode :=
  ⟨rfl, rfl, rfl, rfl, rfl, rfl, rfl, rfl, rfl, rfl⟩

/-! ### The engine's turn (R123) -/

/-- With a computation in flight, the engine's turn is the micro-operation its phase decodes to. -/
theorem fetchEngine_of_decode {s : State} {i : Instr} (hbusy : s.busy = true) (hphase : decode (.phase s.phase) = .ok i) :
    fetchEngine s = .run i s := by
  rw [fetchEngine, if_pos hbusy, hphase]

/-- With a computation in flight, a phase code that names no micro-operation is the engine's guard fault. -/
theorem fetchEngine_reserved {s : State} (hbusy : s.busy = true) (hphase : 10 ≤ s.phase.toNat) :
    fetchEngine s = .fault (.reservedPhase s.phase) := by
  rw [fetchEngine, if_pos hbusy, decode, decodePhase_reserved hphase]

/-- Settles O6: the fetch of the engine's turn is the decoded phase. -/
theorem stepRunsTheDecodedPhase : Obligations.StepRunsTheDecodedPhase := by
  unfold Obligations.StepRunsTheDecodedPhase
  intro s rest i hturn hbusy hphase
  have hfetch : fetch s = fetchEngine { s with agenda := rest } := fetch_of_moveNext hturn
  exact step_of_run (hfetch.trans (fetchEngine_of_decode hbusy hphase))

/-! ### Where a fault comes from (R123; log 13) -/

/-- A phase code that decodes to nothing is one of 10..15 (R116, R123). -/
theorem decodePhase_error {c : BitVec 4} {e : DecodeError} (h : decodePhase c = .error e) : 10 ≤ c.toNat := by
  have hcodes : ∀ c : BitVec 4, (decodePhase c).toOption = none → 10 ≤ c.toNat := by decide
  exact hcodes c (by rw [h]; rfl)

/-- The fetch faults in one way only: on a reserved phase code, with a computation in flight. -/
theorem fetchEngine_fault {s : State} {f : Fault} (h : fetchEngine s = .fault f) :
    s.busy = true ∧ 10 ≤ s.phase.toNat := by
  unfold fetchEngine decode at h
  split at h
  · next hbusy =>
    split at h
    · cases h
    · next e hphase => exact ⟨hbusy, decodePhase_error hphase⟩
  · cases h

theorem fetchAccess_ne_fault (a : BusAccess) (s : State) (f : Fault) : fetchAccess a s ≠ .fault f := by
  unfold fetchAccess
  split
  · nofun
  · split
    · nofun
    · split <;> nofun

theorem fetch_fault {s : State} {f : Fault} (h : fetch s = .fault f) : s.busy = true ∧ 10 ≤ s.phase.toNat := by
  obtain ⟨e, rest, hmove⟩ := exists_moveNext s
  rw [fetch_of_moveNext hmove] at h
  cases e with
  | engine => exact fetchEngine_fault (s := { s with agenda := rest }) h
  | access a => exact absurd h (fetchAccess_ne_fault a _ f)
  | platform addr a =>
    simp only [fetchEvent, fetchPlatform] at h
    split at h
    · exact absurd h (fetchAccess_ne_fault _ _ f)
    · cases h
  | command x => cases h
  | reset => cases h
  | supply answers after => cases h

theorem atAligned_ne_fault (off : BitVec 8) (s : State) (f : Fault) : atAligned off s ≠ .fault f := by
  unfold atAligned
  split <;> nofun

/-- FILL's handling of an answer has no fault: it steps, or refuses the answer (R83, R152). -/
theorem fillFrom_ne_fault (r : SrcResponse) (rs : List SrcResponse) (s : State) (f : Fault) :
    fillFrom r rs s ≠ .fault f := by
  unfold fillFrom
  split
  · nofun
  · split
    · nofun
    · split <;> nofun

theorem execFill_fault {s : State} {f : Fault} (h : execFill s = .fault f) : requestSize s = 0 ∧ f = .requestSize := by
  unfold execFill at h
  split at h
  · cases h
  · split at h
    · next hroom =>
      cases h
      exact ⟨hroom, rfl⟩
    · split at h
      · cases h
      · exact absurd h (fillFrom_ne_fault _ _ s f)

theorem execPad_fault {s : State} {f : Fault} (h : execPad s = .fault f) :
    s.var.blockBytes < s.cnt.toNat ∧ f = .blockIndex := by
  unfold execPad at h
  rcases padCase_cases s.var s.cnt.toNat with ⟨hcase, -⟩ | ⟨hcase, -⟩ | ⟨hcase, -⟩ | ⟨hcase, hover⟩ <;>
    rw [hcase] at h
  case inr.inr.inr =>
    cases h
    exact ⟨hover, rfl⟩
  all_goals cases h

theorem execSched_fault {s : State} {f : Fault} (h : execSched s = .fault f) :
    (s.t.toNat < 16 ∨ s.var.rounds ≤ s.t.toNat) ∧ f = .scheduleIndex := by
  unfold execSched at h
  split at h
  · next hrange =>
    cases h
    exact ⟨hrange, rfl⟩
  · dsimp only at h
    split at h <;> cases h

theorem execRound_fault {s : State} {f : Fault} (h : execRound s = .fault f) :
    s.var.rounds ≤ s.t.toNat ∧ f = .roundIndex := by
  unfold execRound at h
  split at h
  · next hrange =>
    cases h
    exact ⟨hrange, rfl⟩
  · split at h <;> cases h

/-- An instruction faults in four ways: FILL, PAD, SCHED or ROUND with an operand outside its range (log 13). -/
theorem exec_fault {i : Instr} {s : State} {f : Fault} (h : exec i s = .fault f) :
    (i = .fill ∧ requestSize s = 0 ∧ f = .requestSize) ∨
      (i = .pad ∧ s.var.blockBytes < s.cnt.toNat ∧ f = .blockIndex) ∨
      (i = .sched ∧ (s.t.toNat < 16 ∨ s.var.rounds ≤ s.t.toNat) ∧ f = .scheduleIndex) ∨
      (i = .round ∧ s.var.rounds ≤ s.t.toNat ∧ f = .roundIndex) := by
  cases i with
  | fill => exact .inl ⟨rfl, execFill_fault h⟩
  | pad => exact .inr (.inl ⟨rfl, execPad_fault h⟩)
  | sched => exact .inr (.inr (.inl ⟨rfl, execSched_fault h⟩))
  | round => exact .inr (.inr (.inr ⟨rfl, execRound_fault h⟩))
  | rd off => exact absurd h (atAligned_ne_fault off _ f)
  | wr off data => exact absurd h (atAligned_ne_fault off _ f)
  | _ => cases h

/-- No instruction raises the fault of the engine's fetch. -/
theorem exec_ne_reservedPhase (i : Instr) (s : State) (c : BitVec 4) : exec i s ≠ .fault (.reservedPhase c) := by
  intro h
  rcases exec_fault h with ⟨-, -, hf⟩ | ⟨-, -, hf⟩ | ⟨-, -, hf⟩ | ⟨-, -, hf⟩ <;> cases hf

/-- A fault comes from the fetch or from the instruction fetched. -/
theorem step_fault {s : State} {f : Fault} (h : step s = .fault f) :
    fetch s = .fault f ∨ ∃ i s', fetch s = .run i s' ∧ exec i s' = .fault f := by
  unfold step at h
  split at h
  · next i s' hfetch => exact .inr ⟨i, s', hfetch, h⟩
  · cases h
  · next hfetch =>
    cases h
    exact .inl hfetch
  · cases h

/-- Settles O9: a reserved code faults in the fetch, and no instruction raises that fault itself. -/
theorem reservedPhaseFaults : Obligations.ReservedPhaseFaults := by
  unfold Obligations.ReservedPhaseFaults
  intro s rest hturn hbusy
  constructor
  · intro hphase
    have hfetch : fetch s = fetchEngine { s with agenda := rest } := fetch_of_moveNext hturn
    have hfault := hfetch.trans (fetchEngine_reserved hbusy hphase)
    unfold step
    rw [hfault]
  · intro hstep
    rcases step_fault hstep with hfetch | ⟨i, s', -, hexec⟩
    · exact (fetch_fault hfetch).2
    · exact absurd hexec (exec_ne_reservedPhase i s' _)

/-! ### No fault in a state of the invariant -/

/-- In a state of the invariant the operands of the micro-operation are in range (R32, R35, R151). -/
theorem State.Inv.exec_phase_ne_fault {i : Instr} {s : State} (h : s.Inv) (hphase : decodePhase s.phase = .ok i)
    (f : Fault) : exec i s ≠ .fault f := by
  intro hexec
  have hcode := decodePhase_ok hphase
  rcases exec_fault hexec with ⟨rfl, hroom, -⟩ | ⟨rfl, hover, -⟩ | ⟨rfl, hrange, -⟩ | ⟨rfl, hrange, -⟩
  · have := h.padding.fill_room (by simpa using hcode)
    rw [requestSize] at hroom
    omega
  · exact absurd h.padding.cnt_le (not_le.2 hover)
  · have := h.index.sched (by simpa using hcode)
    omega
  · have := h.index.round (by simpa using hcode)
    omega

/-- Settles O48: the phase code is legal, so the fetch does not fault; a host instruction has no fault, and the operands of
the micro-operation are in range. -/
theorem invariantExcludesEveryFault : Obligations.InvariantExcludesEveryFault := by
  unfold Obligations.InvariantExcludesEveryFault
  intro s f h hstep
  rcases step_fault hstep with hfetch | ⟨i, s', hfetch, hexec⟩
  · exact absurd h.control.phase_legal (not_le.2 (fetch_fault hfetch).2)
  · obtain ⟨rest, rfl⟩ := fetch_run_state hfetch
    have hs' : { s with agenda := rest }.Inv := h.of_bare rfl
    rcases fetch_run_cases hfetch with hhost | ⟨-, hphase⟩ | rfl
    · rcases exec_fault hexec with ⟨rfl, -⟩ | ⟨rfl, -⟩ | ⟨rfl, -⟩ | ⟨rfl, -⟩ <;> cases hhost
    · exact hs'.exec_phase_ne_fault hphase f hexec
    · cases hexec

end Sys2Proof.Machine
end

section
/-! PROOFS. The statements on the word extractor and on what the word steps leave alone (spec/41_word_extractor.md,
spec/43_scheduler.md, spec/44_compressor.md, spec/45_digest_driver.md). -/

namespace Sys2Proof.Machine

/-! ### The words of the block (R140) -/

theorem Memory.readList_getD (m : Memory) (a : ℕ) {j k : ℕ} (hj : j < k) :
    (Memory.readList m a k).getD j 0 = Memory.read m (a + j) := by
  rw [List.getD_eq_getElem _ _ (by rwa [Memory.readList_length])]
  simp [Memory.readList]

/-- A word of the block is the sum of R12 over its bytes in the buffer (R140). -/
theorem blockWord_toNat (v : Variant) (m : Memory) (i : ℕ) : (blockWord v m i).toNat =
    ∑ j ∈ Finset.range v.wordBytes,
      (Memory.read m (i * v.wordBytes + j)).toNat * 2 ^ (8 * (v.wordBytes - 1 - j)) := by
  have hk : v.wordBytes ≤ 8 := by cases v <;> decide
  rw [blockWord, beDecode_toNat _ (by rwa [Memory.readList_length]), Memory.readList_length]
  refine Finset.sum_congr rfl fun j hj => ?_
  rw [Memory.readList_getD m _ (Finset.mem_range.mp hj)]

/-! ### The schedule after EXTRACT (R141) -/

theorem extracted_getElem_of_lt (s : State) {i : Fin 80} (hi : i.val < 16) :
    (extracted s)[i] = blockWord s.var s.blk i.val := by
  rw [Fin.getElem_fin, extracted, Vector.getElem_ofFn, if_pos hi]

theorem extracted_getElem_of_le (s : State) {i : Fin 80} (hi : 16 ≤ i.val) : (extracted s)[i] = s.W[i] := by
  rw [Fin.getElem_fin, extracted, Vector.getElem_ofFn, if_neg (not_lt.2 hi), Fin.getElem_fin]

/-- Settles O29: the first 16 words are the block's, and the others are as before. -/
theorem extractLoadsTheBlockWords : Obligations.ExtractLoadsTheBlockWords := by
  unfold Obligations.ExtractLoadsTheBlockWords
  refine fun s => ⟨extracted s, rfl, fun i hi => ?_, fun i hi => extracted_getElem_of_le s hi⟩
  rw [extracted_getElem_of_lt s hi, blockWord_toNat]

/-! ### The word steps -/

/-- The instructions that keep the block buffer and ask the source for nothing (R141, R186, R207, R208, R209, R234, R235). -/
abbrev wordSteps : List Instr :=
  [.extract, .sched, .initwv, .round, .accum, .finish, .idle]

/-- What each word step writes beside the phase and the index. -/
theorem exec_word_next {i : Instr} {s t : State} (hi : i ∈ wordSteps) (h : exec i s = .next t) :
    ∃ (p : BitVec 4) (n : BitVec 7),
      (i = .extract ∧ t = { s with W := extracted s, t := n, phase := p }) ∨
      (i = .sched ∧ t = { s with W := s.W.setIfInBounds s.t.toNat (nextScheduleWord s), t := n, phase := p }) ∨
      (i = .initwv ∧ t = { s with wv := s.H, t := n, phase := p }) ∨
      (i = .round ∧ t = { s with wv := roundWorking s, t := n, phase := p }) ∨
      (i = .accum ∧ t = { s with
        H := accumulated s, cnt := if s.pstate = .reading then 0 else s.cnt, t := n, phase := p }) ∨
      (i = .finish ∧ t = { s with done := true, busy := false, t := n, phase := p }) ∨
      (i = .idle ∧ t = { s with t := n, phase := p }) := by
  refine ⟨t.phase, t.t, ?_⟩
  simp only [wordSteps, List.mem_cons, List.not_mem_nil, or_false] at hi
  rcases hi with rfl | rfl | rfl | rfl | rfl | rfl | rfl <;>
    simp only [reduceCtorEq, true_and, false_and, or_false, false_or]
  · cases h; rfl
  · obtain ⟨-, -, ⟨-, rfl⟩ | ⟨-, rfl⟩⟩ := execSched_next h <;> rfl
  · cases h; rfl
  · obtain ⟨-, ⟨-, rfl⟩ | ⟨-, rfl⟩⟩ := execRound_next h <;> rfl
  · cases h; rfl
  · cases h; rfl
  · cases h; rfl

/-- A field that is no word step's destination is as before. -/
theorem exec_word_eq {i : Instr} {s t : State} (hi : i ∈ wordSteps) (h : exec i s = .next t) :
    ∃ phase index busy done cnt H wv W, t = { s with
      phase := phase, t := index, busy := busy, done := done, cnt := cnt, H := H, wv := wv, W := W } := by
  obtain ⟨p, n, ⟨-, rfl⟩ | ⟨-, rfl⟩ | ⟨-, rfl⟩ | ⟨-, rfl⟩ | ⟨-, rfl⟩ | ⟨-, rfl⟩ | ⟨-, rfl⟩⟩ := exec_word_next hi h <;>
    exact ⟨_, _, _, _, _, _, _, _, rfl⟩

/-- The destinations of the word steps: each of these fields is written by the steps named and by no other. -/
theorem exec_word_destinations {i : Instr} {s t : State} (hi : i ∈ wordSteps) (h : exec i s = .next t) :
    (i ≠ .accum → t.cnt = s.cnt ∧ t.H = s.H) ∧ (i ≠ .finish → t.busy = s.busy ∧ t.done = s.done) ∧
      (i ≠ .initwv → i ≠ .round → t.wv = s.wv) ∧ (i ≠ .extract → i ≠ .sched → t.W = s.W) := by
  obtain ⟨p, n, ⟨rfl, rfl⟩ | ⟨rfl, rfl⟩ | ⟨rfl, rfl⟩ | ⟨rfl, rfl⟩ | ⟨rfl, rfl⟩ | ⟨rfl, rfl⟩ | ⟨rfl, rfl⟩⟩ :=
    exec_word_next hi h <;> simp

/-- SCHED keeps every schedule word but the one at `t` (R186). -/
theorem execSched_W_of_ne {s t : State} (h : execSched s = .next t) {n : Fin 80} (hn : n.val ≠ s.t.toNat) :
    t.W[n] = s.W[n] := by
  have hW : t.W = s.W.setIfInBounds s.t.toNat (nextScheduleWord s) := by
    obtain ⟨-, -, ⟨-, rfl⟩ | ⟨-, rfl⟩⟩ := execSched_next h <;> rfl
  rw [hW, Fin.getElem_fin, Vector.getElem_setIfInBounds_ne n.isLt hn.symm, Fin.getElem_fin]

/-- EXTRACT keeps every schedule word from 16 on (R141). -/
theorem execExtract_W_of_le {s t : State} (h : execExtract s = .next t) {n : Fin 80} (hn : 16 ≤ n.val) :
    t.W[n] = s.W[n] := by
  cases h
  exact extracted_getElem_of_le s hn

/-- Settles O43: what each word step writes is listed in `exec_word_next`; the fields it may not write are as before, and of
the schedule EXTRACT and SCHED write their own words only. -/
theorem wordStepsFrame : Obligations.WordStepsFrame := by
  unfold Obligations.WordStepsFrame
  intro i s t hi h
  have hextract : i = .extract → ∀ n : Fin 80, 16 ≤ n.val → t.W[n] = s.W[n] := by
    rintro rfl n hn
    exact execExtract_W_of_le h hn
  have hsched : i = .sched → ∀ n : Fin 80, n.val ≠ s.t.toNat → t.W[n] = s.W[n] := by
    rintro rfl n hn
    exact execSched_W_of_ne h hn
  obtain ⟨hdigest, hflags, hwv, hW⟩ := exec_word_destinations hi h
  obtain ⟨phase, index, busy, done, cnt, H, wv, W, rfl⟩ := exec_word_eq hi h
  exact ⟨fun _ => rfl, ⟨rfl, rfl, rfl, rfl, rfl, rfl, rfl⟩, rfl, rfl, rfl, hdigest, rfl, rfl, rfl, rfl, hflags, hwv, hW,
    hextract, hsched⟩

end Sys2Proof.Machine
end

section
/-! PROOFS. The statements on the padder: FILL, PAD, PADBLK and the padded message (spec/42_padder.md). -/

namespace Sys2Proof

/-! ### The padded message (R159) -/

theorem Variant.lengthBits_eq (v : Variant) : v.lengthBits = 8 * v.lengthBytes := by cases v <;> rfl

/-- The sum of R12 over the `k` encoded bytes of a value, for the length field of either variant. -/
theorem beBytes_sum (k : ℕ) (x : BitVec 128) :
    ∑ j ∈ Finset.range k, ((beBytes k x).getD j 0).toNat * 256 ^ (k - 1 - j) = x.toNat % 2 ^ (8 * k) := by
  induction k generalizing x with
  | zero => simp [Nat.mod_one]
  | succ k ih =>
    have hinit : ∀ j ∈ Finset.range k, ((beBytes (k + 1) x).getD j 0).toNat * 256 ^ (k + 1 - 1 - j) =
        ((beBytes k (x >>> 8)).getD j 0).toNat * 256 ^ (k - 1 - j) * 256 := fun j hj => by
      have hj := Finset.mem_range.mp hj
      rw [beBytes_succ, List.getD_append _ _ _ _ (by rwa [beBytes_length]), mul_assoc,
        show k + 1 - 1 - j = k - 1 - j + 1 by omega, pow_succ]
    have hlast : (beBytes (k + 1) x).getD k 0 = x.setWidth 8 := by
      rw [beBytes_succ, List.getD_append_right _ _ _ _ (by rw [beBytes_length]), beBytes_length, Nat.sub_self]
      rfl
    rw [Finset.sum_range_succ, Finset.sum_congr rfl hinit, ← Finset.sum_mul, ih, hlast, BitVec.toNat_ushiftRight,
      Nat.shiftRight_eq_div_pow, BitVec.toNat_setWidth, show 8 * (k + 1) = 8 + 8 * k by ring, pow_add, Nat.mod_mul]
    simp only [Nat.add_sub_cancel, Nat.sub_self, pow_zero]
    ring

/-- The zeros complete the message, the marker and the length field to whole blocks, as many as R159 counts. -/
theorem zeroFill_completes (v : Variant) (n : ℕ) :
    n + 1 + zeroFill v n + v.lengthBytes = blockCount v n * v.blockBytes := by
  cases v <;> simp only [zeroFill, blockCount, Variant.blockBytes, Variant.lengthBytes] <;> omega

/-- No fewer zeros do (R159). -/
theorem zeroFill_le {v : Variant} {n z : ℕ} (h : (n + 1 + z + v.lengthBytes) % v.blockBytes = 0) :
    zeroFill v n ≤ z := by
  cases v <;> simp only [zeroFill, Variant.blockBytes, Variant.lengthBytes] at h ⊢ <;> omega

theorem padded_length (v : Variant) (m : List Byte) :
    (padded v m).length = m.length + 1 + zeroFill v m.length + v.lengthBytes := by
  simp only [padded, List.length_append, List.length_cons, List.length_replicate, beBytes_length]
  omega

/-- The last `L` bytes of the padded message are the length field (R159). -/
theorem padded_getD_lengthField (v : Variant) (m : List Byte) (j : ℕ) :
    (padded v m).getD ((padded v m).length - v.lengthBytes + j) 0 =
      (beBytes v.lengthBytes (BitVec.ofNat 128 (8 * m.length))).getD j 0 := by
  have hlength := padded_length v m
  have hbefore : (m ++ 0x80 :: List.replicate (zeroFill v m.length) (0 : Byte)).length =
      (padded v m).length - v.lengthBytes := by
    simp only [List.length_append, List.length_cons, List.length_replicate]
    omega
  rw [← hbefore, padded, List.getD_append_right _ _ _ _ (Nat.le_add_right _ _), Nat.add_sub_cancel_left]

/-- Settles O28: the zeros are what is missing to a whole block, and the length field is worth the bit length. -/
theorem paddingFillsWholeBlocks : Obligations.PaddingFillsWholeBlocks := by
  unfold Obligations.PaddingFillsWholeBlocks
  intro v m
  refine ⟨(padded_length v m).trans (zeroFill_completes v m.length), fun z hz => zeroFill_le hz, fun hfits => ?_⟩
  have hlt : 8 * m.length < 2 ^ 128 := hfits.trans_le (Nat.pow_le_pow_right (by decide) v.lengthBits_le)
  simp only [padded_getD_lengthField]
  rw [beBytes_sum, BitVec.toNat_ofNat, Nat.mod_eq_of_lt hlt, ← v.lengthBits_eq, Nat.mod_eq_of_lt hfits]

namespace Machine

/-! ### The padding bytes in the buffer (R156, R157) -/

/-- Bytes written in two runs. -/
theorem Memory.writeList_append (m : Memory) (a : ℕ) (xs ys : List Byte) :
    Memory.writeList m a (xs ++ ys) = Memory.writeList (Memory.writeList m a xs) (a + xs.length) ys := by
  induction xs generalizing m a with
  | nil => rfl
  | cons x xs ih =>
    simp only [List.cons_append, Memory.writeList, ih, List.length_cons, Nat.add_assoc, Nat.add_comm 1]

/-- Zeros read back. -/
theorem Memory.read_writeList_zeros {m : Memory} (h : Memory.wf m) {a n j : ℕ} (ha : a ≤ j) (hj : j < a + n) :
    Memory.read (Memory.writeList m a (List.replicate n 0)) j = 0 := by
  rw [Memory.read_writeList h, dif_pos (by simp; omega), List.getElem_replicate]

/-- The marker and the zeros after it read back (R156). -/
theorem Memory.read_writeList_marker {m : Memory} (h : Memory.wf m) (c n : ℕ) :
    Memory.read (Memory.writeList m c (0x80 :: List.replicate n 0)) c = 0x80 ∧
      ∀ j, c < j → j < c + 1 + n → Memory.read (Memory.writeList m c (0x80 :: List.replicate n 0)) j = 0 := by
  have hw : Memory.wf (Memory.write m c 0x80) := Memory.wf_write h c _
  refine ⟨?_, fun j hcj hj => Memory.read_writeList_zeros hw hcj hj⟩
  rw [Memory.writeList, Memory.read_writeList_outside hw (.inl c.lt_succ_self), Memory.read_write h, if_pos rfl]

/-- The length field, written after bytes that end where it begins, reads back, and the bytes before it stay (R157). -/
theorem Memory.read_writeList_lengthField {m : Memory} (h : Memory.wf m) {v : Variant} {a : ℕ} {bytes : List Byte}
    (hend : a + bytes.length = v.blockBytes - v.lengthBytes) (len : BitVec 128) :
    (∀ j < v.lengthBytes, Memory.read (Memory.writeList m a (bytes ++ beBytes v.lengthBytes len))
        (v.blockBytes - v.lengthBytes + j) = len.extractLsb' (8 * (v.lengthBytes - 1 - j)) 8) ∧
      ∀ j < v.blockBytes - v.lengthBytes, Memory.read (Memory.writeList m a (bytes ++ beBytes v.lengthBytes len)) j =
        Memory.read (Memory.writeList m a bytes) j := by
  have hw := Memory.wf_writeList h a bytes
  rw [Memory.writeList_append, hend]
  refine ⟨fun j hj => ?_, fun j hj => Memory.read_writeList_outside hw (.inl hj)⟩
  rw [Memory.read_writeList_at hw _ _ (by rwa [beBytes_length]), beBytes_getElem]

/-- Outside what fills the block from `a` on, nothing changes. -/
theorem Memory.read_writeList_outsideBlock {m : Memory} (h : Memory.wf m) {v : Variant} {a : ℕ} {bytes : List Byte}
    (hend : a + bytes.length = v.blockBytes) {a' : ℕ} (ha : a' < a ∨ v.blockBytes ≤ a') :
    Memory.read (Memory.writeList m a bytes) a' = Memory.read m a' :=
  Memory.read_writeList_outside h (hend ▸ ha)

/-! ### PAD and PADBLK (R154, R155, R158) -/

theorem execPad_full {s : State} (h : s.cnt.toNat = s.var.blockBytes) : execPad s = .next { s with phase := 4 } := by
  simp only [execPad, padCase, h, if_true]

theorem execPad_final {s : State} (h : s.cnt.toNat ≤ s.var.finalMax) : execPad s = .next { s with
    blk := Memory.writeList s.blk s.cnt.toNat (finalPadding s.var s.cnt.toNat s.len)
    pstate := .done
    phase := 4 } := by
  have hne : s.cnt.toNat ≠ s.var.blockBytes := by have := s.var.finalMax_eq; omega
  simp only [execPad, padCase, hne, h, if_true, if_false]

theorem execPad_spill {s : State} (hlow : s.var.finalMax < s.cnt.toNat) (hhigh : s.cnt.toNat < s.var.blockBytes) :
    execPad s = .next { s with
      blk := Memory.writeList s.blk s.cnt.toNat (spillPadding s.var s.cnt.toNat)
      pstate := .padPending
      phase := 4 } := by
  simp only [execPad, padCase, hhigh.ne, hlow.not_ge, hhigh, if_true, if_false]

/-- Settles O26: PAD writes the padding of its case, and each piece of it reads back. -/
theorem padCompletesTheBlock : Obligations.PadCompletesTheBlock := by
  unfold Obligations.PadCompletesTheBlock
  intro s
  have hmax := s.var.finalMax_eq
  refine ⟨execPad_full, fun hfinal => ?_, fun hlow hhigh => ?_⟩
  · have hc : s.cnt.toNat ≤ s.var.finalMax := by omega
    refine ⟨_, execPad_final hc, fun hwf => ?_⟩
    obtain ⟨hmarker, hzero⟩ := Memory.read_writeList_marker hwf s.cnt.toNat
      (s.var.blockBytes - s.var.lengthBytes - (s.cnt.toNat + 1))
    obtain ⟨hlength, hbefore⟩ := Memory.read_writeList_lengthField hwf (v := s.var) (a := s.cnt.toNat)
      (bytes := 0x80 :: List.replicate (s.var.blockBytes - s.var.lengthBytes - (s.cnt.toNat + 1)) 0)
      (by rw [List.length_cons, List.length_replicate]; omega) s.len
    exact ⟨(hbefore _ (by omega)).trans hmarker, fun j hcj hj => (hbefore j hj).trans (hzero j hcj (by omega)), hlength,
      fun a => Memory.read_writeList_outsideBlock hwf (finalPadding_length hc s.len)⟩
  · refine ⟨_, execPad_spill (by omega) hhigh, fun hwf => ?_⟩
    obtain ⟨hmarker, hzero⟩ := Memory.read_writeList_marker hwf s.cnt.toNat (s.var.blockBytes - (s.cnt.toNat + 1))
    exact ⟨hmarker, fun j hcj hj => hzero j hcj (by omega),
      fun a => Memory.read_writeList_outsideBlock hwf (spillPadding_length hhigh)⟩

/-- Settles O27: the length-only block is zeros and the length field, and fills the block. -/
theorem padblkBuildsTheLengthBlock : Obligations.PadblkBuildsTheLengthBlock := by
  unfold Obligations.PadblkBuildsTheLengthBlock
  refine fun s => ⟨_, rfl, fun hwf => ?_⟩
  obtain ⟨hlength, hbefore⟩ := Memory.read_writeList_lengthField hwf (v := s.var) (a := 0)
    (bytes := List.replicate (s.var.blockBytes - s.var.lengthBytes) 0)
    (by rw [List.length_replicate, Nat.zero_add]) s.len
  exact ⟨fun j hj => (hbefore j hj).trans (Memory.read_writeList_zeros hwf j.zero_le (by omega)), hlength,
    fun a ha => Memory.read_writeList_outsideBlock hwf ((Nat.zero_add _).trans (lengthBlock_length ..)) (.inr ha)⟩

/-! ### FILL (R151, R152) -/

/-- An answer whose bytes fit the room and the counter is accepted (R152). -/
theorem fillFrom_accepts {r : SrcResponse} {s : State} (rs : List SrcResponse) (hfail : r.fail = false)
    (hroom : r.k ≤ requestSize s) (hdata : r.data.length = r.k) (hfits : lengthOverflows s r.k = false) :
    fillFrom r rs s = .next (acceptBytes r (takeAnswer rs s)) := by
  rw [fillFrom, if_neg (by simp [hfail]), if_neg (by simp [hroom, hdata]), if_neg (by simp [hfits])]

/-- An answer whose bytes do not fit the counter raises LEN_OVF (R274). -/
theorem fillFrom_overflows {r : SrcResponse} {s : State} (rs : List SrcResponse) (hfail : r.fail = false)
    (hroom : r.k ≤ requestSize s) (hdata : r.data.length = r.k) (hover : lengthOverflows s r.k = true) :
    fillFrom r rs s = .next (raiseEngineError .lenOvf (takeAnswer rs s)) := by
  rw [fillFrom, if_neg (by simp [hfail]), if_neg (by simp [hroom, hdata]), if_pos hover]

/-- An answer's bytes stand at the count, and every other byte is as before (R152). -/
theorem acceptBytes_read {r : SrcResponse} {s : State} (hwf : Memory.wf s.blk) (hdata : r.data.length = r.k) (a : ℕ) :
    Memory.read (acceptBytes r s).blk a =
      if s.cnt.toNat ≤ a ∧ a < s.cnt.toNat + r.k then r.data.getD (a - s.cnt.toNat) 0 else Memory.read s.blk a := by
  rw [acceptBytes_blk, Memory.read_writeList hwf]
  by_cases hin : s.cnt.toNat ≤ a ∧ a < s.cnt.toNat + r.k
  · have hlt : a - s.cnt.toNat < r.data.length := by omega
    rw [dif_pos ⟨hin.1, hlt⟩, if_pos hin, List.getD_eq_getElem _ _ hlt]
  · rw [dif_neg (by omega), if_neg hin]

/-- Settles O22: FILL's branches in the order of R152, each answering the state its clause names. -/
theorem fillFollowsItsRule : Obligations.FillFollowsItsRule := by
  unfold Obligations.FillFollowsItsRule
  refine fun s => ⟨fun heoi => ?_, fun heoi hroom hsource hafter => ?_, fun heoi hroom r rest hanswer => ?_⟩
  · rw [exec, execFill, if_pos heoi]
  · have hrequest : requestSize s ≠ 0 := (Nat.sub_pos_of_lt hroom).ne'
    simp only [exec, execFill, heoi, hrequest, nextAnswer_eq_none.2 ⟨hsource, hafter⟩, Bool.false_eq_true, if_false]
  · rw [exec, execFill_of_answerNext heoi hroom hanswer]
    refine ⟨fun hfail => ?_, fun hfail hk hdata => ⟨fun hover => ?_, fun hfits => ?_⟩⟩
    · rw [fillFrom, if_pos hfail]
      rfl
    · exact fillFrom_overflows rest hfail hk hdata (decide_eq_true hover)
    · have hfits : lengthOverflows s r.k = false := decide_eq_false hfits.not_ge
      exact ⟨acceptBytes r (takeAnswer rest s), fillFrom_accepts rest hfail hk hdata hfits,
        cnt_add_toNat hroom.le hk, (len_add_toNat hfits).1, fun hwf => acceptBytes_read hwf hdata⟩

/-! ### What the block steps leave alone -/

/-- PAD and PADBLK write the buffer and the padding state, and go to EXTRACT (R155, R158). -/
theorem exec_padding_eq {i : Instr} {s t : State} (hi : i ∈ [Instr.pad, .padblk]) (h : exec i s = .next t) :
    ∃ blk pstate, t = { s with blk := blk, pstate := pstate, phase := 4 } := by
  simp only [List.mem_cons, List.not_mem_nil, or_false] at hi
  rcases hi with rfl | rfl
  · rcases execPad_next h with ⟨-, rfl⟩ | ⟨-, rfl⟩ | ⟨-, -, rfl⟩ <;> exact ⟨_, _, rfl⟩
  · cases h
    exact ⟨_, _, rfl⟩

/-- The fields FILL may write (R152, R272). -/
theorem execFill_eq {s t : State} (h : execFill s = .next t) :
    ∃ phase busy done err errcode eoiSeen cnt blk len source requests, t = { s with
      phase := phase, busy := busy, done := done, err := err, errcode := errcode, eoiSeen := eoiSeen, cnt := cnt,
      blk := blk, len := len, source := source, requests := requests } := by
  refine ⟨t.phase, t.busy, t.done, t.err, t.errcode, t.eoiSeen, t.cnt, t.blk, t.len, t.source, t.requests, ?_⟩
  rcases execFill_next h with ⟨-, rfl⟩ | ⟨-, -, ⟨-, rfl⟩ | ⟨r, rs, -, hfill⟩⟩
  · rfl
  · rfl
  · rcases fillFrom_next hfill with ⟨-, rfl⟩ | ⟨-, -, -, ⟨-, rfl⟩ | ⟨-, rfl⟩⟩ <;> rfl

/-- FILL keeps every byte outside those by which the count grows: an accepted answer's bytes (R152). -/
theorem execFill_read_outside {s t : State} (hwf : Memory.wf s.blk) (h : execFill s = .next t) {a : ℕ}
    (ha : a < s.cnt.toNat ∨ s.cnt.toNat + (t.cnt - s.cnt).toNat ≤ a) : Memory.read t.blk a = Memory.read s.blk a := by
  rcases execFill_next h with ⟨-, rfl⟩ | ⟨-, -, ⟨-, rfl⟩ | ⟨r, rs, -, hfill⟩⟩
  · rfl
  · rfl
  · rcases fillFrom_next hfill with ⟨-, rfl⟩ | ⟨-, hk, hdata, ⟨-, rfl⟩ | ⟨-, rfl⟩⟩
    · rfl
    · rfl
    · have hgrowth : ((acceptBytes r (takeAnswer rs s)).cnt - s.cnt).toNat = r.k := by
        have := s.var.blockBytes_le
        unfold requestSize at hk
        rw [acceptBytes_cnt, takeAnswer_cnt, BitVec.add_comm, BitVec.add_sub_cancel, BitVec.toNat_ofNat]
        omega
      rw [hgrowth] at ha
      exact Memory.read_writeList_outside hwf (by rwa [takeAnswer_cnt, hdata])

/-- PAD keeps every byte before the count and from the end of the block on (R155). -/
theorem execPad_read_outside {s t : State} (hwf : Memory.wf s.blk) (h : execPad s = .next t) {a : ℕ}
    (ha : a < s.cnt.toNat ∨ s.var.blockBytes ≤ a) : Memory.read t.blk a = Memory.read s.blk a := by
  rcases execPad_next h with ⟨-, rfl⟩ | ⟨hc, rfl⟩ | ⟨-, hc, rfl⟩
  · rfl
  · exact Memory.read_writeList_outsideBlock hwf (finalPadding_length hc s.len) ha
  · exact Memory.read_writeList_outsideBlock hwf (spillPadding_length hc) ha

/-- Settles O44: the fields each step may write are listed in `execFill_eq` and `exec_padding_eq`, and of the buffer
each writes its own bytes only. -/
theorem blockStepsFrame : Obligations.BlockStepsFrame := by
  unfold Obligations.BlockStepsFrame
  intro s t hwf
  refine ⟨fun i hi h => ?_, fun h => ⟨?_, fun a => execFill_read_outside hwf h⟩, fun i hi h => ?_,
    fun h a => execPad_read_outside hwf h, fun h a ha => ?_⟩
  · rcases List.mem_cons.1 hi with rfl | hi
    · obtain ⟨_, _, _, _, _, _, _, _, _, _, _, rfl⟩ := execFill_eq h
      exact ⟨⟨rfl, rfl, rfl⟩, rfl, rfl, rfl, rfl, rfl, rfl, rfl, rfl⟩
    · obtain ⟨_, _, rfl⟩ := exec_padding_eq hi h
      exact ⟨⟨rfl, rfl, rfl⟩, rfl, rfl, rfl, rfl, rfl, rfl, rfl, rfl⟩
  · obtain ⟨_, _, _, _, _, _, _, _, _, _, _, rfl⟩ := execFill_eq h
    rfl
  · obtain ⟨_, _, rfl⟩ := exec_padding_eq hi h
    exact ⟨⟨rfl, rfl, rfl, rfl, rfl, rfl⟩, rfl, rfl, rfl, ⟨rfl, rfl, rfl, rfl, rfl, rfl, rfl⟩⟩
  · cases h
    exact Memory.read_writeList_outsideBlock hwf ((Nat.zero_add _).trans (lengthBlock_length ..)) (.inr ha)

end Machine

end Sys2Proof
end

section
/-! PROOFS. The statements on the message scheduler: the four sigma functions and SCHED (spec/43_scheduler.md R180, R181,
R186; spec/44_compressor.md R202, R203). -/

namespace Sys2Proof

/-! ### Shifts and rotations of the zero and the all-ones word (R11) -/

@[simp] theorem shr_zero {w : Nat} (n : Nat) : shr 0#w n = 0#w := BitVec.zero_ushiftRight

@[simp] theorem rotr_zero {w : Nat} (n : Nat) : rotr 0#w n = 0#w := by
  rw [rotr, shr_zero, BitVec.zero_shiftLeft, BitVec.or_self]

/-- A rotation only moves bits, so the all-ones word stays. -/
theorem rotr_allOnes {w n : Nat} (hn : n < w) : rotr (BitVec.allOnes w) n = BitVec.allOnes w := by
  ext i hi
  simp [rotr_getElem _ hn i hi]

/-! ### The small functions: two rotations and a shift (R180, R181) -/

/-- Exclusive or goes through two rotations and a shift, bit by bit. -/
theorem rotr_rotr_shr_xor {w : Nat} (x y : BitVec w) (p q r : Nat) :
    rotr (x ^^^ y) p ^^^ rotr (x ^^^ y) q ^^^ shr (x ^^^ y) r =
      (rotr x p ^^^ rotr x q ^^^ shr x r) ^^^ (rotr y p ^^^ rotr y q ^^^ shr y r) := by
  rw [rotr_xor, rotr_xor, shr_xor]
  ac_rfl

/-- On all ones the two rotations cancel and the shift term is left. -/
theorem rotr_rotr_shr_allOnes {w p q : Nat} (hp : p < w) (hq : q < w) (r : Nat) :
    rotr (BitVec.allOnes w) p ^^^ rotr (BitVec.allOnes w) q ^^^ shr (BitVec.allOnes w) r =
      shr (BitVec.allOnes w) r := by
  rw [rotr_allOnes hp, rotr_allOnes hq, BitVec.xor_self, BitVec.zero_xor]

/-! ### The big functions: three rotations (R202, R203) -/

/-- Exclusive or goes through three rotations, bit by bit. -/
theorem rotr_rotr_rotr_xor {w : Nat} (x y : BitVec w) (p q r : Nat) :
    rotr (x ^^^ y) p ^^^ rotr (x ^^^ y) q ^^^ rotr (x ^^^ y) r =
      (rotr x p ^^^ rotr x q ^^^ rotr x r) ^^^ (rotr y p ^^^ rotr y q ^^^ rotr y r) := by
  rw [rotr_xor, rotr_xor, rotr_xor]
  ac_rfl

/-- On all ones two of the rotations cancel and the third is all ones. -/
theorem rotr_rotr_rotr_allOnes {w p q r : Nat} (hp : p < w) (hq : q < w) (hr : r < w) :
    rotr (BitVec.allOnes w) p ^^^ rotr (BitVec.allOnes w) q ^^^ rotr (BitVec.allOnes w) r = BitVec.allOnes w := by
  rw [rotr_allOnes hp, rotr_allOnes hq, rotr_allOnes hr, BitVec.xor_self, BitVec.zero_xor]

/-! ### The amounts are below the width (R6) -/

theorem Variant.smallSigma0_lt_width (v : Variant) : v.smallSigma0.p < v.width ∧ v.smallSigma0.q < v.width := by
  cases v <;> decide

theorem Variant.smallSigma1_lt_width (v : Variant) : v.smallSigma1.p < v.width ∧ v.smallSigma1.q < v.width := by
  cases v <;> decide

theorem Variant.bigSigma0_lt_width (v : Variant) :
    v.bigSigma0.p < v.width ∧ v.bigSigma0.q < v.width ∧ v.bigSigma0.r < v.width := by
  cases v <;> decide

theorem Variant.bigSigma1_lt_width (v : Variant) :
    v.bigSigma1.p < v.width ∧ v.bigSigma1.q < v.width ∧ v.bigSigma1.r < v.width := by
  cases v <;> decide

/-- The shift amount of σ0 (R6). -/
theorem Variant.smallSigma0_shift (v : Variant) : v.smallSigma0.r = if v = .sha256 then 3 else 7 := by
  cases v <;> rfl

/-- The shift amount of σ1 (R6). -/
theorem Variant.smallSigma1_shift (v : Variant) : v.smallSigma1.r = if v = .sha256 then 10 else 6 := by
  cases v <;> rfl

/-! ### The four sigma functions -/

/-- σ0 on all ones is its shift term (R180). -/
theorem smallSigma0_allOnes (v : Variant) :
    smallSigma0 v (BitVec.allOnes v.width) = shr (BitVec.allOnes v.width) (if v = .sha256 then 3 else 7) := by
  obtain ⟨hp, hq⟩ := v.smallSigma0_lt_width
  rw [smallSigma0, rotr_rotr_shr_allOnes hp hq, v.smallSigma0_shift]

/-- σ1 on all ones is its shift term (R181). -/
theorem smallSigma1_allOnes (v : Variant) :
    smallSigma1 v (BitVec.allOnes v.width) = shr (BitVec.allOnes v.width) (if v = .sha256 then 10 else 6) := by
  obtain ⟨hp, hq⟩ := v.smallSigma1_lt_width
  rw [smallSigma1, rotr_rotr_shr_allOnes hp hq, v.smallSigma1_shift]

/-- Σ0 keeps all ones (R202). -/
theorem bigSigma0_allOnes (v : Variant) : bigSigma0 v (BitVec.allOnes v.width) = BitVec.allOnes v.width := by
  obtain ⟨hp, hq, hr⟩ := v.bigSigma0_lt_width
  exact rotr_rotr_rotr_allOnes hp hq hr

/-- Σ1 keeps all ones (R203). -/
theorem bigSigma1_allOnes (v : Variant) : bigSigma1 v (BitVec.allOnes v.width) = BitVec.allOnes v.width := by
  obtain ⟨hp, hq, hr⟩ := v.bigSigma1_lt_width
  exact rotr_rotr_rotr_allOnes hp hq hr

/-- Settles O36: rotations and shifts go through exclusive or and keep 0, and a rotation by less than the width keeps
all ones, so that equal rotations cancel in pairs. -/
theorem sigmaFunctions : Obligations.SigmaFunctions := by
  unfold Obligations.SigmaFunctions
  refine fun v x y => ⟨?_, ?_, ?_, ?_, smallSigma0_allOnes v, smallSigma1_allOnes v, bigSigma0_allOnes v,
    bigSigma1_allOnes v, rotr_rotr_shr_xor .., rotr_rotr_shr_xor .., rotr_rotr_rotr_xor .., rotr_rotr_rotr_xor ..⟩
  · simp [smallSigma0]
  · simp [smallSigma1]
  · simp [bigSigma0]
  · simp [bigSigma1]

/-! ### SCHED (R186) -/

namespace Machine

/-- SCHED with its index in range: one word, and the next index and phase (R186). -/
theorem execSched_of_index {s : State} (h16 : 16 ≤ s.t.toNat) (hlt : s.t.toNat < s.var.rounds) :
    execSched s = .next { s with
      W := s.W.setIfInBounds s.t.toNat (nextScheduleWord s)
      t := if s.t.toNat + 1 = s.var.rounds then 0 else s.t + 1
      phase := if s.t.toNat + 1 = s.var.rounds then 6 else 5 } := by
  have hindex : ¬(s.t.toNat < 16 ∨ s.var.rounds ≤ s.t.toNat) := by omega
  rw [execSched, if_neg hindex]
  by_cases hlast : s.t.toNat + 1 = s.var.rounds
  · simp only [if_pos hlast]
  · simp only [if_neg hlast]

/-- Settles O30: in range SCHED takes no fault, and the word it writes is the sum of R182. -/
theorem schedComputesOneWord : Obligations.SchedComputesOneWord := by
  unfold Obligations.SchedComputesOneWord
  exact fun s h16 hlt => execSched_of_index h16 hlt

end Machine

end Sys2Proof
end

section
/-! PROOFS. The statements on the compressor and the digest accumulator: Ch, Maj, INITWV, ROUND, ACCUM, and the compression
of one block (spec/44_compressor.md). -/

namespace Sys2Proof

/-! ### Ch and Maj, bit by bit (R200, R201) -/

/-- A bit of `Ch(x, y, z)` is `y`'s where `x`'s is 1 and `z`'s where it is 0 (R200). -/
theorem ch_getLsbD {w : ℕ} (x y z : BitVec w) (i : ℕ) :
    (ch x y z).getLsbD i = if x.getLsbD i then y.getLsbD i else z.getLsbD i := by
  rw [ch, BitVec.getLsbD_xor, BitVec.getLsbD_and, BitVec.getLsbD_and, BitVec.getLsbD_not]
  by_cases hi : i < w
  · cases x.getLsbD i <;> simp [hi]
  · simp [BitVec.getLsbD_of_ge _ i (not_lt.1 hi)]

theorem ch_zero {w : ℕ} (y z : BitVec w) : ch 0 y z = z := by
  refine BitVec.eq_of_getLsbD_eq fun i _ => ?_
  simp [ch_getLsbD]

theorem ch_allOnes {w : ℕ} (y z : BitVec w) : ch (BitVec.allOnes w) y z = y := by
  refine BitVec.eq_of_getLsbD_eq fun i hi => ?_
  rw [ch_getLsbD, BitVec.getLsbD_allOnes, decide_eq_true hi, if_pos rfl]

theorem ch_self {w : ℕ} (x y : BitVec w) : ch x y y = y := by
  refine BitVec.eq_of_getLsbD_eq fun i _ => ?_
  rw [ch_getLsbD, ite_self]

/-- Settles O34: the corner cases are read off the bits. -/
theorem chooseFunction : Obligations.ChooseFunction := by
  unfold Obligations.ChooseFunction
  exact ⟨fun w x y z => ⟨rfl, ch_getLsbD x y z, ch_zero y z, ch_allOnes y z, ch_self x y⟩, by decide⟩

/-- A bit of `Maj(x, y, z)` is set when at least two of the three are (R201). -/
theorem maj_getLsbD {w : ℕ} (x y z : BitVec w) (i : ℕ) : (maj x y z).getLsbD i =
    decide (2 ≤ (x.getLsbD i).toNat + (y.getLsbD i).toNat + (z.getLsbD i).toNat) := by
  simp only [maj, BitVec.getLsbD_xor, BitVec.getLsbD_and]
  cases x.getLsbD i <;> cases y.getLsbD i <;> cases z.getLsbD i <;> rfl

/-- A count of set bits does not depend on their order. -/
theorem maj_left_comm {w : ℕ} (x y z : BitVec w) : maj x y z = maj y x z := by
  refine BitVec.eq_of_getLsbD_eq fun i _ => ?_
  rw [maj_getLsbD, maj_getLsbD, Nat.add_comm (x.getLsbD i).toNat]

theorem maj_right_comm {w : ℕ} (x y z : BitVec w) : maj x y z = maj x z y := by
  refine BitVec.eq_of_getLsbD_eq fun i _ => ?_
  rw [maj_getLsbD, maj_getLsbD, Nat.add_right_comm]

/-- Two equal words are a majority. -/
theorem maj_self {w : ℕ} (x z : BitVec w) : maj x x z = x := by
  refine BitVec.eq_of_getLsbD_eq fun i _ => ?_
  rw [maj_getLsbD]
  cases x.getLsbD i <;> cases z.getLsbD i <;> rfl

/-- Settles O35: the formula, its bits, and what follows from the bits. -/
theorem majorityFunction : Obligations.MajorityFunction := by
  unfold Obligations.MajorityFunction
  exact ⟨fun w x y z => ⟨rfl, maj_getLsbD x y z, maj_left_comm x y z, maj_right_comm x y z, maj_self x z⟩, by decide⟩

namespace Machine

/-! ### INITWV, ROUND and ACCUM (R207, R208, R209) -/

/-- Settles O31: INITWV is its rule. -/
theorem initwvLoadsTheDigest : Obligations.InitwvLoadsTheDigest := fun _ => rfl

/-- ROUND with its index in range: the working variables, and the next index and phase (R208). -/
theorem execRound_of_index {s : State} (hlt : s.t.toNat < s.var.rounds) :
    execRound s = .next { s with
      wv := roundWorking s
      t := if s.t.toNat + 1 = s.var.rounds then 0 else s.t + 1
      phase := if s.t.toNat + 1 = s.var.rounds then 8 else 7 } := by
  rw [execRound, if_neg (not_le.2 hlt)]
  by_cases hlast : s.t.toNat + 1 = s.var.rounds
  · simp only [if_pos hlast]
  · simp only [if_neg hlast]

/-- Settles O32: in range ROUND takes no fault, and the words it writes are those of R206. -/
theorem roundUpdatesTheWorkingVariables : Obligations.RoundUpdatesTheWorkingVariables := by
  unfold Obligations.RoundUpdatesTheWorkingVariables
  exact fun s hlt => execRound_of_index hlt

theorem vector_getD_of_lt {α : Type} {n i : ℕ} (xs : Vector α n) (d : α) (hi : i < n) : xs.getD i d = xs[i] := by
  obtain ⟨xs, rfl⟩ := xs
  simp [hi]

/-- A working variable is the word held in its register (R36). -/
theorem State.working_fin (s : State) (i : Fin 8) : s.working i.val = lo s.var s.wv[i] := by
  rw [State.working, vector_getD_of_lt _ _ i.isLt, Fin.getElem_fin]

/-- Settles O33: each word of the new digest is the sum of R209. -/
theorem accumAddsIntoTheDigest : Obligations.AccumAddsIntoTheDigest := by
  unfold Obligations.AccumAddsIntoTheDigest
  intro s
  have hsum : accumulated s = Vector.ofFn fun i : Fin 8 => zext (lo s.var s.H[i] + lo s.var s.wv[i]) :=
    congrArg Vector.ofFn (funext fun i => by rw [s.working_fin])
  rw [← hsum]
  rfl

/-! ### The block's words (R140) -/

/-- A piece of the bytes read is the bytes read there. -/
theorem Memory.readList_drop_take (m : Memory) (a : ℕ) {i k n : ℕ} (h : i + k ≤ n) :
    ((Memory.readList m a n).drop i).take k = Memory.readList m (a + i) k := by
  refine List.ext_getElem (by simp; omega) fun j _ _ => ?_
  simp [Memory.readList, Nat.add_assoc]

/-- Word `i` of the block buffer is word `i` of the block's bytes (R87, R140). -/
theorem lo_blockWord (v : Variant) (m : Memory) {i : ℕ} (hi : i < 16) :
    lo v (blockWord v m i) = wordOf v (Memory.readList m 0 v.blockBytes) i := by
  have hend : i * v.wordBytes + v.wordBytes ≤ v.blockBytes := by
    rw [v.blockBytes_eq, ← Nat.succ_mul]
    exact Nat.mul_le_mul_right _ hi
  rw [wordOf, Memory.readList_drop_take m 0 hend, Nat.zero_add, blockWord]

theorem blockWords_length (v : Variant) (block : List Byte) : (blockWords v block).length = 16 := by
  rw [blockWords, List.length_map, List.length_range]

theorem blockWords_getD (v : Variant) (block : List Byte) {i : ℕ} (hi : i < 16) :
    (blockWords v block).getD i 0 = wordOf v block i := by
  rw [List.getD_eq_getElem _ _ (by rwa [blockWords_length])]
  simp [blockWords]

/-! ### The schedule (R182) -/

theorem scheduleNext_length (v : Variant) (ws : List (VWord v)) : (scheduleNext v ws).length = ws.length + 1 := by
  rw [scheduleNext, List.length_append, List.length_singleton]

theorem schedulePrefix_length (v : Variant) (ws : List (VWord v)) (n : ℕ) :
    (schedulePrefix v ws n).length = ws.length + n := by
  induction n with
  | zero => rfl
  | succ n ih => rw [schedulePrefix, scheduleNext_length, ih, Nat.add_assoc]

theorem scheduleOf_length (v : Variant) (block : List Byte) : (scheduleOf v block).length = v.rounds := by
  rw [scheduleOf, schedulePrefix_length, blockWords_length, Nat.add_sub_cancel' v.sixteen_lt_rounds.le]

/-- The schedule registers hold the words `ws`, from index 0 on (R36, R182). -/
def holdsSchedule (v : Variant) (W : Vector Word 80) (ws : List (VWord v)) : Prop :=
  ∀ i < ws.length, lo v (W.getD i 0) = ws.getD i 0

/-- EXTRACT loads the words of the block (R141). -/
theorem extracted_holdsSchedule (s : State) :
    holdsSchedule s.var (extracted s) (blockWords s.var (Memory.readList s.blk 0 s.var.blockBytes)) := by
  intro i hi
  rw [blockWords_length] at hi
  have hword : (extracted s)[i] = blockWord s.var s.blk i := extracted_getElem_of_lt s (i := ⟨i, by omega⟩) hi
  rw [vector_getD_of_lt _ _ (by omega), hword, lo_blockWord s.var s.blk hi, blockWords_getD _ _ hi]

/-- SCHED adds the next word of the schedule (R182, R186). -/
theorem scheduled_holdsSchedule {s : State} {ws : List (VWord s.var)} (h : holdsSchedule s.var s.W ws)
    (hlen : ws.length = s.t.toNat) (h16 : 16 ≤ s.t.toNat) (hlt : s.t.toNat < s.var.rounds) :
    holdsSchedule s.var (s.W.setIfInBounds s.t.toNat (nextScheduleWord s)) (scheduleNext s.var ws) := by
  have h80 := s.var.rounds_le
  intro i hi
  rw [scheduleNext_length] at hi
  rw [vector_getD_of_lt _ _ (by omega), Vector.getElem_setIfInBounds, scheduleNext]
  split
  · next hnew =>
    have hold (n : ℕ) (hn : 0 < n) : s.schedule (s.t.toNat - n) = ws.getD (ws.length - n) 0 := by
      rw [State.schedule, h _ (by omega), hlen]
    rw [List.getD_append_right _ _ _ _ (by omega), nextScheduleWord, lo_zext, hold 2 (by decide), hold 7 (by decide),
      hold 15 (by decide), hold 16 (by decide), ← hnew, hlen, Nat.sub_self]
    rfl
  · next hold =>
    rw [List.getD_append _ _ _ _ (by omega), ← h i (by omega), vector_getD_of_lt _ _ (by omega)]

/-! ### One block, from EXTRACT to ACCUM (R210) -/

/-- The bytes of the block buffer, as the block to be compressed (R37). -/
def State.block (s : State) : List Byte := Memory.readList s.blk 0 s.var.blockBytes

/-- The running digest as words of the variant (R36). -/
def State.digest (s : State) : Digest s.var := s.H.map (lo s.var)

/-- The working variables as words of the variant (R36). -/
def State.variables (s : State) : Digest s.var := s.wv.map (lo s.var)

theorem State.variables_getElem (s : State) (i : Fin 8) : s.variables[i] = s.working i.val := by
  rw [State.working_fin, State.variables, Fin.getElem_fin, Vector.getElem_map, Fin.getElem_fin]

/-- ROUND performs the round of R206. -/
theorem roundWorking_map_lo (s : State) : (roundWorking s).map (lo s.var) =
    roundOf s.var (romK s.var s.t.toNat) (s.schedule s.t.toNat) s.variables := by
  have hget (i : ℕ) (hi : i < 8) : s.variables[i] = s.working i := s.variables_getElem ⟨i, hi⟩
  simp [roundWorking, roundOf, hget]

/-- ACCUM after all rounds of a block leaves the compression function's result (R209, R210). -/
theorem accumulated_eq_compress {s : State} (h : s.variables =
      roundsOf s.var (scheduleOf s.var s.block) s.digest s.var.rounds) :
    accumulated s = (compress s.var s.digest s.block).map zext := by
  refine Vector.ext fun i hi => ?_
  have hget : s.variables[i] = s.working i := s.variables_getElem ⟨i, hi⟩
  have hdigest : s.digest[i] = lo s.var s.H[i] := Vector.getElem_map ..
  simp only [accumulated, compress, ← h, Vector.getElem_map, Vector.getElem_ofFn, Fin.getElem_fin, hget, hdigest]

/-- The compression of the block in the buffer stands at the phase and index of `s`, with `m` engine steps left to the end
of ACCUM: the schedule registers hold what SCHED has computed so far (R182), and the working variables what the rounds so far
have made of the running digest (R206). -/
inductive State.Compressing (s : State) (m : ℕ) : Prop
  | extract (hphase : s.phase = 4) (hleft : m + 13 = 2 * s.var.rounds)
  | sched (n : ℕ) (hphase : s.phase = 5) (hindex : s.t.toNat = 16 + n) (hlt : s.t.toNat < s.var.rounds)
      (hleft : m + n + 14 = 2 * s.var.rounds)
      (hW : holdsSchedule s.var s.W (schedulePrefix s.var (blockWords s.var s.block) n))
  | initwv (hphase : s.phase = 6) (hleft : m = s.var.rounds + 2)
      (hW : holdsSchedule s.var s.W (scheduleOf s.var s.block))
  | round (hphase : s.phase = 7) (hlt : s.t.toNat < s.var.rounds) (hleft : m + s.t.toNat = s.var.rounds + 1)
      (hW : holdsSchedule s.var s.W (scheduleOf s.var s.block))
      (hwv : s.variables = roundsOf s.var (scheduleOf s.var s.block) s.digest s.t.toNat)
  | accum (hphase : s.phase = 8) (hindex : s.t = 0) (hleft : m = 1)
      (hwv : s.variables = roundsOf s.var (scheduleOf s.var s.block) s.digest s.var.rounds)

/-- The state `s` with the fields that the steps of a block before ACCUM write. -/
def State.withRound (s : State) (phase : BitVec 4) (index : BitVec 7) (wv : Vector Word 8) (W : Vector Word 80) : State :=
  { s with phase := phase, t := index, wv := wv, W := W }

/-- SCHED goes on with the compression (R186). -/
theorem execSched_compressing {s : State} {m n : ℕ} (hindex : s.t.toNat = 16 + n) (hlt : s.t.toNat < s.var.rounds)
    (hleft : m + 1 + n + 14 = 2 * s.var.rounds)
    (hW : holdsSchedule s.var s.W (schedulePrefix s.var (blockWords s.var s.block) n)) :
    ∃ phase index wv W, execSched s = .next (s.withRound phase index wv W) ∧
      (s.withRound phase index wv W).Compressing m := by
  have hlen : (schedulePrefix s.var (blockWords s.var s.block) n).length = s.t.toNat := by
    rw [schedulePrefix_length, blockWords_length, hindex]
  have hnew := scheduled_holdsSchedule hW hlen (by omega) hlt
  rw [execSched_of_index (by omega) hlt]
  by_cases hlast : s.t.toNat + 1 = s.var.rounds
  · have hall : scheduleOf s.var s.block = schedulePrefix s.var (blockWords s.var s.block) (n + 1) := by
      rw [scheduleOf, show s.var.rounds - 16 = n + 1 by omega]
    have hleft' : m = s.var.rounds + 2 := by omega
    rw [if_pos hlast, if_pos hlast]
    exact ⟨6, 0, _, _, rfl, .initwv rfl hleft' (hall ▸ hnew)⟩
  · have hsucc : (s.t + 1).toNat = s.t.toNat + 1 := index_succ hlt
    have hindex' : (s.t + 1).toNat = 16 + (n + 1) := by omega
    have hlt' : (s.t + 1).toNat < s.var.rounds := by omega
    have hleft' : m + (n + 1) + 14 = 2 * s.var.rounds := by omega
    rw [if_neg hlast, if_neg hlast]
    exact ⟨5, s.t + 1, _, _, rfl, .sched (n + 1) rfl hindex' hlt' hleft' hnew⟩

/-- ROUND goes on with the compression (R208). -/
theorem execRound_compressing {s : State} {m : ℕ} (hlt : s.t.toNat < s.var.rounds)
    (hleft : m + 1 + s.t.toNat = s.var.rounds + 1) (hW : holdsSchedule s.var s.W (scheduleOf s.var s.block))
    (hwv : s.variables = roundsOf s.var (scheduleOf s.var s.block) s.digest s.t.toNat) :
    ∃ phase index wv W, execRound s = .next (s.withRound phase index wv W) ∧
      (s.withRound phase index wv W).Compressing m := by
  have hnew : (roundWorking s).map (lo s.var) =
      roundsOf s.var (scheduleOf s.var s.block) s.digest (s.t.toNat + 1) := by
    have hword : s.schedule s.t.toNat = (scheduleOf s.var s.block).getD s.t.toNat 0 :=
      hW _ (by rwa [scheduleOf_length])
    rw [roundWorking_map_lo, hword, hwv, roundsOf]
  rw [execRound_of_index hlt]
  by_cases hlast : s.t.toNat + 1 = s.var.rounds
  · have hleft' : m = 1 := by omega
    rw [hlast] at hnew
    rw [if_pos hlast, if_pos hlast]
    exact ⟨8, 0, _, _, rfl, .accum rfl rfl hleft' hnew⟩
  · have hsucc : (s.t + 1).toNat = s.t.toNat + 1 := index_succ hlt
    have hlt' : (s.t + 1).toNat < s.var.rounds := by omega
    have hleft' : m + (s.t + 1).toNat = s.var.rounds + 1 := by omega
    rw [← hsucc] at hnew
    rw [if_neg hlast, if_neg hlast]
    exact ⟨7, s.t + 1, _, _, rfl, .round rfl hlt' hleft' hW hnew⟩

/-- Before ACCUM the phase names a step that goes on with the compression and writes the phase, the index, `wv` and `W`
only. -/
theorem State.Compressing.exec_next {s : State} {m : ℕ} (h : s.Compressing (m + 1)) (hm : m ≠ 0) :
    ∃ i phase index wv W, decode (.phase s.phase) = .ok i ∧ exec i s = .next (s.withRound phase index wv W) ∧
      (s.withRound phase index wv W).Compressing m := by
  have h16 := s.var.sixteen_lt_rounds
  cases h with
  | extract hphase hleft =>
    have hleft' : m + 0 + 14 = 2 * s.var.rounds := by omega
    exact ⟨.extract, 5, 16, s.wv, extracted s, by rw [hphase]; rfl, rfl,
      .sched 0 rfl rfl h16 hleft' (extracted_holdsSchedule s)⟩
  | sched n hphase hindex hlt hleft hW =>
    obtain ⟨p, t, wv, W, hexec, hnext⟩ := execSched_compressing hindex hlt hleft hW
    exact ⟨.sched, p, t, wv, W, by rw [hphase]; rfl, hexec, hnext⟩
  | initwv hphase hleft hW =>
    have hlt : 0 < s.var.rounds := by omega
    exact ⟨.initwv, 7, 0, s.H, s.W, by rw [hphase]; rfl, rfl, .round rfl hlt (Nat.succ.inj hleft) hW rfl⟩
  | round hphase hlt hleft hW hwv =>
    obtain ⟨p, t, wv, W, hexec, hnext⟩ := execRound_compressing hlt hleft hW hwv
    exact ⟨.round, p, t, wv, W, by rw [hphase]; rfl, hexec, hnext⟩
  | accum hphase hindex hleft hwv => exact absurd hleft (by omega)

/-- The last step of the compression is ACCUM, with the index 0 and every round done. -/
theorem State.Compressing.last {s : State} (h : s.Compressing 1) : s.phase = 8 ∧ s.t = 0 ∧
    accumulated s = (compress s.var s.digest s.block).map zext := by
  have h16 := s.var.sixteen_lt_rounds
  cases h with
  | accum hphase hindex hleft hwv => exact ⟨hphase, hindex, accumulated_eq_compress hwv⟩
  | extract | sched | initwv | round => omega

/-- With the engine alone and a computation in flight, a step performs the phase's micro-operation. -/
theorem step_of_engineAlone {s : State} {i : Instr} (halone : engineAlone s) (hbusy : s.busy = true)
    (hphase : decode (.phase s.phase) = .ok i) : step s = exec i s := by
  have hagenda : { s with agenda := [] } = s := by rw [← halone.1]
  have hstep := stepRunsTheDecodedPhase s [] i (engineTurn_of_engineAlone halone) hbusy hphase
  rwa [hagenda] at hstep

/-- The engine's steps finish the compression: by induction on the steps left. -/
theorem State.Compressing.run {m : ℕ} {s : State} (h : s.Compressing (m + 1)) (halone : engineAlone s)
    (hbusy : s.busy = true) : ∃ wv W, Host.Core.run Sys2Proof.core (m + 1) s = .next { s with
      H := (compress s.var s.digest s.block).map zext
      wv := wv
      W := W
      t := 0
      cnt := if s.pstate = .reading then 0 else s.cnt
      phase := phaseAfterAccum s.pstate } := by
  induction m generalizing s with
  | zero =>
    obtain ⟨hphase, hindex, hH⟩ := h.last
    have hstep : step s = exec .accum s := step_of_engineAlone halone hbusy (by rw [hphase]; rfl)
    refine ⟨s.wv, s.W, ?_⟩
    rw [run_succ 0 hstep, ← hH, ← hindex]
    rfl
  | succ m ih =>
    obtain ⟨i, phase, index, wv, W, hphase, hexec, hnext⟩ := h.exec_next m.succ_ne_zero
    obtain ⟨wv', W', hrun⟩ := ih hnext halone hbusy
    refine ⟨wv', W', ?_⟩
    rw [run_succ _ ((step_of_engineAlone halone hbusy hphase).trans hexec), hrun]
    rfl

/-- Settles O52: EXTRACT begins a compression with `2N - 13` steps to go. -/
theorem blockIsCompressed : Obligations.BlockIsCompressed := by
  unfold Obligations.BlockIsCompressed
  intro s halone hbusy hphase
  have h16 := s.var.sixteen_lt_rounds
  have hstart : s.Compressing (s.var.rounds - 16 + s.var.rounds + 2 + 1) := .extract hphase (by omega)
  obtain ⟨wv, W, hrun⟩ := hstart.run halone hbusy
  exact ⟨_, hrun, rfl, rfl⟩

end Machine

end Sys2Proof
end

section
/-! PROOFS. The statements on the digest driver: the host's commands and register reads, the engine's steps, and the whole
computation, alone and interleaved with the host's moves (spec/45_digest_driver.md). -/

namespace Sys2Proof.Machine

/-! ### The host's commands (R230, R231, R232) -/

/-- START with no computation in flight is accepted (R231). -/
theorem startOrReject_idle (v : Variant) {s : State} (h : s.busy = false) : startOrReject v s = beginComputation v s :=
  if_neg (by simp [h])

/-- START with a computation in flight is rejected (R276). -/
theorem startOrReject_busy (v : Variant) {s : State} (h : s.busy = true) : startOrReject v s = rejectCommand s :=
  if_pos h

/-- A CMD write is the command its word decodes to (R230). -/
theorem exec_wrCmd (x : Word) (s : State) : exec (.wrCmd x) s = exec (decodeCmd x) s := by
  rw [exec, execWrCmd]
  rcases performCommand_cases x s with ⟨hx, hperform⟩ | ⟨v, hx, hperform⟩ | ⟨hx, hperform⟩ <;> rw [hx, hperform] <;> rfl

/-- Settles O17: each kind of command word, by what it decodes to. -/
theorem cmdWritePerformsItsCommand : Obligations.CmdWritePerformsItsCommand := by
  unfold Obligations.CmdWritePerformsItsCommand
  intro data s
  refine ⟨⟨_, rfl⟩, exec_wrCmd data s, fun hnop => ?_, fun v hstart => ⟨fun hidle => ?_, fun hbusy => ?_⟩, fun hreject => ?_⟩
  · rw [exec_wrCmd, hnop]
    rfl
  · rw [exec_wrCmd, hstart, exec, execStart, startOrReject_idle v hidle]
  · rw [exec_wrCmd, hstart, exec, execStart, startOrReject_busy v hbusy]
    rfl
  · rw [exec_wrCmd, hreject]
    rfl

/-- Settles O8: the command word is fetched decoded, and the access is fetched as the write to CMD. -/
theorem stepRunsTheDecodedCommand : Obligations.StepRunsTheDecodedCommand := by
  unfold Obligations.StepRunsTheDecodedCommand
  intro s rest value hmove
  have hcommand : step s = exec (decodeCmd value) { s with agenda := rest } := step_of_run (fetch_of_moveNext hmove)
  have haccess : step { s with agenda := .access ⟨true, 0, 64, value⟩ :: rest } =
      exec (.wrCmd value) { s with agenda := rest } :=
    stepRunsTheDecodedAccess _ rest ⟨true, 0, 64, value⟩ (.wrCmd value) (.inl (.inl rfl)) rfl (show 0 < 256 by decide)
      (BusAccess.decode_encoded ⟨true, 0, 64, value⟩)
  exact ⟨hcommand, hcommand.trans ((exec_wrCmd value _).symm.trans haccess.symm)⟩

/-- Settles O13: 0 decodes to NOP and 0x10 to a rejected word. -/
theorem nopChangesNothing : Obligations.NopChangesNothing := by
  unfold Obligations.NopChangesNothing
  have hnop : decodeCmd 0x0 = .nop := by decide
  have hreject : decodeCmd 0x10 = .reject 0x10 := by decide
  refine fun s => ⟨rfl, ?_, ?_⟩
  · rw [exec_wrCmd, hnop]
    rfl
  · rw [exec_wrCmd, hreject]
    rfl

/-- Settles O14: START by `busy`, and the two words that decode to it. -/
theorem startBeginsAComputation : Obligations.StartBeginsAComputation := by
  unfold Obligations.StartBeginsAComputation
  intro v s
  have hword : (if v = .sha256 then 0x1 else 0x11) = startWord v := by cases v <;> decide
  refine ⟨fun hidle => ?_, fun hbusy => ?_, ?_⟩
  · rw [exec, execStart, startOrReject_idle v hidle]
    rfl
  · rw [exec, execStart, startOrReject_busy v hbusy]
    rfl
  · rw [hword, exec_wrCmd, decodeCmd_startWord]

/-- Settles O20: an aligned WR elsewhere performs nothing. -/
theorem writesElsewhereChangeNothing : Obligations.WritesElsewhereChangeNothing := by
  unfold Obligations.WritesElsewhereChangeNothing
  intro off data s halign hne
  rw [exec, execWr, if_neg hne, atAligned_of_aligned (beq_iff_eq.2 halign)]

/-! ### Register reads (R237) -/

/-- The DIGEST registers stand at 0x40 to 0x78 (R44). -/
theorem registerAt_digest {off : BitVec 8} {i : Fin 8} (h : off.toNat / 8 = 8 + i.val) : registerAt off = .digest i := by
  rw [registerAt, h]
  fin_cases i <;> rfl

/-- The reserved offsets are 0x20 to 0x3f, and those from 0x80 on (R44). -/
theorem registerAt_reserved {off : BitVec 8} (h : (0x20 ≤ off.toNat ∧ off.toNat < 0x40) ∨ 0x80 ≤ off.toNat) :
    registerAt off = .reserved := by
  unfold registerAt
  split <;> first | omega | rfl

/-- RD of LEN or DIGEST while no result is published shows the next draw (R49, R50, R237). -/
theorem exec_rd_of_none {off : BitVec 8} {s : State} (haligned : alignedOff off = true)
    (h : registerValue s (registerAt off) = none) :
    exec (.rd off) s = .next { s with reads := Config.anyRead s.draws :: s.reads, draws := s.draws + 1 } := by
  rw [exec, execRd, atAligned_of_aligned haligned, readRegister_any h]

/-- The registers whose value is published with `done` (R49, R50). -/
theorem registerValue_unpublished {off : BitVec 8} {s : State}
    (hoff : off = 0x10 ∨ off = 0x18 ∨ 0x40 ≤ off.toNat ∧ off.toNat < 0x80) (hdone : s.done = false) :
    registerValue s (registerAt off) = none := by
  rcases hoff with rfl | rfl | ⟨hlow, hhigh⟩
  · exact if_neg (by simp [hdone])
  · exact if_neg (by simp [hdone])
  · rw [registerAt_digest (i := ⟨off.toNat / 8 - 8, by omega⟩) (by dsimp only; omega)]
    exact if_neg (by simp [hdone])

/-- Settles O18: the register at the offset, and its value. -/
theorem registerReadsReturnTheirValue : Obligations.RegisterReadsReturnTheirValue := by
  unfold Obligations.RegisterReadsReturnTheirValue
  intro off s
  refine ⟨fun hmis => ?_, fun halign => ?_⟩
  · rw [exec, execRd, atAligned, if_neg (by simpa [alignedOff] using hmis)]
  · have haligned : alignedOff off = true := beq_iff_eq.2 halign
    refine ⟨?_, ?_, ?_, ?_, fun i hi hdone => ?_, fun hoff hdone => ?_, fun hoff => ?_⟩
    · rintro rfl
      exact exec_rd_of_some haligned rfl
    · rintro rfl
      exact exec_rd_of_some haligned rfl
    · rintro rfl hdone
      exact exec_rd_of_some haligned (if_pos hdone)
    · rintro rfl hdone
      exact exec_rd_of_some haligned (if_pos hdone)
    · have hregister : registerAt off = .digest i := registerAt_digest (by omega)
      exact exec_rd_of_some haligned (by rw [hregister]; exact if_pos hdone)
    · exact exec_rd_of_none haligned (registerValue_unpublished hoff hdone)
    · exact exec_rd_of_some haligned (by rw [registerAt_reserved hoff]; rfl)

/-! ### The engine's phases (R234, R235, R236) -/

/-- Settles O39: FINISH is its rule. -/
theorem finishPublishesTheDigest : Obligations.FinishPublishesTheDigest := fun _ => rfl

/-- Settles O40: IDLE is its rule. -/
theorem idleKeepsAllState : Obligations.IdleKeepsAllState := fun _ => rfl

/-- Of a FILL that has a step, while the input goes on and the source answers: it handles this answer (R152). -/
theorem execFill_answer {s t : State} {r : SrcResponse} {rs : List SrcResponse} (h : execFill s = .next t)
    (heoi : s.eoiSeen = false) (hanswer : answerNext s r rs) : fillFrom r rs s = .next t := by
  rcases execFill_next h with ⟨heoi', -⟩ | ⟨-, hroom, -⟩
  · simp [heoi] at heoi'
  · rw [← execFill_of_answerNext heoi (Nat.lt_of_sub_pos hroom) hanswer, h]

/-- The phase after a FILL with an answer (R152, R236, R272). -/
theorem fillFrom_phase {s t : State} {r : SrcResponse} {rs : List SrcResponse} (h : fillFrom r rs s = .next t) :
    ((r.fail = true ∨ lengthOverflows s r.k = true) ∧ t.phase = 0 ∧ t.err = true) ∨
      (r.fail = false ∧ lengthOverflows s r.k = false ∧ t.phase = phaseAfterFill s r.k r.eoi) := by
  rcases fillFrom_next h with ⟨hfail, rfl⟩ | ⟨hfail, -, -, ⟨hover, rfl⟩ | ⟨hfits, rfl⟩⟩
  · exact .inl ⟨.inl hfail, rfl, rfl⟩
  · exact .inl ⟨.inr hover, rfl, rfl⟩
  · exact .inr ⟨hfail, hfits, rfl⟩

theorem lengthOverflows_iff {s : State} {k : ℕ} :
    lengthOverflows s k = true ↔ 2 ^ s.var.lengthBits ≤ s.len.toNat + 8 * k := decide_eq_true_iff

/-- FILL's rows of R236. -/
theorem execFill_phase {s t : State} (h : execFill s = .next t) :
    (s.eoiSeen = true → t.phase = 2) ∧
    (s.eoiSeen = false → ∀ r rest, answerNext s r rest →
      ((r.fail = true ∨ 2 ^ s.var.lengthBits ≤ s.len.toNat + 8 * r.k) → t.phase = 0 ∧ t.err = true) ∧
      (r.fail = false → s.len.toNat + 8 * r.k < 2 ^ s.var.lengthBits →
        (s.cnt.toNat + r.k = s.var.blockBytes ∨ r.eoi = true → t.phase = 2) ∧
        (s.cnt.toNat + r.k < s.var.blockBytes → r.eoi = false → t.phase = 1))) := by
  refine ⟨fun heoi => ?_, fun heoi r rest hanswer => ?_⟩
  · rw [execFill, if_pos heoi] at h
    cases h
    rfl
  · simp only [← lengthOverflows_iff, ← not_le, Bool.not_eq_true]
    rcases fillFrom_phase (execFill_answer h heoi hanswer) with ⟨hstop, herr⟩ | ⟨hfail, hfits, hphase⟩
    · refine ⟨fun _ => herr, fun hfail hfits => ?_⟩
      simp [hfail, hfits] at hstop
    · refine ⟨fun hstop => by simp [hfail, hfits] at hstop, fun _ _ => ⟨fun hend => ?_, fun hroom heoi => ?_⟩⟩
      · rw [hphase, phaseAfterFill, if_pos hend]
      · rw [hphase, phaseAfterFill, if_neg (by simp [(not_le.1 hroom).ne, heoi])]

theorem execPad_phase {s t : State} (h : execPad s = .next t) : t.phase = 4 := by
  rcases execPad_next h with ⟨-, rfl⟩ | ⟨-, rfl⟩ | ⟨-, -, rfl⟩ <;> rfl

/-- SCHED's rows of R236. -/
theorem execSched_phase {s t : State} (h : execSched s = .next t) :
    (s.t.toNat + 1 < s.var.rounds → t.phase = 5 ∧ t.t = s.t + 1) ∧
      (s.t.toNat + 1 = s.var.rounds → t.phase = 6 ∧ t.t = 0) := by
  obtain ⟨-, -, ⟨hlast, rfl⟩ | ⟨hmore, rfl⟩⟩ := execSched_next h
  · exact ⟨fun hlt => absurd hlast hlt.ne, fun _ => ⟨rfl, rfl⟩⟩
  · exact ⟨fun _ => ⟨rfl, rfl⟩, fun hlast => absurd hlast hmore⟩

/-- ROUND's rows of R236. -/
theorem execRound_phase {s t : State} (h : execRound s = .next t) :
    (s.t.toNat + 1 < s.var.rounds → t.phase = 7 ∧ t.t = s.t + 1) ∧
      (s.t.toNat + 1 = s.var.rounds → t.phase = 8 ∧ t.t = 0) := by
  obtain ⟨-, ⟨hlast, rfl⟩ | ⟨hmore, rfl⟩⟩ := execRound_next h
  · exact ⟨fun hlt => absurd hlast hlt.ne, fun _ => ⟨rfl, rfl⟩⟩
  · exact ⟨fun _ => ⟨rfl, rfl⟩, fun hlast => absurd hlast hmore⟩

/-- ACCUM's rows of R236. -/
theorem execAccum_phase {s t : State} (h : execAccum s = .next t) :
    (s.pstate = .done → t.phase = 9) ∧ (s.pstate = .padPending → t.phase = 3) ∧
      (s.pstate = .reading → t.phase = 1 ∧ t.cnt = 0) := by
  cases h
  refine ⟨fun hps => ?_, fun hps => ?_, fun hps => ⟨?_, if_pos hps⟩⟩ <;> dsimp only <;> rw [hps] <;> rfl

/-- Settles O41: row by row of R236. -/
theorem nextPhaseFollowsTheTable : Obligations.NextPhaseFollowsTheTable := by
  unfold Obligations.NextPhaseFollowsTheTable
  refine fun s t => ⟨?_, execFill_phase, execPad_phase, ?_, ?_, execSched_phase, ?_, execRound_phase, execAccum_phase, ?_⟩
  · rintro ⟨⟩; rfl
  · rintro ⟨⟩; rfl
  · rintro ⟨⟩; exact ⟨rfl, rfl⟩
  · rintro ⟨⟩; exact ⟨rfl, rfl⟩
  · rintro ⟨⟩; rfl

/-! ### The engine's turn (R235) -/

/-- Without a computation the engine's turn changes nothing but the agenda (R235; log 9). -/
theorem step_of_idle {s : State} {later : List Event} (hmove : engineTurn s later) (hbusy : s.busy = false) :
    step s = .next { s with agenda := later } := by
  have hfetch : fetch s = fetchEngine { s with agenda := later } := fetch_of_moveNext hmove
  rw [fetchEngine, if_neg (by simp [hbusy])] at hfetch
  rw [step_of_run hfetch]
  rfl

/-- While the source does not answer, FILL waits (R82, R289). -/
theorem execFill_waits {s : State} (heoi : s.eoiSeen = false) (hroom : s.cnt.toNat < s.var.blockBytes)
    (hnone : nextAnswer s = none) : execFill s = .next s := by
  have hrequest : requestSize s ≠ 0 := (Nat.sub_pos_of_lt hroom).ne'
  simp only [execFill, heoi, hrequest, hnone, Bool.false_eq_true, if_false]

/-- The phase register names no instruction of the host (R116). -/
theorem decodePhase_engine {c : BitVec 4} {i : Instr} (h : decodePhase c = .ok i) : hostIssues i = false := by
  rcases decodePhase_ok h with ⟨-, rfl⟩ | ⟨-, rfl⟩ | ⟨-, rfl⟩ | ⟨-, rfl⟩ | ⟨-, rfl⟩ | ⟨-, rfl⟩ | ⟨-, rfl⟩ | ⟨-, rfl⟩ |
    ⟨-, rfl⟩ | ⟨-, rfl⟩ <;> rfl

/-- An answer that has been handled was requested (R52, R82). -/
theorem fillFrom_requests {s t : State} {r : SrcResponse} {rs : List SrcResponse} (h : fillFrom r rs s = .next t) :
    t.requests = requestSize s :: s.requests := by
  rcases fillFrom_next h with ⟨-, rfl⟩ | ⟨-, -, -, ⟨-, rfl⟩ | ⟨-, rfl⟩⟩ <;> rfl

/-- An engine enabled in FILL has a step that leaves the phase or makes a request (R82, R152). -/
theorem execFill_moves {s t : State} (henabled : engineEnabled s = true) (hphase : s.phase = 1)
    (h : execFill s = .next t) : t.phase ≠ s.phase ∨ t.requests ≠ s.requests := by
  rcases execFill_next h with ⟨-, rfl⟩ | ⟨heoi, -, ⟨hnone, -⟩ | ⟨r, rs, -, hfill⟩⟩
  · exact .inl (by simp [hphase])
  · simp [engineEnabled, hphase, heoi, hnone] at henabled
  · exact .inr (by rw [fillFrom_requests hfill]; exact List.cons_ne_self _ _)

/-- A SCHED step leaves the phase or moves the index (R186). -/
theorem execSched_moves {s t : State} (hphase : s.phase = 5) (h : execSched s = .next t) :
    t.phase ≠ s.phase ∨ t.t ≠ s.t := by
  obtain ⟨-, hlt, ⟨-, rfl⟩ | ⟨-, rfl⟩⟩ := execSched_next h
  · exact .inl (by simp [hphase])
  · exact .inr fun heq => absurd ((index_succ hlt).symm.trans (congrArg BitVec.toNat heq)) (Nat.succ_ne_self _)

/-- A ROUND step leaves the phase or moves the index (R208). -/
theorem execRound_moves {s t : State} (hphase : s.phase = 7) (h : execRound s = .next t) :
    t.phase ≠ s.phase ∨ t.t ≠ s.t := by
  obtain ⟨hlt, ⟨-, rfl⟩ | ⟨-, rfl⟩⟩ := execRound_next h
  · exact .inl (by simp [hphase])
  · exact .inr fun heq => absurd ((index_succ hlt).symm.trans (congrArg BitVec.toNat heq)) (Nat.succ_ne_self _)

/-- The phase after ACCUM is another (R209). -/
theorem phaseAfterAccum_ne_eight (ps : PadState) : phaseAfterAccum ps ≠ 8 := by cases ps <;> decide

/-- ACCUM leaves its phase (R209). -/
theorem execAccum_moves {s t : State} (hphase : s.phase = 8) (h : execAccum s = .next t) : t.phase ≠ s.phase := by
  cases h
  rw [hphase]
  exact phaseAfterAccum_ne_eight _

/-- The micro-operation of an enabled engine leaves the phase, moves the index or makes a request. -/
theorem exec_phase_moves {i : Instr} {s t : State} (henabled : engineEnabled s = true)
    (hactive : s.phase ≠ 0) (hphase : decodePhase s.phase = .ok i) (h : exec i s = .next t) :
    t.phase ≠ s.phase ∨ t.t ≠ s.t ∨ t.requests ≠ s.requests := by
  rcases decodePhase_ok hphase with ⟨hp, rfl⟩ | ⟨hp, rfl⟩ | ⟨hp, rfl⟩ | ⟨hp, rfl⟩ | ⟨hp, rfl⟩ | ⟨hp, rfl⟩ | ⟨hp, rfl⟩ |
    ⟨hp, rfl⟩ | ⟨hp, rfl⟩ | ⟨hp, rfl⟩
  · exact absurd hp hactive
  · exact (execFill_moves henabled hp h).imp id .inr
  · exact .inl (by simp [execPad_phase h, hp])
  · cases h
    exact .inl (by simp [hp])
  · cases h
    exact .inl (by simp [hp])
  · exact (execSched_moves hp h).imp id .inl
  · cases h
    exact .inl (by simp [hp])
  · exact (execRound_moves hp h).imp id .inl
  · exact .inl (execAccum_moves hp h)
  · cases h
    exact .inl (by simp [hp])

theorem execFill_refused {s : State} {r : Refusal} (h : execFill s = .refused r) : r = .sourceProtocol := by
  unfold execFill at h
  split at h
  · cases h
  · split at h
    · cases h
    · split at h
      · cases h
      · unfold fillFrom at h
        split at h
        · cases h
        · split at h
          · cases h
            rfl
          · split at h <;> cases h

theorem execPad_ne_refused (s : State) (r : Refusal) : execPad s ≠ .refused r := by
  unfold execPad
  split <;> nofun

theorem execSched_ne_refused (s : State) (r : Refusal) : execSched s ≠ .refused r := by
  unfold execSched
  dsimp only
  split
  · nofun
  · split <;> nofun

theorem execRound_ne_refused (s : State) (r : Refusal) : execRound s ≠ .refused r := by
  unfold execRound
  split
  · nofun
  · split <;> nofun

/-- The engine refuses nothing but an answer that breaks the source's protocol (R83). -/
theorem exec_engine_refused {i : Instr} {s : State} {r : Refusal} (hi : hostIssues i = false)
    (h : exec i s = .refused r) : r = .sourceProtocol := by
  cases i with
  | nop | start | reject | rd | wrCmd | wr => cases hi
  | idle | padblk | extract | initwv | accum | finish => cases h
  | fill => exact execFill_refused h
  | pad => exact absurd h (execPad_ne_refused s r)
  | sched => exact absurd h (execSched_ne_refused s r)
  | round => exact absurd h (execRound_ne_refused s r)

/-- In a state of the invariant the micro-operation of an enabled engine changes its place, its flags or the requests made,
unless the source breaks its protocol (R83, R235). -/
theorem State.Inv.exec_phase_enabled {i : Instr} {s : State} (h : s.Inv) (henabled : engineEnabled s = true)
    (hbusy : s.busy = true) (hphase : decodePhase s.phase = .ok i) : exec i s = .refused .sourceProtocol ∨
      ∃ t, exec i s = .next t ∧ (t.phase, t.t, t.requests, t.busy) ≠ (s.phase, s.t, s.requests, s.busy) := by
  cases hexec : exec i s with
  | next t =>
    have hmoves := exec_phase_moves henabled (h.control.busy_iff.1 hbusy) hphase hexec
    refine .inr ⟨t, rfl, ?_⟩
    simp only [ne_eq, Prod.mk.injEq, not_and_or]
    exact hmoves.imp_right (Or.imp_right .inl)
  | fault f => exact absurd hexec (h.exec_phase_ne_fault hphase f)
  | refused r =>
    rw [exec_engine_refused (decodePhase_engine hphase) hexec]
    exact .inl rfl

/-- Not enabled, the engine is idle, or waits in FILL for the source (R82, R235). -/
theorem engineEnabled_eq_false {s : State} (h : engineEnabled s = false) :
    s.busy = false ∨ (s.phase = 1 ∧ s.eoiSeen = false ∧ nextAnswer s = none) := by
  unfold engineEnabled at h
  cases hbusy : s.busy
  · exact .inl rfl
  · exact .inr (by simpa [hbusy, and_assoc] using h)

/-- Settles O10: idle or waiting, the engine's turn changes nothing; enabled, it runs the micro-operation of its phase. -/
theorem engineStepsExactlyWhenEnabled : Obligations.EngineStepsExactlyWhenEnabled := by
  unfold Obligations.EngineStepsExactlyWhenEnabled
  intro s rest hturn h
  constructor
  · intro hdisabled
    rcases engineEnabled_eq_false hdisabled with hidle | ⟨hphase, heoi, hnone⟩
    · exact step_of_idle hturn hidle
    · have hbusy : s.busy = true := h.control.busy_iff.2 (by simp [hphase])
      rw [stepRunsTheDecodedPhase s rest .fill hturn hbusy (by rw [hphase]; rfl)]
      exact execFill_waits (s := { s with agenda := rest }) heoi (h.padding.fill_room hphase) hnone
  · intro henabled
    have hbusy : s.busy = true := (Bool.and_eq_true_iff.1 henabled).1
    have hagenda : { s with agenda := rest }.Inv := h.of_bare rfl
    cases hphase : decodePhase s.phase with
    | ok i =>
      rw [stepRunsTheDecodedPhase s rest i hturn hbusy hphase]
      exact hagenda.exec_phase_enabled henabled hbusy hphase
    | error e =>
      have := decodePhase_error hphase
      have := h.control.phase_legal
      omega

/-! ### The blocks of the padded message (R150, R159) -/

/-- The padding ends in the block of the last data bytes when the marker and the length field still fit there (R154, R159). -/
theorem padded_of_final {v : Variant} {j : ℕ} {whole data : List Byte} (hwhole : whole.length = j * v.blockBytes)
    (hdata : data.length ≤ v.finalMax) :
    blockCount v (whole ++ data).length = j + 1 ∧ padded v (whole ++ data) = whole ++ (data ++
      finalPadding v data.length (BitVec.ofNat 128 (8 * (whole ++ data).length))) := by
  have hlength : (whole ++ data).length = j * v.blockBytes + data.length := by rw [List.length_append, hwhole]
  have hzeros : zeroFill v (whole ++ data).length = v.blockBytes - v.lengthBytes - (data.length + 1) := by
    rw [hlength]
    cases v <;> simp only [zeroFill, Variant.blockBytes, Variant.lengthBytes, Variant.finalMax] at hdata ⊢ <;> omega
  refine ⟨?_, ?_⟩
  · rw [hlength]
    cases v <;> simp only [blockCount, Variant.blockBytes, Variant.lengthBytes, Variant.finalMax] at hdata ⊢ <;> omega
  · rw [padded, hzeros, finalPadding, List.append_assoc, List.append_assoc]

/-- Otherwise the marker's block is followed by the length-only block (R154, R158, R159). -/
theorem padded_of_spill {v : Variant} {j : ℕ} {whole data : List Byte} (hwhole : whole.length = j * v.blockBytes)
    (hlow : v.finalMax < data.length) (hhigh : data.length < v.blockBytes) :
    blockCount v (whole ++ data).length = j + 2 ∧ padded v (whole ++ data) = whole ++ (data ++
      spillPadding v data.length) ++ lengthBlock v (BitVec.ofNat 128 (8 * (whole ++ data).length)) := by
  have hlength : (whole ++ data).length = j * v.blockBytes + data.length := by rw [List.length_append, hwhole]
  have hzeros : zeroFill v (whole ++ data).length =
      (v.blockBytes - (data.length + 1)) + (v.blockBytes - v.lengthBytes) := by
    rw [hlength]
    cases v <;> simp only [zeroFill, Variant.blockBytes, Variant.lengthBytes, Variant.finalMax] at hlow hhigh ⊢ <;> omega
  refine ⟨?_, ?_⟩
  · rw [hlength]
    cases v <;> simp only [blockCount, Variant.blockBytes, Variant.lengthBytes, Variant.finalMax] at hlow hhigh ⊢ <;>
      omega
  · simp only [padded, hzeros, spillPadding, lengthBlock, List.replicate_add, List.append_assoc, List.cons_append]

/-- The padded message goes on from the message (R159). -/
theorem prefix_padded (v : Variant) (m : List Byte) : m <+: padded v m :=
  (List.prefix_append _ _).trans (List.prefix_append _ _)

/-- A block of the padded message is the piece of it at its place (R150). -/
theorem blockAt_of_append {v : Variant} {j : ℕ} {whole block rest : List Byte} (hwhole : whole.length = j * v.blockBytes)
    (hblock : block.length = v.blockBytes) : blockAt v (whole ++ (block ++ rest)) j = block := by
  rw [blockAt, ← hwhole, List.drop_left, ← hblock, List.take_left]

/-! ### The answers of the source (R14, R82) -/

/-- The source's duty in its first answer (R82, R83): it does not fail, its bytes fit the room, and it is the last one exactly
when it ends the input. -/
theorem answersWell_cons {v : Variant} {cnt : ℕ} {r : SrcResponse} {rs : List SrcResponse}
    (h : answersWell v cnt (r :: rs) = true) : r.fail = false ∧ r.data.length = r.k ∧ r.k ≤ v.blockBytes - cnt ∧
      ((r.eoi = true ∧ rs = []) ∨ (r.eoi = false ∧ answersWell v ((cnt + r.k) % v.blockBytes) rs = true)) := by
  simp only [answersWell, Bool.and_eq_true, Bool.not_eq_true', beq_iff_eq, decide_eq_true_eq] at h
  obtain ⟨⟨⟨hfail, hdata⟩, hroom⟩, hnext⟩ := h
  refine ⟨hfail, hdata, hroom, ?_⟩
  cases heoi : r.eoi
  · exact .inr ⟨rfl, by simpa [heoi] using hnext⟩
  · exact .inl ⟨rfl, by simpa [heoi] using hnext⟩

theorem answersWell_ne_nil {v : Variant} {cnt : ℕ} {answers : List SrcResponse} (h : answersWell v cnt answers = true) :
    answers ≠ [] := by
  rintro rfl
  simp [answersWell] at h

theorem messageOf_cons (r : SrcResponse) (rs : List SrcResponse) : messageOf (r :: rs) = r.data ++ messageOf rs :=
  List.flatMap_cons

/-! ### Bytes in the buffer -/

/-- The bytes read are those of two pieces. -/
theorem Memory.readList_add (m : Memory) (a k n : ℕ) :
    Memory.readList m a (k + n) = Memory.readList m a k ++ Memory.readList m (a + k) n := by
  simp [Memory.readList, List.range_add, Nat.add_assoc]

/-- Bytes written after `k` bytes read back after them. -/
theorem Memory.readList_writeList_append {m : Memory} (h : Memory.wf m) (k : ℕ) (bytes : List Byte) :
    Memory.readList (Memory.writeList m k bytes) 0 (k + bytes.length) = Memory.readList m 0 k ++ bytes := by
  have hbefore : Memory.readList (Memory.writeList m k bytes) 0 k = Memory.readList m 0 k :=
    List.map_congr_left fun j hj => Memory.read_writeList_outside h (.inl (by simpa using hj))
  rw [Memory.readList_add, hbefore, Nat.zero_add, Memory.readList_writeList h]

/-! ### Runs -/

/-- `n` steps from `s` lead to a state of which `P` holds. -/
def State.leadsTo (s : State) (n : ℕ) (P : State → Prop) : Prop :=
  ∃ t, Host.Core.run Sys2Proof.core n s = .next t ∧ P t

theorem State.leadsTo_zero {s : State} {P : State → Prop} (h : P s) : s.leadsTo 0 P := ⟨s, rfl, h⟩

theorem State.leadsTo_succ {s t : State} {n : ℕ} {P : State → Prop} (hstep : step s = .next t) (h : t.leadsTo n P) :
    s.leadsTo (n + 1) P := by
  obtain ⟨u, hrun, hu⟩ := h
  exact ⟨u, (run_succ n hstep).trans hrun, hu⟩

/-- A run that answers a next state has taken a first step and gone on. -/
theorem exists_step_of_run_succ {s t : State} {n : ℕ} (h : Host.Core.run Sys2Proof.core (n + 1) s = .next t) :
    ∃ u, step s = .next u ∧ Host.Core.run Sys2Proof.core n u = .next t := by
  cases hstep : step s with
  | next u => exact ⟨u, rfl, (run_succ n hstep).symm.trans h⟩
  | fault f => simp [Host.Core.run, core, hstep] at h
  | refused r => simp [Host.Core.run, core, hstep] at h

/-- A run in two parts. -/
theorem State.leadsTo_add {s t : State} {m n : ℕ} {P : State → Prop}
    (hrun : Host.Core.run Sys2Proof.core m s = .next t) (h : t.leadsTo n P) : s.leadsTo (m + n) P := by
  induction m generalizing s with
  | zero =>
    cases hrun
    rwa [Nat.zero_add]
  | succ m ih =>
    obtain ⟨u, hstep, hrun⟩ := exists_step_of_run_succ hrun
    rw [Nat.add_right_comm]
    exact State.leadsTo_succ hstep (ih hrun)

/-! ### The computation, block by block (R239, R240) -/

/-- The bytes of the current block that are in the buffer (R35). -/
def State.filled (s : State) : List Byte := Memory.readList s.blk 0 s.cnt.toNat

/-- The engine steps of a block, from PAD or PADBLK to ACCUM (R210, R240). -/
def blockSteps (v : Variant) : ℕ := v.rounds - 16 + v.rounds + 3 + 1

/-- The FILL steps that make no request (R240), in the computation of a message of `n` bytes with these answers to come. -/
def latchesLeft (v : Variant) (n : ℕ) (answers : List SrcResponse) : ℕ :=
  if n % v.blockBytes = 0 ∧ (answers.getLastD ⟨0, [], true, false⟩).k ≠ 0 then 1 else 0

theorem latchesLeft_cons (v : Variant) (n : ℕ) (r : SrcResponse) {rs : List SrcResponse} (h : rs ≠ []) :
    latchesLeft v n (r :: rs) = latchesLeft v n rs := by
  obtain ⟨q, qs, rfl⟩ := List.exists_cons_of_ne_nil h
  rfl

/-- The state `s` with the fields that the steps of a block from EXTRACT to ACCUM write. -/
def State.withBlock (s : State) (H wv : Vector Word 8) (W : Vector Word 80) : State :=
  { s with H := H, wv := wv, W := W, t := 0, cnt := if s.pstate = .reading then 0 else s.cnt,
           phase := phaseAfterAccum s.pstate }

/-- With one answer left, a FILL without a request is to come exactly when its bytes complete the block (R240). -/
theorem latchesLeft_singleton {v : Variant} {n j c : ℕ} {r : SrcResponse} (hc : c < v.blockBytes)
    (hk : r.k ≤ v.blockBytes - c) (hn : n = j * v.blockBytes + (c + r.k)) :
    latchesLeft v n [r] = if c + r.k = v.blockBytes then 1 else 0 := by
  have hmod : n % v.blockBytes = (c + r.k) % v.blockBytes := by rw [hn, Nat.mul_add_mod_self_right]
  have hlast : [r].getLastD ⟨0, [], true, false⟩ = r := rfl
  rw [latchesLeft, hmod, hlast]
  by_cases hfull : c + r.k = v.blockBytes
  · rw [hfull, if_pos rfl, if_pos ⟨Nat.mod_self _, by omega⟩]
  · rw [if_neg hfull, Nat.mod_eq_of_lt (by omega), if_neg (by omega)]

section Computation

variable (v : Variant) (m : List Byte) (rest : List SrcResponse)

/-- A computation of the hash of `m` runs, with the engine alone, and the running digest is that of the first `j` blocks
`whole` of the padded message. -/
structure State.Hashing (s : State) (whole : List Byte) (j : ℕ) : Prop where
  alone : engineAlone s
  busy : s.busy = true
  err : s.err = false
  var : s.var = v
  wf : Memory.wf s.blk
  blocks : whole.length = j * v.blockBytes
  digest : s.H = (digestAfter v m j).map zext

/-- The message is being read (R34): `answers` are those the source has still to give, and what it has given are the blocks
`whole` and the bytes in the buffer. -/
structure State.Reading (s : State) (whole : List Byte) (j : ℕ) (answers : List SrcResponse) : Prop
    extends s.Hashing v m whole j where
  reading : s.pstate = .reading
  eoiSeen : s.eoiSeen = answers.isEmpty
  source : s.source = answers ++ rest
  message : m = whole ++ (s.filled ++ messageOf answers)
  length : s.len.toNat = 8 * (whole.length + s.cnt.toNat)
  cnt_le : s.cnt.toNat ≤ v.blockBytes

/-- The whole message has been read, and its padding has begun (R34). -/
structure State.Ended (s : State) (whole : List Byte) (j : ℕ) : Prop extends s.Hashing v m whole j where
  eoiSeen : s.eoiSeen = true
  source : s.source = rest
  length : s.len.toNat = 8 * m.length

/-- All that is left of the computation is FINISH (R234). -/
structure State.Finishing (s : State) : Prop where
  alone : engineAlone s
  busy : s.busy = true
  phase : s.phase = 9
  err : s.err = false
  var : s.var = v
  pstate : s.pstate = .done
  eoiSeen : s.eoiSeen = true
  source : s.source = rest
  digest : s.H = (sha v m).map zext
  length : s.len.toNat = 8 * m.length

variable {v m rest} {s : State} {whole : List Byte} {j : ℕ}

theorem State.Hashing.step_eq (h : s.Hashing v m whole j) {i : Instr} (hphase : decode (.phase s.phase) = .ok i) :
    step s = exec i s :=
  step_of_engineAlone h.alone h.busy hphase

theorem State.Hashing.digest_eq (h : s.Hashing v m whole j) : s.H.map (lo v) = digestAfter v m j := by
  rw [h.digest, Vector.map_map]
  exact (Vector.map_congr_left fun x _ => lo_zext x).trans (Vector.map_id _)

/-- The block in the buffer is compressed into the running digest (R210, R239). -/
theorem State.Hashing.compress (h : s.Hashing v m whole j) (hphase : s.phase = 4)
    (hblock : whole ++ s.block <+: padded v m) : s.leadsTo (v.rounds - 16 + v.rounds + 3) fun t =>
      (∃ H wv W, t = s.withBlock H wv W) ∧ t.Hashing v m (whole ++ s.block) (j + 1) := by
  obtain rfl := h.var
  have hlength : s.block.length = s.var.blockBytes := Memory.readList_length ..
  obtain ⟨t, hrun, ht, hH⟩ := blockIsCompressed s h.alone h.busy hphase
  refine ⟨t, hrun, ⟨_, _, _, ht⟩, ?_⟩
  have hdigest : t.H = (digestAfter s.var m (j + 1)).map zext := by
    obtain ⟨todo, htodo⟩ := hblock
    rw [hH, h.digest_eq, digestAfter, ← htodo, List.append_assoc, blockAt_of_append h.blocks hlength]
    rfl
  rw [ht]
  exact { h with
    digest := hdigest
    blocks := by rw [List.length_append, h.blocks, hlength, Nat.succ_mul] }

/-- The last block of the padded message leaves the hash (R239). -/
theorem State.Ended.finish (h : s.Ended v m rest whole j) (hphase : s.phase = 4) (hdone : s.pstate = .done)
    (hblock : padded v m = whole ++ s.block) (hcount : blockCount v m.length = j + 1) :
    s.leadsTo (v.rounds - 16 + v.rounds + 3) (State.Finishing v m rest) := by
  obtain ⟨t, hrun, ⟨H, wv, W, rfl⟩, ht⟩ := h.compress hphase (hblock ▸ List.prefix_rfl)
  exact ⟨_, hrun, {
    alone := ht.alone
    busy := ht.busy
    phase := by rw [State.withBlock, hdone]; rfl
    err := ht.err
    var := ht.var
    pstate := hdone
    eoiSeen := h.eoiSeen
    source := h.source
    digest := by rw [ht.digest, sha, hcount]
    length := h.length }⟩

/-- FILL takes the source's answer (R152). -/
theorem State.Reading.fill {r : SrcResponse} {rs : List SrcResponse} (h : s.Reading v m rest whole j (r :: rs))
    (hphase : s.phase = 1) (hroom : s.cnt.toNat < v.blockBytes) (hwell : answersWell v s.cnt.toNat (r :: rs) = true)
    (hfits : 8 * m.length < 2 ^ v.lengthBits) : ∃ t, step s = .next t ∧ t.Reading v m rest whole j rs ∧
      t.cnt.toNat = s.cnt.toNat + r.k ∧
      t.phase = if s.cnt.toNat + r.k = v.blockBytes ∨ r.eoi = true then 2 else 1 := by
  obtain rfl := h.var
  obtain ⟨hfail, hdata, hk, hlast⟩ := answersWell_cons hwell
  have hmessage : m = whole ++ (s.filled ++ (r.data ++ messageOf rs)) := messageOf_cons r rs ▸ h.message
  have hlength : m.length = whole.length + s.cnt.toNat + r.k + (messageOf rs).length := by
    have hfilled : s.filled.length = s.cnt.toNat := Memory.readList_length ..
    rw [hmessage]
    simp only [List.length_append, hfilled, hdata, Nat.add_assoc]
  have hnofl : lengthOverflows s r.k = false := by
    have := h.length
    exact decide_eq_false (by omega)
  have hcnt : (acceptBytes r (takeAnswer (rs ++ rest) s)).cnt.toNat = s.cnt.toNat + r.k := cnt_add_toNat h.cnt_le hk
  have hstep : step s = .next (acceptBytes r (takeAnswer (rs ++ rest) s)) := by
    rw [h.step_eq (i := .fill) (by rw [hphase]; rfl), exec, execFill_of_answerNext h.eoiSeen hroom (.inl h.source)]
    exact fillFrom_accepts _ hfail hk hdata hnofl
  refine ⟨_, hstep, { h with
    wf := Memory.wf_writeList h.wf _ _
    eoiSeen := ?_
    source := rfl
    message := ?_
    length := ?_
    cnt_le := by omega }, hcnt, rfl⟩
  · rcases hlast with ⟨heoi, rfl⟩ | ⟨heoi, hrs⟩
    · exact heoi
    · exact heoi.trans (List.isEmpty_eq_false_iff.2 (answersWell_ne_nil hrs)).symm
  · rw [State.filled, hcnt, acceptBytes_blk, takeAnswer_cnt, takeAnswer_blk, ← hdata,
      Memory.readList_writeList_append h.wf, List.append_assoc]
    exact hmessage
  · rw [hcnt, acceptBytes_len, takeAnswer_len, (len_add_toNat hnofl).1, h.length]
    omega

/-- With the input ended, FILL goes on to PAD (R152). -/
theorem State.Reading.latch (h : s.Reading v m rest whole j []) (hphase : s.phase = 1) :
    step s = .next { s with phase := 2 } ∧ State.Reading v m rest { s with phase := 2 } whole j [] := by
  have heoi : s.eoiSeen = true := h.eoiSeen
  refine ⟨?_, { h with }⟩
  rw [h.step_eq (i := .fill) (by rw [hphase]; rfl), exec, execFill, if_pos heoi]

/-- A full block is compressed as it is, and the next one is filled from its start (R155, R161, R209). -/
theorem State.Reading.block {answers : List SrcResponse} (h : s.Reading v m rest whole j answers) (hphase : s.phase = 2)
    (hfull : s.cnt.toNat = v.blockBytes) : s.leadsTo (blockSteps v) fun t =>
      t.Reading v m rest (whole ++ s.block) (j + 1) answers ∧ t.phase = 1 ∧ t.cnt = 0 := by
  obtain rfl := h.var
  have hfilled : s.filled = s.block := by rw [State.filled, hfull, State.block]
  have hstep : step s = .next { s with phase := 4 } := by
    rw [h.step_eq (i := .pad) (by rw [hphase]; rfl), exec, execPad_full hfull]
  have hextract : State.Hashing s.var m { s with phase := 4 } whole j := { h with }
  have hmessage : m = whole ++ s.block ++ messageOf answers := by
    rw [List.append_assoc, ← hfilled]
    exact h.message
  have hprefix : whole ++ s.block <+: padded s.var m := by
    refine List.IsPrefix.trans ?_ (prefix_padded s.var m)
    exact ⟨messageOf answers, hmessage.symm⟩
  refine State.leadsTo_succ hstep ?_
  obtain ⟨t, hrun, ⟨H, wv, W, rfl⟩, ht⟩ := hextract.compress rfl hprefix
  have hcnt : (State.withBlock { s with phase := 4 } H wv W).cnt = 0 := if_pos h.reading
  refine ⟨_, hrun, { ht with
    reading := h.reading
    eoiSeen := h.eoiSeen
    source := h.source
    message := ?_
    length := ?_
    cnt_le := by rw [hcnt]; exact Nat.zero_le _ }, ?_, hcnt⟩
  · rw [State.filled, hcnt]
    exact hmessage
  · rw [hcnt, List.length_append, ← hfilled, State.filled, Memory.readList_length]
    exact h.length
  · rw [State.withBlock, h.reading]
    rfl

/-- With the input ended, what has been read is the message, and its length is counted (R38). -/
theorem State.Reading.message_eq (h : s.Reading v m rest whole j []) :
    m = whole ++ s.filled ∧ s.filled.length = s.cnt.toNat ∧ s.len = BitVec.ofNat 128 (8 * m.length) := by
  have hfilled : s.filled.length = s.cnt.toNat := Memory.readList_length ..
  have hmessage : m = whole ++ s.filled := by simpa [messageOf] using h.message
  refine ⟨hmessage, hfilled, ?_⟩
  rw [hmessage, List.length_append, hfilled, ← h.length, BitVec.ofNat_toNat, BitVec.setWidth_eq]

/-- PAD completes the block with the bytes of its padding (R155). -/
theorem State.Reading.complete (h : s.Reading v m rest whole j []) {bytes : List Byte}
    (hbytes : s.cnt.toNat + bytes.length = v.blockBytes) (pstate : PadState) {t : State} (ht : t = { s with
      blk := Memory.writeList s.blk s.cnt.toNat bytes, pstate := pstate, phase := 4 }) :
    t.Ended v m rest whole j ∧ t.block = s.filled ++ bytes := by
  obtain rfl := h.var
  obtain ⟨hmessage, hfilled, -⟩ := h.message_eq
  subst ht
  constructor
  · exact { h with
      wf := Memory.wf_writeList h.wf _ _
      length := by rw [hmessage, List.length_append, hfilled]; exact h.length }
  · rw [State.block, ← hbytes, Memory.readList_writeList_append h.wf, State.filled]

/-- The padding and the length field fit the last data block (R154, R155). -/
theorem State.Reading.final (h : s.Reading v m rest whole j []) (hphase : s.phase = 2)
    (hfinal : s.cnt.toNat ≤ v.finalMax) : blockCount v m.length = j + 1 ∧
      s.leadsTo (blockSteps v) (State.Finishing v m rest) := by
  obtain rfl := h.var
  obtain ⟨hmessage, hfilled, hlen⟩ := h.message_eq
  obtain ⟨hcount, hpadded⟩ := padded_of_final h.blocks (hfilled.trans_le hfinal)
  rw [← hmessage] at hcount hpadded
  rw [← hlen, hfilled] at hpadded
  obtain ⟨hended, hblock⟩ := h.complete (finalPadding_length hfinal s.len) .done rfl
  have hstep : step s = execPad s := h.step_eq (i := .pad) (by rw [hphase]; rfl)
  rw [execPad_final hfinal] at hstep
  exact ⟨hcount, State.leadsTo_succ hstep (hended.finish rfl rfl (hblock ▸ hpadded) hcount)⟩

/-- The length-only block is the last one (R158). -/
theorem State.Ended.padblk (h : s.Ended v m rest whole j) (hphase : s.phase = 3)
    (hpadded : padded v m = whole ++ lengthBlock v s.len) (hcount : blockCount v m.length = j + 1) :
    s.leadsTo (blockSteps v) (State.Finishing v m rest) := by
  obtain rfl := h.var
  have hstep : step s = .next { s with
      blk := Memory.writeList s.blk 0 (lengthBlock s.var s.len), pstate := .done, phase := 4 } :=
    h.step_eq (i := .padblk) (by rw [hphase]; rfl)
  have hended : State.Ended s.var m rest { s with
      blk := Memory.writeList s.blk 0 (lengthBlock s.var s.len), pstate := .done, phase := 4 } whole j :=
    { h with wf := Memory.wf_writeList h.wf _ _ }
  have hblock := Memory.readList_writeList h.wf 0 (lengthBlock s.var s.len)
  rw [lengthBlock_length] at hblock
  rw [← hblock] at hpadded
  exact State.leadsTo_succ hstep (hended.finish rfl rfl hpadded hcount)

/-- The length field does not fit the last data block, and the length-only block follows it (R154, R155, R158). -/
theorem State.Reading.spill (h : s.Reading v m rest whole j []) (hphase : s.phase = 2)
    (hlow : v.finalMax < s.cnt.toNat) (hhigh : s.cnt.toNat < v.blockBytes) : blockCount v m.length = j + 2 ∧
      s.leadsTo (2 * blockSteps v) (State.Finishing v m rest) := by
  obtain rfl := h.var
  obtain ⟨hmessage, hfilled, hlen⟩ := h.message_eq
  obtain ⟨hcount, hpadded⟩ := padded_of_spill h.blocks (hlow.trans_eq hfilled.symm) (hfilled.trans_lt hhigh)
  rw [← hmessage] at hcount hpadded
  rw [← hlen, hfilled] at hpadded
  obtain ⟨hended, hblock⟩ := h.complete (spillPadding_length hhigh) .padPending rfl
  rw [← hblock] at hpadded
  have hstep : step s = execPad s := h.step_eq (i := .pad) (by rw [hphase]; rfl)
  rw [execPad_spill hlow hhigh] at hstep
  refine ⟨hcount, ?_⟩
  rw [Nat.two_mul]
  obtain ⟨t, hrun, ⟨H, wv, W, rfl⟩, ht⟩ := hended.compress rfl ⟨_, hpadded.symm⟩
  refine State.leadsTo_add ((run_succ _ hstep).trans hrun) ?_
  exact State.Ended.padblk { ht with
    eoiSeen := hended.eoiSeen
    source := hended.source
    length := hended.length } rfl hpadded hcount

/-- The last data block, and the length-only block if there is one (R154). -/
theorem State.Reading.pad (h : s.Reading v m rest whole j []) (hphase : s.phase = 2)
    (hroom : s.cnt.toNat < v.blockBytes) : ∃ i, blockCount v m.length = j + i ∧
      s.leadsTo (i * blockSteps v) (State.Finishing v m rest) := by
  by_cases hfinal : s.cnt.toNat ≤ v.finalMax
  · exact ⟨1, by rw [Nat.one_mul]; exact h.final hphase hfinal⟩
  · exact ⟨2, h.spill hphase (not_le.1 hfinal) hroom⟩

/-- The last block of the data was full: FILL finds the input ended, and a block of padding alone follows (R240). -/
theorem State.Reading.padAlone (h : s.Reading v m rest whole j []) (hphase : s.phase = 1) (hcnt : s.cnt = 0) :
    ∃ i, blockCount v m.length = j + i ∧ s.leadsTo (1 + i * blockSteps v) (State.Finishing v m rest) := by
  obtain ⟨hstep, hpad⟩ := h.latch hphase
  obtain ⟨i, hcount, hrun⟩ := hpad.pad rfl (by rw [hcnt]; exact v.blockBytes_pos)
  exact ⟨i, hcount, Nat.add_comm _ _ ▸ State.leadsTo_succ hstep hrun⟩

/-- The engine reads the message to its end and hashes it, all but FINISH: by induction on the answers. -/
theorem State.Reading.run {answers : List SrcResponse} (h : s.Reading v m rest whole j answers) (hphase : s.phase = 1)
    (hroom : s.cnt.toNat < v.blockBytes) (hwell : answersWell v s.cnt.toNat answers = true)
    (hfits : 8 * m.length < 2 ^ v.lengthBits) : ∃ i, blockCount v m.length = j + i ∧
      s.leadsTo (i * blockSteps v + latchesLeft v m.length answers + answers.length) (State.Finishing v m rest) := by
  induction answers generalizing s whole j with
  | nil => exact absurd rfl (answersWell_ne_nil hwell)
  | cons r rs ih =>
    obtain ⟨t, hstep, ht, hcnt, hnext⟩ := h.fill hphase hroom hwell hfits
    obtain ⟨-, -, hk, ⟨heoi, rfl⟩ | ⟨heoi, hrs⟩⟩ := answersWell_cons hwell
    · obtain ⟨hmessage, hfilled, -⟩ := ht.message_eq
      have hlength : m.length = j * v.blockBytes + (s.cnt.toNat + r.k) := by
        rw [hmessage, List.length_append, ht.blocks, hfilled, hcnt]
      have hpad : t.phase = 2 := by rw [hnext, if_pos (.inr heoi)]
      rw [latchesLeft_singleton hroom hk hlength]
      by_cases hfull : s.cnt.toNat + r.k = v.blockBytes
      · obtain ⟨u, hrun, hu, huphase, hucnt⟩ := ht.block hpad (hcnt.trans hfull)
        obtain ⟨i, hcount, hrest⟩ := hu.padAlone huphase hucnt
        have hsteps : (1 + i) * blockSteps v + 1 + [r].length = blockSteps v + (1 + i * blockSteps v) + 1 := by
          rw [List.length_singleton]
          ring
        refine ⟨1 + i, by rw [hcount, Nat.add_assoc], ?_⟩
        rw [if_pos hfull, hsteps]
        exact State.leadsTo_succ hstep (State.leadsTo_add hrun hrest)
      · obtain ⟨i, hcount, hrest⟩ := ht.pad hpad (by omega)
        refine ⟨i, hcount, State.leadsTo_succ hstep ?_⟩
        rwa [if_neg hfull]
    · rw [latchesLeft_cons v m.length r (answersWell_ne_nil hrs)]
      by_cases hfull : s.cnt.toNat + r.k = v.blockBytes
      · have hpad : t.phase = 2 := by rw [hnext, if_pos (.inl hfull)]
        obtain ⟨u, hrun, hu, huphase, hucnt⟩ := ht.block hpad (hcnt.trans hfull)
        rw [hfull, Nat.mod_self] at hrs
        obtain ⟨i, hcount, hrest⟩ := ih hu huphase (by rw [hucnt]; exact v.blockBytes_pos) (by rw [hucnt]; exact hrs)
        have hsteps : (1 + i) * blockSteps v + latchesLeft v m.length rs + (r :: rs).length =
            blockSteps v + (i * blockSteps v + latchesLeft v m.length rs + rs.length) + 1 := by
          rw [List.length_cons]
          ring
        refine ⟨1 + i, by rw [hcount, Nat.add_assoc], ?_⟩
        rw [hsteps]
        exact State.leadsTo_succ hstep (State.leadsTo_add hrun hrest)
      · have hfill : t.phase = 1 := by rw [hnext, if_neg (by simp [hfull, heoi])]
        have hroom' : s.cnt.toNat + r.k < v.blockBytes := by omega
        rw [Nat.mod_eq_of_lt hroom', ← hcnt] at hrs
        obtain ⟨i, hcount, hrest⟩ := ih ht hfill (hcnt.trans_lt hroom') hrs
        exact ⟨i, hcount, State.leadsTo_succ hstep hrest⟩

end Computation

/-- The step count of R240 in blocks, FINISH apart. -/
theorem stepCount_eq (v : Variant) (answers : List SrcResponse) : stepCount v answers =
    blockCount v (messageOf answers).length * blockSteps v + latchesLeft v (messageOf answers).length answers +
      answers.length + 1 := by
  have hlatch : latchedFills v answers = latchesLeft v (messageOf answers).length answers := rfl
  rw [stepCount, hlatch, blockSteps]
  ring

/-- Nothing of the message has been read when a computation begins (R231). -/
theorem beginComputation_reading {v : Variant} {answers rest : List SrcResponse} {s : State} (halone : engineAlone s)
    (hsource : s.source = answers ++ rest) (hwf : Memory.wf s.blk) (hanswers : answers ≠ []) :
    (beginComputation v s).Reading v (messageOf answers) rest [] 0 answers where
  alone := halone
  busy := rfl
  err := rfl
  var := rfl
  wf := hwf
  blocks := by simp
  digest := Vector.ext fun i hi => by simp [initialDigest, digestAfter]
  reading := rfl
  eoiSeen := (List.isEmpty_eq_false_iff.2 hanswers).symm
  source := hsource
  message := rfl
  length := rfl
  cnt_le := Nat.zero_le _

/-- From the start of a computation the engine alone comes to FINISH, in one step less than R240 counts. -/
theorem beginComputation_leadsTo {v : Variant} {answers rest : List SrcResponse} {s : State} (halone : engineAlone s)
    (hsource : s.source = answers ++ rest) (hwf : Memory.wf s.blk) (hwell : answersWell v 0 answers = true)
    (hfits : 8 * (messageOf answers).length < 2 ^ v.lengthBits) : ∃ n, stepCount v answers = n + 1 ∧
      (beginComputation v s).leadsTo n (State.Finishing v (messageOf answers) rest) := by
  have hreading := beginComputation_reading (v := v) halone hsource hwf (answersWell_ne_nil hwell)
  obtain ⟨i, hcount, hrun⟩ := hreading.run rfl v.blockBytes_pos hwell hfits
  rw [Nat.zero_add] at hcount
  exact ⟨_, stepCount_eq v answers, hcount ▸ hrun⟩

/-- The START move begins the computation (R230, R231). -/
theorem step_startWord {s : State} {v : Variant} {later : List Event} (hbusy : s.busy = false)
    (hmove : moveNext s (.command (startWord v)) later) :
    step s = .next (beginComputation v { s with agenda := later }) := by
  have hidle : { s with agenda := later }.busy = false := hbusy
  rw [step_of_run (fetch_of_moveNext hmove), decodeCmd_startWord, exec, execStart, startOrReject_idle v hidle]

/-- Settles O53: START, the run of the engine alone, and FINISH. -/
theorem computationHashesTheMessage : Obligations.ComputationHashesTheMessage := by
  unfold Obligations.ComputationHashesTheMessage
  intro v answers rest s hbusy hagenda hafter hsource hwf hwell hfits
  have halone : engineAlone { s with agenda := [] } := ⟨rfl, hafter⟩
  obtain ⟨n, hcount, t, hrun, ht⟩ := beginComputation_leadsTo halone hsource hwf hwell hfits
  have hfinish : step t = exec .finish t := step_of_engineAlone ht.alone ht.busy (by rw [ht.phase]; rfl)
  have hall : s.leadsTo (n + 1 + 1) (· = { t with done := true, busy := false, phase := 0 }) :=
    State.leadsTo_succ (step_startWord hbusy (.inl hagenda)) (State.leadsTo_add hrun ⟨_, run_succ 0 hfinish, rfl⟩)
  obtain ⟨u, hrun, rfl⟩ := hall
  rw [hcount, Nat.add_comm 1]
  exact ⟨_, hrun, rfl, rfl, ht.err, ht.var, ht.pstate, ht.eoiSeen, ht.digest, ht.length, ht.source⟩

/-! ### Moves of the host between the engine's turns (R90, R314) -/

/-- The state `s` with the fields of `h` that the engine neither reads nor writes: the moves to come, the rejection flag, and
what the host has read. -/
def State.withHost (s h : State) : State :=
  { s with cmdRej := h.cmdRej, agenda := h.agenda, agendaAfter := h.agendaAfter, reads := h.reads, draws := h.draws }

/-- The state as the engine sees it, alone. -/
def State.engineView (s : State) : State := s.withHost State.reset

theorem engineView_alone (s : State) : engineAlone s.engineView := ⟨rfl, rfl⟩

/-- FILL does the same with an answer whatever the host does. -/
theorem fillFrom_withHost {r : SrcResponse} {rs : List SrcResponse} {s t : State} (h : fillFrom r rs s = .next t)
    (host : State) : fillFrom r rs (s.withHost host) = .next (t.withHost host) := by
  rcases fillFrom_next h with ⟨hfail, rfl⟩ | ⟨hfail, hroom, hdata, ⟨hover, rfl⟩ | ⟨hfits, rfl⟩⟩
  · exact if_pos hfail
  · exact fillFrom_overflows (s := s.withHost host) rs hfail hroom hdata hover
  · exact fillFrom_accepts (s := s.withHost host) rs hfail hroom hdata hfits

/-- FILL does the same whatever the host does. -/
theorem execFill_withHost {s t : State} (h : execFill s = .next t) (host : State) :
    execFill (s.withHost host) = .next (t.withHost host) := by
  rcases execFill_next h with ⟨heoi, rfl⟩ | ⟨heoi, hroom, hanswer⟩
  · exact if_pos heoi
  · have hroom : s.cnt.toNat < s.var.blockBytes := Nat.lt_of_sub_pos hroom
    rcases hanswer with ⟨hnone, rfl⟩ | ⟨r, rs, hanswer, hfill⟩
    · exact execFill_waits (s := t.withHost host) heoi hroom hnone
    · rw [execFill_of_answerNext (s := s.withHost host) heoi hroom hanswer]
      exact fillFrom_withHost hfill host

/-- The engine's micro-operations do the same whatever the host does. -/
theorem exec_withHost {i : Instr} {s t : State} (hi : hostIssues i = false) (h : exec i s = .next t) (host : State) :
    exec i (s.withHost host) = .next (t.withHost host) := by
  cases i with
  | nop | start | reject | rd | wrCmd | wr => cases hi
  | idle | padblk | extract | initwv | accum | finish =>
    cases h
    rfl
  | fill => exact execFill_withHost h host
  | pad =>
    rcases execPad_next h with ⟨hfull, rfl⟩ | ⟨hfinal, rfl⟩ | ⟨hlow, hhigh, rfl⟩
    · exact execPad_full (s := s.withHost host) hfull
    · exact execPad_final (s := s.withHost host) hfinal
    · exact execPad_spill (s := s.withHost host) hlow hhigh
  | sched =>
    obtain ⟨h16, hlt, -⟩ := execSched_next h
    rw [exec, execSched_of_index h16 hlt] at h
    cases h
    exact execSched_of_index (s := s.withHost host) h16 hlt
  | round =>
    obtain ⟨hlt, -⟩ := execRound_next h
    rw [exec, execRound_of_index hlt] at h
    cases h
    exact execRound_of_index (s := s.withHost host) hlt

/-- The engine alone has a step for a busy state only as the micro-operation of its phase. -/
theorem exists_decode_of_step {s t : State} (halone : engineAlone s) (hbusy : s.busy = true) (hstep : step s = .next t) :
    ∃ i, decodePhase s.phase = .ok i ∧ exec i s = .next t := by
  cases hphase : decodePhase s.phase with
  | ok i => exact ⟨i, rfl, (step_of_engineAlone halone hbusy hphase).symm.trans hstep⟩
  | error e =>
    have hreserved := (reservedPhaseFaults s [] (engineTurn_of_engineAlone halone) hbusy).1 (decodePhase_error hphase)
    rw [hreserved] at hstep
    cases hstep

/-- The engine alone begins no computation: one that is in flight now has been so before. -/
theorem busy_of_run {s t : State} {n : ℕ} (halone : engineAlone s) (hrun : Host.Core.run Sys2Proof.core n s = .next t)
    (hbusy : t.busy = true) : s.busy = true := by
  by_contra hidle
  have hstep := step_of_idle (engineTurn_of_engineAlone halone) (Bool.not_eq_true _ ▸ hidle)
  rw [← halone.1] at hstep
  have hstay : Host.Core.run Sys2Proof.core n s = .next s := by
    clear hrun
    induction n with
    | zero => rfl
    | succ n ih => rw [run_succ n hstep, ih]
  rw [hstay] at hrun
  cases hrun
  exact hidle hbusy

/-- On the engine's turn the machine does what the engine alone does. -/
theorem step_engine_view {s u : State} {later : List Event} (hagenda : s.agenda = .engine :: later)
    (hbusy : s.busy = true) (hstep : step s.engineView = .next u) :
    ∃ t, step s = .next t ∧ t.engineView = u ∧ t.agenda = later := by
  obtain ⟨i, hphase, hexec⟩ := exists_decode_of_step (engineView_alone s) hbusy hstep
  have hi := decodePhase_engine hphase
  have hview : exec i s.engineView = .next u.engineView := exec_withHost hi hexec State.reset
  have hu : u.engineView = u := Host.Outcome.next.inj (hview.symm.trans hexec)
  have hrun := stepRunsTheDecodedPhase s later i (.inl hagenda) hbusy hphase
  exact ⟨_, hrun.trans (exec_withHost hi hexec { s with agenda := later }), hu, rfl⟩

/-- A command word has a step (R121, R230). -/
theorem exec_decodeCmd (x : Word) (s : State) : hostIssues (decodeCmd x) = true ∧ ∃ t, exec (decodeCmd x) s = .next t := by
  rcases decodeCmd_cases x with h | ⟨v, h⟩ | h <;> rw [h] <;> exact ⟨rfl, _, rfl⟩

/-- A move of the host is an instruction it issues, and has a step (R86). -/
theorem hostMove_step {s : State} {e : Event} {later : List Event} (hmove : moveNext s e later) (he : hostMove e) :
    ∃ i t, hostIssues i = true ∧ exec i { s with agenda := later } = .next t ∧ step s = .next t := by
  have haccess {a : BusAccess} (hwidth : a.width = 64) (halign : a.off % 8 = 0) (hoff : a.off < 256)
      (hfetch : fetch s = fetchAccess a { s with agenda := later }) :
      ∃ i t, hostIssues i = true ∧ exec i { s with agenda := later } = .next t ∧ step s = .next t := by
    obtain ⟨i, hdecode, hexec⟩ := BusAccess.exists_exec_next halign
    obtain ⟨t, ht⟩ := hexec { s with agenda := later }
    have hrun := hfetch.trans (fetchAccess_of_decode _ hwidth hoff hdecode)
    exact ⟨i, t, decodeBus_host hdecode, ht, (step_of_run hrun).trans ht⟩
  rcases he with ⟨x, rfl⟩ | ⟨a, off, hwidth, halign, hoff, rfl | rfl⟩
  · obtain ⟨hi, t, ht⟩ := exec_decodeCmd x { s with agenda := later }
    exact ⟨_, t, hi, ht, (step_of_run (fetch_of_moveNext hmove)).trans ht⟩
  · exact haccess (a := { a with off := off }) hwidth halign hoff (fetch_of_moveNext hmove)
  · exact haccess (a := { a with off := off }) hwidth halign hoff
      ((fetch_of_moveNext hmove).trans (fetchPlatform_inside hoff a _))

theorem readRegister_engineView (r : Register) (s : State) : (readRegister r s).engineView = s.engineView := by
  cases hv : registerValue s r with
  | some x => rw [readRegister_some hv]; rfl
  | none => rw [readRegister_any hv]; rfl

/-- While a computation is in flight, the engine sees nothing of a host's instruction (R276, R314). -/
theorem exec_host_view {i : Instr} {s t : State} (hi : hostIssues i = true) (hbusy : s.busy = true)
    (h : exec i s = .next t) : t.engineView = s.engineView ∧ t.agenda = s.agenda := by
  rcases exec_host_next hi h with rfl | ⟨r, rfl⟩ | rfl | ⟨hidle, -⟩
  · exact ⟨rfl, rfl⟩
  · exact ⟨readRegister_engineView r s, readRegister_agenda r s⟩
  · exact ⟨rfl, rfl⟩
  · simp [hbusy] at hidle

/-- With the host's moves between its turns, the engine does what it does alone, as long as the computation is in flight. -/
theorem run_interleaved {moves later : List Event} (hmoves : ∀ e ∈ moves, e = .engine ∨ hostMove e) {s u : State}
    (hagenda : s.agenda = moves ++ later)
    (hrun : Host.Core.run Sys2Proof.core (moves.count .engine) s.engineView = .next u) (hbusy : u.busy = true) :
    s.leadsTo moves.length fun t => t.engineView = u ∧ t.agenda = later := by
  induction moves generalizing s with
  | nil =>
    cases hrun
    exact State.leadsTo_zero ⟨rfl, hagenda⟩
  | cons e moves ih =>
    have hmoves' : ∀ e ∈ moves, e = .engine ∨ hostMove e := fun e he => hmoves e (List.mem_cons_of_mem _ he)
    have hbusys : s.busy = true := busy_of_run (s := s.engineView) (engineView_alone s) hrun hbusy
    by_cases he : e = .engine
    · subst he
      rw [List.count_cons_self] at hrun
      obtain ⟨w, halone, hrest⟩ := exists_step_of_run_succ hrun
      obtain ⟨t, hstep, rfl, hlater⟩ := step_engine_view hagenda hbusys halone
      exact State.leadsTo_succ hstep (ih hmoves' hlater hrest)
    · rw [List.count_cons_of_ne he] at hrun
      have hhost := (hmoves e List.mem_cons_self).resolve_left he
      obtain ⟨i, t, hi, hexec, hstep⟩ := hostMove_step (.inl hagenda) hhost
      obtain ⟨hview, hlater⟩ := exec_host_view (s := { s with agenda := moves ++ later }) hi hbusys hexec
      exact State.leadsTo_succ hstep (ih hmoves' hlater (hview ▸ hrun))

/-- Settles O54: the engine's turns are the run of the engine alone, and the last of them is FINISH. -/
theorem interleavingDoesNotMatter : Obligations.InterleavingDoesNotMatter := by
  unfold Obligations.InterleavingDoesNotMatter
  intro v answers rest moves later s hbusy hagenda hsource hwf hwell hfits hmoves hturns
  have hstart := step_startWord hbusy (.inl hagenda)
  obtain ⟨n, hcount, u, halone, hu⟩ :=
    beginComputation_leadsTo (engineView_alone s) (s := s.engineView) hsource hwf hwell hfits
  obtain rfl : moves.count .engine = n := by omega
  obtain ⟨t, hrun, rfl, hlater⟩ := run_interleaved (s := beginComputation v { s with agenda := moves ++ .engine :: later })
    hmoves rfl halone hu.busy
  have hfinish := stepRunsTheDecodedPhase t later .finish (.inl hlater) hu.busy (congrArg decodePhase hu.phase)
  have hall : s.leadsTo (moves.length + 1 + 1) (· = { t with agenda := later, done := true, busy := false, phase := 0 }) :=
    State.leadsTo_succ hstart (State.leadsTo_add hrun ⟨_, run_succ 0 hfinish, rfl⟩)
  obtain ⟨w, hrun, rfl⟩ := hall
  exact ⟨_, hrun, rfl, rfl, hu.err, hu.var, hu.pstate, hu.eoiSeen, hu.digest, hu.length, hu.source, rfl⟩

end Sys2Proof.Machine
end

section
/-! PROOFS. The statements on the exceptional events: the command rejection, the engine error, and the silent source
(spec/60_exceptions.md). -/

namespace Sys2Proof.Machine

/-! ### The command rejection is sticky (R275) -/

/-- No micro-operation writes `cmd_rej` (R275). -/
theorem exec_engine_cmdRej {i : Instr} {s t : State} (hi : hostIssues i = false) (h : exec i s = .next t) :
    t.cmdRej = s.cmdRej := by
  cases i with
  | nop | start | reject | rd | wrCmd | wr => cases hi
  | fill =>
    obtain ⟨_, _, _, _, _, _, _, _, _, _, _, rfl⟩ := execFill_eq h
    rfl
  | pad | padblk =>
    obtain ⟨_, _, rfl⟩ := exec_padding_eq (by simp) h
    rfl
  | extract | sched | initwv | round | accum | finish | idle =>
    obtain ⟨_, _, _, _, _, _, _, _, rfl⟩ := exec_word_eq (by simp) h
    rfl

/-- What is fetched to run is an instruction of the host or a micro-operation, and of these only an accepted START clears
`cmd_rej` (R231, R275). -/
theorem fetch_run_cmdRej {i : Instr} {s s' t : State} (hfetch : fetch s = .run i s') (hexec : exec i s' = .next t)
    (hrej : s.cmdRej = true) : t.cmdRej = true ∨ acceptsStart s := by
  obtain ⟨rest, rfl⟩ := fetch_run_state hfetch
  cases hi : hostIssues i with
  | false => exact .inl ((exec_engine_cmdRej hi hexec).trans hrej)
  | true =>
    rcases fetch_host_next hfetch hexec hi with rfl | ⟨r, rfl⟩ | rfl | ⟨haccept, -⟩
    · exact .inl hrej
    · exact .inl ((readRegister_cmdRej r _).trans hrej)
    · exact .inl rfl
    · exact .inr haccept

/-- Settles O15: REJECT is its rule, and neither an instruction other than an accepted START nor a move of the source's
platform clears the flag. -/
theorem rejectionIsStickyAndAlone : Obligations.RejectionIsStickyAndAlone := by
  unfold Obligations.RejectionIsStickyAndAlone
  refine ⟨fun _ _ => rfl, fun s t hrej hstep hclear => ?_⟩
  rcases step_next hstep with ⟨i, s', hfetch, hexec⟩ | henv
  · exact .inl ((fetch_run_cmdRej hfetch hexec hrej).resolve_left (by simp [hclear]))
  · rcases fetch_environment henv with ⟨rest, hmove, -⟩ | ⟨answers, after, rest, -, rfl⟩
    · exact .inr ⟨rest, hmove⟩
    · simp [hrej] at hclear

/-! ### The rejected command words, by their fields (R111, R276) -/

/-- A command word is its reserved bits, V and OP (R111). -/
theorem commandWord_eq_append (x : Word) :
    x = x.extractLsb' 5 59 ++ BitVec.ofBool (x.getLsbD 4) ++ x.extractLsb' 0 4 := by
  have hbit : x.extractLsb' 4 1 = BitVec.ofBool (x.getLsbD 4) := by
    ext i hi
    obtain rfl : i = 0 := by omega
    simp
  rw [← hbit, BitVec.extractLsb'_append_extractLsb'_eq_extractLsb' (by rfl : 5 = 4 + 1),
    BitVec.extractLsb'_append_extractLsb'_eq_extractLsb' (by rfl : 4 = 0 + 4)]
  exact BitVec.extractLsb'_eq_self.symm

/-- A cause of R276 that lies in the command word: OP in 2..15, a reserved bit set, or V = 1 with OP = 0. -/
abbrev illegalFields (x : Word) : Prop :=
  2 ≤ (x.extractLsb' 0 4).toNat ∨ x.extractLsb' 5 59 ≠ 0 ∨ (x.getLsbD 4 = true ∧ x.extractLsb' 0 4 = 0)

theorem startWord_legalFields (v : Variant) : ¬ illegalFields (startWord v) := by cases v <;> decide

/-- A word without such a cause is NOP's or a START's (R121, R276). -/
theorem eq_zero_or_startWord_of_legalFields {x : Word} (h : ¬ illegalFields x) : x = 0 ∨ ∃ v, x = startWord v := by
  simp only [illegalFields, not_or, ne_eq, not_not] at h
  obtain ⟨hop, hreserved, hbit⟩ := h
  have hcodes : ∀ c : BitVec 4, ¬ 2 ≤ c.toNat → c = 0 ∨ c = 1 := by decide
  rw [commandWord_eq_append x, hreserved]
  rcases hcodes _ hop with hop | hop
  · rw [hop, Bool.eq_false_of_not_eq_true fun hv => hbit ⟨hv, hop⟩]
    exact .inl rfl
  · refine .inr ⟨variantOfBit (x.getLsbD 4), ?_⟩
    rw [hop]
    cases x.getLsbD 4 <;> rfl

/-- The words that decode to a rejection are those with a cause in their fields (R121, R276). -/
theorem decodeCmd_eq_reject_iff_illegalFields {x : Word} : decodeCmd x = .reject x ↔ illegalFields x := by
  rw [decodeCmd_eq_reject_iff, ← Bool.not_eq_true, legalCmd_iff, not_iff_comm]
  refine ⟨eq_zero_or_startWord_of_legalFields, ?_⟩
  rintro (rfl | ⟨v, rfl⟩)
  · decide
  · exact startWord_legalFields v

/-- The words of START are 0x1 and 0x11 (R111). -/
theorem exists_eq_startWord_iff {x : Word} : (∃ v, x = startWord v) ↔ x = 0x1 ∨ x = 0x11 := by
  constructor
  · rintro ⟨v, rfl⟩
    cases v <;> decide
  · rintro (rfl | rfl)
    · exact ⟨.sha256, by decide⟩
    · exact ⟨.sha512, by decide⟩

/-- A command that raises `cmd_rej` is an illegal word, or a START while a computation is in flight (R276). -/
theorem performCommand_raises {x : Word} {s : State} (hrej : s.cmdRej = false)
    (hraised : (performCommand x s).cmdRej = true) : illegalFields x ∨ ((∃ v, x = startWord v) ∧ s.busy = true) := by
  rcases performCommand_cases x s with ⟨-, hperform⟩ | ⟨v, hx, hperform⟩ | ⟨hx, -⟩
  · simp [hperform, hrej] at hraised
  · rcases startOrReject_cases v s with ⟨hbusy, -⟩ | ⟨-, haccept⟩
    · exact .inr ⟨⟨v, decodeCmd_start hx⟩, hbusy⟩
    · simp [hperform, haccept] at hraised
  · exact .inl (decodeCmd_eq_reject_iff_illegalFields.1 hx)

/-- Settles O16: a CMD write performs the command its word decodes to, so the causes are those of the decoder and of START. -/
theorem commandRejectionCauses : Obligations.CommandRejectionCauses := by
  unfold Obligations.CommandRejectionCauses
  refine fun x s => ⟨fun hillegal => ?_, fun hstart hbusy => ?_, ?_, ?_⟩
  · rw [exec_wrCmd, decodeCmd_eq_reject_iff_illegalFields.2 hillegal]
    rfl
  · obtain ⟨v, rfl⟩ := exists_eq_startWord_iff.2 hstart
    rw [exec_wrCmd, decodeCmd_startWord, exec, execStart, startOrReject_busy v hbusy]
    rfl
  · rintro rfl
    exact (nopChangesNothing s).2.1
  · rintro _ ⟨⟩ hrej hraised
    simpa only [illegalFields, exists_eq_startWord_iff, or_assoc] using performCommand_raises hrej hraised

/-! ### The engine error (R272) -/

/-- The one way FILL raises an engine error: it takes the source's answer and raises SRC_FAIL or LEN_OVF (R152, R273,
R274). -/
theorem execFill_raises {s t : State} (h : execFill s = .next t) (herr : s.err = false) (herr' : t.err = true) :
    ∃ code r rs, (code = .srcFail ∨ code = .lenOvf) ∧ answerNext s r rs ∧
      t = raiseEngineError code (takeAnswer rs s) := by
  rcases execFill_next h with ⟨-, rfl⟩ | ⟨-, -, ⟨-, rfl⟩ | ⟨r, rs, hanswer, hfill⟩⟩
  · simp [herr] at herr'
  · simp [herr] at herr'
  · rcases fillFrom_next hfill with ⟨-, rfl⟩ | ⟨-, -, -, ⟨-, rfl⟩ | ⟨-, rfl⟩⟩
    · exact ⟨.srcFail, r, rs, .inl rfl, hanswer, rfl⟩
    · exact ⟨.lenOvf, r, rs, .inr rfl, hanswer, rfl⟩
    · simp [herr] at herr'

/-- Settles O23: the failing FILL is the taken answer and the raised error, which leaves nothing published. -/
theorem engineErrorIsPrecise : Obligations.EngineErrorIsPrecise := by
  unfold Obligations.EngineErrorIsPrecise
  intro s t h herr herr'
  obtain ⟨code, r, rs, hcode, hanswer, rfl⟩ := execFill_raises h herr herr'
  exact ⟨hcode, ⟨r, hanswer, rfl⟩,
    fun off halign hoff => exec_rd_of_none (beq_iff_eq.2 halign) (registerValue_unpublished hoff rfl)⟩

/-! ### The silent source (R289) -/

/-- An answer that gives no byte and neither ends the input nor fails (R82). -/
abbrev emptyAnswer : SrcResponse := ⟨0, [], false, false⟩

/-- The engine, alone, asks the source for the bytes of a block (R151). -/
structure State.Asking (s : State) : Prop where
  alone : engineAlone s
  busy : s.busy = true
  phase : s.phase = 1
  eoi : s.eoiSeen = false
  room : s.cnt.toNat < s.var.blockBytes
  fits : s.len.toNat < 2 ^ s.var.lengthBits

/-- The state after `n` requests that brought no byte, with `rest` left of the answers. -/
def State.asked (s : State) (n : ℕ) (rest : List SrcResponse) : State :=
  { s with source := rest, requests := List.replicate n (requestSize s) ++ s.requests }

theorem State.asked_zero (s : State) : s.asked 0 s.source = s := rfl

/-- Requests one after the other are made of the same size. -/
theorem State.asked_asked (s : State) (m n : ℕ) (rest rest' : List SrcResponse) :
    (s.asked m rest).asked n rest' = s.asked (n + m) rest' := by
  simp only [State.asked, requestSize, List.replicate_add, List.append_assoc]

theorem State.Asking.asked {s : State} (h : s.Asking) (n : ℕ) (rest : List SrcResponse) : (s.asked n rest).Asking :=
  { h with }

/-- An empty answer brings nothing, and FILL goes on (R152). -/
theorem acceptBytes_empty {s : State} (hphase : s.phase = 1) (heoi : s.eoiSeen = false)
    (hroom : s.cnt.toNat < s.var.blockBytes) : acceptBytes emptyAnswer s = s := by
  have hnext : phaseAfterFill s 0 s.eoiSeen = s.phase := by
    rw [hphase, phaseAfterFill, if_neg (by simp [hroom.ne, heoi])]
  simp [acceptBytes, Memory.writeList, hnext, ← heoi]

/-- The steps of an asking engine are FILL (R116, R123). -/
theorem State.Asking.step_eq {s : State} (h : s.Asking) : step s = execFill s :=
  step_of_engineAlone (i := .fill) h.alone h.busy (by rw [h.phase]; rfl)

/-- An asking engine that gets an empty answer asks again. -/
theorem State.Asking.step_empty {s : State} (h : s.Asking) {rest : List SrcResponse}
    (hanswer : answerNext s emptyAnswer rest) : step s = .next (s.asked 1 rest) := by
  have hfits : lengthOverflows s 0 = false := decide_eq_false h.fits.not_ge
  have haccept : acceptBytes emptyAnswer (takeAnswer rest s) = takeAnswer rest s :=
    acceptBytes_empty h.phase h.eoi h.room
  calc step s = execFill s := h.step_eq
    _ = fillFrom emptyAnswer rest s := execFill_of_answerNext h.eoi h.room hanswer
    _ = .next (acceptBytes emptyAnswer (takeAnswer rest s)) :=
      fillFrom_accepts rest rfl (Nat.zero_le _) rfl hfits
    _ = .next (s.asked 1 rest) := by rw [haccept]; rfl

/-- The empty answers that the source lists are taken one by one. -/
theorem State.Asking.run_listed {n : ℕ} {s : State} (h : s.Asking) (hsource : s.source = List.replicate n emptyAnswer) :
    s.leadsTo n (· = s.asked n []) := by
  induction n generalizing s with
  | zero => exact State.leadsTo_zero (by rw [← s.asked_zero, hsource]; rfl)
  | succ n ih =>
    refine State.leadsTo_succ (h.step_empty (.inl hsource)) ?_
    rw [← s.asked_asked 1 n (List.replicate n emptyAnswer)]
    exact ih (h.asked ..) rfl

/-- A source that gives empty answers without end is asked at every step. -/
theorem State.Asking.run_endless {s : State} (h : s.Asking) (hsource : s.source = [])
    (hafter : s.sourceAfter = some emptyAnswer) (m : ℕ) : s.leadsTo m (· = s.asked m []) := by
  induction m generalizing s with
  | zero => exact State.leadsTo_zero (by rw [← hsource, s.asked_zero])
  | succ m ih =>
    refine State.leadsTo_succ (h.step_empty (.inr ⟨hsource, hafter, rfl⟩)) ?_
    rw [← s.asked_asked 1 m []]
    exact ih (h.asked ..) rfl hafter

/-- While the source never answers, the engine waits (log 9). -/
theorem State.Asking.run_silent {s : State} (h : s.Asking) (hnone : nextAnswer s = none) (m : ℕ) :
    s.leadsTo m (· = s) := by
  have hstep : step s = .next s := h.step_eq.trans (execFill_waits h.eoi h.room hnone)
  induction m with
  | zero => exact State.leadsTo_zero rfl
  | succ m ih => exact State.leadsTo_succ hstep ih

/-- The engine is enabled while it is in flight and its source answers (R235). -/
theorem engineEnabled_of_answerNext {s : State} {r : SrcResponse} {rs : List SrcResponse} (hbusy : s.busy = true)
    (hanswer : answerNext s r rs) : engineEnabled s = true := by
  simp [engineEnabled, hbusy, nextAnswer_of_answerNext hanswer]

/-- Settles O25: after the listed answers the engine is still asking, and either waits or asks on. -/
theorem silentSourceHangsTheEngine : Obligations.SilentSourceHangsTheEngine := by
  unfold Obligations.SilentSourceHangsTheEngine
  intro s n m halone hbusy hphase heoi hroom hfits hsource
  have h : s.Asking := ⟨halone, hbusy, hphase, heoi, hroom, hfits⟩
  have hasked : (s.asked n []).Asking := h.asked n []
  obtain ⟨_, hlisted, rfl⟩ := h.run_listed hsource
  refine ⟨fun hnone => ?_, fun hafter => ?_⟩
  · obtain ⟨_, hrun, rfl⟩ := State.leadsTo_add hlisted (hasked.run_silent (nextAnswer_eq_none.2 ⟨rfl, hnone⟩) m)
    exact hrun
  · obtain ⟨_, hrun, rfl⟩ := State.leadsTo_add hlisted (hasked.run_endless rfl hafter m)
    refine ⟨_, hrun, engineEnabled_of_answerNext hbusy (.inr ⟨rfl, hafter, rfl⟩), ?_⟩
    rw [State.asked_asked, Nat.add_comm m n]
    rfl

end Sys2Proof.Machine
end

section
/-! PROOFS. The statements on what a step depends on and on how the agents meet: the control is independent of the data,
the host's instructions leave the engine alone, and the engine's turn comes (spec/70_reset_and_hazards.md). -/

namespace Sys2Proof.Machine

/-! ### States that differ in data only (R322) -/

/-- The state `s` with the data of `d`: the datapath words, the block buffer, the source's answers, and the values read. -/
def State.withData (s d : State) : State :=
  { s with H := d.H, wv := d.wv, W := d.W, blk := d.blk, source := d.source, sourceAfter := d.sourceAfter, reads := d.reads }

/-- The sources of two states give answers that may differ in the values of their bytes only. -/
abbrev sameSource (s t : State) : Prop :=
  List.Forall₂ sameShape s.source t.source ∧ Option.Rel sameShape s.sourceAfter t.sourceAfter

/-- Two states differ in data only when one is the other with its own data. -/
theorem sameControl_iff {s t : State} : sameControl s t ↔ t = s.withData t ∧ sameSource s t := by
  constructor
  · rintro ⟨⟨hphase, ht⟩, ⟨hbusy, hdone, herr, hcode, hrej, hvar⟩, ⟨hpstate, heoi, hcnt, hlen⟩, hagenda, hafter, hrequests,
      hdraws, hsource, hsourceAfter⟩
    refine ⟨?_, hsource, hsourceAfter⟩
    cases t
    subst hphase ht hbusy hdone herr hcode hrej hvar hpstate heoi hcnt hlen hagenda hafter hrequests hdraws
    rfl
  · rintro ⟨heq, hsource, hafter⟩
    rw [heq]
    exact ⟨⟨rfl, rfl⟩, ⟨rfl, rfl, rfl, rfl, rfl, rfl⟩, ⟨rfl, rfl, rfl, rfl⟩, rfl, rfl, rfl, rfl, hsource, hafter⟩

/-- The form in which an instruction's two results are compared: all but the data agrees by computation. -/
theorem sameControl_of_eq {s t : State} (heq : t = s.withData t) (h : sameSource s t) : sameControl s t :=
  sameControl_iff.2 ⟨heq, h⟩

/-- Two steps that end alike: both go on, in states that differ in data only, or both stop for the same reason. -/
inductive sameOutcome : Host.Outcome State Fault Refusal → Host.Outcome State Fault Refusal → Prop
  | next {s t : State} (h : sameControl s t) : sameOutcome (.next s) (.next t)
  | fault (f : Fault) : sameOutcome (.fault f) (.fault f)
  | refused (r : Refusal) : sameOutcome (.refused r) (.refused r)

/-- A branch on the same condition. -/
theorem sameOutcome.ite {p q : Prop} [Decidable p] [Decidable q] {a b a' b' : Host.Outcome State Fault Refusal}
    (hpq : p ↔ q) (hpos : p → sameOutcome a a') (hneg : ¬ p → sameOutcome b b') :
    sameOutcome (if p then a else b) (if q then a' else b') := by
  by_cases hp : p
  · rw [if_pos hp, if_pos (hpq.1 hp)]
    exact hpos hp
  · rw [if_neg hp, if_neg (mt hpq.2 hp)]
    exact hneg hp

section
variable {s d : State}

/-! ### The host's instructions -/

theorem startOrReject_sameControl (v : Variant) (h : sameSource s d) :
    sameControl (startOrReject v s) (startOrReject v (s.withData d)) := by
  cases hbusy : s.busy with
  | true =>
    rw [startOrReject_busy v hbusy, startOrReject_busy (s := s.withData d) v hbusy]
    exact sameControl_of_eq rfl h
  | false =>
    rw [startOrReject_idle v hbusy, startOrReject_idle (s := s.withData d) v hbusy]
    exact sameControl_of_eq rfl h

theorem performCommand_sameControl (x : Word) (h : sameSource s d) :
    sameControl (performCommand x s) (performCommand x (s.withData d)) := by
  unfold performCommand
  rcases decodeCmd_cases x with hx | ⟨v, hx⟩ | hx <;> rw [hx]
  · exact sameControl_of_eq rfl h
  · exact startOrReject_sameControl v h
  · exact sameControl_of_eq rfl h

/-- Whether a register has a value does not depend on data (R49, R50). -/
theorem registerValue_withData_isSome (r : Register) (s d : State) :
    (registerValue (s.withData d) r).isSome = (registerValue s r).isSome := by
  cases hdone : s.done with
  | true =>
    obtain ⟨x, hx⟩ := exists_registerValue_of_done hdone r
    obtain ⟨y, hy⟩ := exists_registerValue_of_done (s := s.withData d) hdone r
    rw [hx, hy]
    rfl
  | false => cases r <;> simp [registerValue, State.withData, hdone]

theorem readRegister_sameControl (r : Register) (h : sameSource s d) :
    sameControl (readRegister r s) (readRegister r (s.withData d)) := by
  have hsome := registerValue_withData_isSome r s d
  cases hs : registerValue s r <;> cases hd : registerValue (s.withData d) r <;> rw [hs, hd] at hsome
  · rw [readRegister_any hs, readRegister_any hd]
    exact sameControl_of_eq rfl h
  · cases hsome
  · cases hsome
  · rw [readRegister_some hs, readRegister_some hd]
    exact sameControl_of_eq rfl h

theorem atAligned_sameOutcome (off : BitVec 8) {s t : State} (h : sameControl s t) :
    sameOutcome (atAligned off s) (atAligned off t) :=
  .ite .rfl (fun _ => .next h) fun _ => .refused _

/-! ### The engine's micro-operations -/

/-- The sources of both states answer a request, with answers of the same shape, or both are silent. -/
theorem nextAnswer_rel {s t : State} (h : sameSource s t) :
    Option.Rel (fun a b => sameShape a.1 b.1 ∧ List.Forall₂ sameShape a.2 b.2) (nextAnswer s) (nextAnswer t) := by
  obtain ⟨hsource, hafter⟩ := h
  unfold nextAnswer
  generalize s.source = l, t.source = l' at hsource ⊢
  generalize s.sourceAfter = a, t.sourceAfter = a' at hafter ⊢
  cases hsource with
  | cons hr hrs => exact .some ⟨hr, hrs⟩
  | nil =>
    cases hafter with
    | some hr => exact .some ⟨hr, .nil⟩
    | none => exact .none

/-- FILL looks at an answer's sizes and marks only (R152, R277). -/
theorem fillFrom_sameOutcome {r q : SrcResponse} {rs qs : List SrcResponse} (h : sameSource s d) (hr : sameShape r q)
    (hrs : List.Forall₂ sameShape rs qs) : sameOutcome (fillFrom r rs s) (fillFrom q qs (s.withData d)) := by
  obtain ⟨k, data, eoi, fail⟩ := r
  obtain ⟨_, data', _, _⟩ := q
  obtain ⟨rfl, hdata, rfl, rfl⟩ := hr
  have htaken : sameSource (takeAnswer rs s) (takeAnswer qs (s.withData d)) := ⟨hrs, h.2⟩
  have hprotocol : (requestSize s < k ∨ data.length ≠ k) ↔ (requestSize s < k ∨ data'.length ≠ k) := by
    rw [show data.length = data'.length from hdata]
  refine .ite .rfl (fun _ => .next (sameControl_of_eq rfl htaken)) fun _ => ?_
  refine .ite hprotocol (fun _ => .refused _) fun _ => ?_
  exact .ite .rfl (fun _ => .next (sameControl_of_eq rfl htaken)) fun _ => .next (sameControl_of_eq rfl htaken)

theorem execFill_sameOutcome (h : sameSource s d) : sameOutcome (execFill s) (execFill (s.withData d)) := by
  refine .ite .rfl (fun _ => .next (sameControl_of_eq rfl h)) fun _ => .ite .rfl (fun _ => .fault _) fun _ => ?_
  have hrel : Option.Rel _ (nextAnswer s) (nextAnswer (s.withData d)) := nextAnswer_rel h
  cases hs : nextAnswer s <;> cases hd : nextAnswer (s.withData d) <;> rw [hs, hd] at hrel <;> cases hrel
  · exact .next (sameControl_of_eq rfl h)
  · next hanswer => exact fillFrom_sameOutcome h hanswer.1 hanswer.2

theorem execPad_sameOutcome (h : sameSource s d) : sameOutcome (execPad s) (execPad (s.withData d)) := by
  have hcase : padCase (s.withData d).var (s.withData d).cnt.toNat = padCase s.var s.cnt.toNat := rfl
  unfold execPad
  rw [hcase]
  cases padCase s.var s.cnt.toNat with
  | none => exact .fault _
  | some c => cases c <;> exact .next (sameControl_of_eq rfl h)

theorem execSched_sameOutcome (h : sameSource s d) : sameOutcome (execSched s) (execSched (s.withData d)) :=
  .ite .rfl (fun _ => .fault _) fun _ =>
    .ite .rfl (fun _ => .next (sameControl_of_eq rfl h)) fun _ => .next (sameControl_of_eq rfl h)

theorem execRound_sameOutcome (h : sameSource s d) : sameOutcome (execRound s) (execRound (s.withData d)) :=
  .ite .rfl (fun _ => .fault _) fun _ =>
    .ite .rfl (fun _ => .next (sameControl_of_eq rfl h)) fun _ => .next (sameControl_of_eq rfl h)

end

/-! ### A step -/

/-- No instruction lets data decide how it ends, or what it leaves in the control state. -/
theorem exec_sameOutcome (i : Instr) {s t : State} (h : sameControl s t) : sameOutcome (exec i s) (exec i t) := by
  obtain ⟨heq, hsource⟩ := sameControl_iff.1 h
  rw [heq]
  cases i with
  | nop | reject | idle | padblk | extract | initwv | accum | finish => exact .next (sameControl_of_eq rfl hsource)
  | start v => exact .next (startOrReject_sameControl v hsource)
  | rd off => exact atAligned_sameOutcome off (readRegister_sameControl _ hsource)
  | wrCmd x => exact .next (performCommand_sameControl x hsource)
  | wr off x =>
    refine atAligned_sameOutcome off ?_
    split
    · exact performCommand_sameControl x hsource
    · exact sameControl_of_eq rfl hsource
  | fill => exact execFill_sameOutcome hsource
  | pad => exact execPad_sameOutcome hsource
  | sched => exact execSched_sameOutcome hsource
  | round => exact execRound_sameOutcome hsource

/-- Two fetches that find the same thing to do, in states that differ in data only. -/
inductive sameFetched : Fetched → Fetched → Prop
  | run (i : Instr) {s t : State} (h : sameControl s t) : sameFetched (.run i s) (.run i t)
  | environment {s t : State} (h : sameControl s t) : sameFetched (.environment s) (.environment t)
  | fault (f : Fault) : sameFetched (.fault f) (.fault f)
  | refused (r : Refusal) : sameFetched (.refused r) (.refused r)

theorem fetchEngine_sameFetched {s t : State} (h : sameControl s t) : sameFetched (fetchEngine s) (fetchEngine t) := by
  unfold fetchEngine
  rw [h.flags.busy, h.place.phase]
  split
  · cases decode (.phase s.phase) with
    | ok i => exact .run i h
    | error e => exact .fault _
  · exact .run _ h

theorem fetchAccess_sameFetched (a : BusAccess) {s t : State} (h : sameControl s t) :
    sameFetched (fetchAccess a s) (fetchAccess a t) := by
  unfold fetchAccess
  split
  · exact .refused _
  · split
    · exact .refused _
    · cases decode a.encoded with
      | ok i => exact .run i h
      | error e => exact .refused _

theorem resetBlock_sameControl {s t : State} (h : sameControl s t) : sameControl (resetBlock s) (resetBlock t) := by
  obtain ⟨heq, hsource⟩ := sameControl_iff.1 h
  rw [heq]
  exact sameControl_of_eq rfl hsource

theorem sameShape_refl (r : SrcResponse) : sameShape r r := ⟨rfl, rfl, rfl, rfl⟩

/-- Both sources may be given the same answers. -/
theorem supply_sameControl (answers : List SrcResponse) (after : Option SrcResponse) {s t : State} (h : sameControl s t) :
    sameControl { s with source := answers, sourceAfter := after } { t with source := answers, sourceAfter := after } := by
  have hafter : Option.Rel sameShape after after := by
    cases after with
    | none => exact .none
    | some r => exact .some (sameShape_refl r)
  rw [(sameControl_iff.1 h).1]
  exact sameControl_of_eq rfl ⟨List.forall₂_same.2 fun r _ => sameShape_refl r, hafter⟩

theorem fetchEvent_sameFetched (e : Event) {s t : State} (h : sameControl s t) :
    sameFetched (fetchEvent e s) (fetchEvent e t) := by
  cases e with
  | engine => exact fetchEngine_sameFetched h
  | access a => exact fetchAccess_sameFetched a h
  | platform addr a =>
    simp only [fetchEvent, fetchPlatform]
    split
    · exact fetchAccess_sameFetched _ h
    · exact .refused _
  | command x => exact .run _ h
  | reset => exact .environment (resetBlock_sameControl h)
  | supply answers after => exact .environment (supply_sameControl answers after h)

theorem fetch_sameFetched {s t : State} (h : sameControl s t) : sameFetched (fetch s) (fetch t) := by
  obtain ⟨heq, hsource⟩ := sameControl_iff.1 h
  rw [heq]
  exact fetchEvent_sameFetched (nextMove s).1 (sameControl_of_eq rfl hsource)

theorem step_sameOutcome {s t : State} (h : sameControl s t) : sameOutcome (step s) (step t) := by
  have hfetched := fetch_sameFetched h
  unfold step
  generalize fetch s = f, fetch t = g at hfetched ⊢
  cases hfetched with
  | run i h => exact exec_sameOutcome i h
  | environment h => exact .next h
  | fault f => exact .fault f
  | refused r => exact .refused r

/-- Settles O51: no fetch and no instruction branches on data. -/
theorem controlIsIndependentOfData : Obligations.ControlIsIndependentOfData := by
  unfold Obligations.ControlIsIndependentOfData
  intro s t h
  have hout := step_sameOutcome h
  generalize step s = o, step t = o' at hout ⊢
  cases hout with
  | next h => exact ⟨by rintro _ ⟨⟩; exact ⟨_, rfl, h⟩, by rintro _ ⟨⟩, by rintro _ ⟨⟩⟩
  | fault f => exact ⟨by rintro _ ⟨⟩, by rintro _ ⟨⟩; rfl, by rintro _ ⟨⟩⟩
  | refused r => exact ⟨by rintro _ ⟨⟩, by rintro _ ⟨⟩, by rintro _ ⟨⟩; rfl⟩

/-! ### What the host's instructions leave alone (R314) -/

/-- While a computation is in flight, a command word does nothing or is rejected (R230, R276). -/
theorem performCommand_busy (x : Word) {s : State} (hbusy : s.busy = true) :
    performCommand x s = s ∨ performCommand x s = rejectCommand s := by
  rcases performCommand_cases x s with ⟨-, hx⟩ | ⟨v, -, hx⟩ | ⟨-, hx⟩
  · exact .inl hx
  · exact .inr (hx.trans (startOrReject_busy v hbusy))
  · exact .inr hx

/-- A register read writes what the host has been shown, and the count of draws (R237). -/
theorem readRegister_frame (r : Register) (s : State) :
    readRegister r s = { s with reads := (readRegister r s).reads, draws := (readRegister r s).draws } := by
  cases hvalue : registerValue s r with
  | some x => rw [readRegister_some hvalue]
  | none => rw [readRegister_any hvalue]

/-- A host instruction that begins no computation reads a register, does nothing, or is rejected. -/
theorem exec_host_quiet {i : Instr} {s t : State} (hi : hostIssues i = true) (hwf : i.wf = true)
    (hquiet : s.busy = true ∨ ((∀ v, i ≠ .start v) ∧ ∀ x, i ≠ .wrCmd x)) (h : exec i s = .next t) :
    (∃ off, i = .rd off ∧ t = readRegister (registerAt off) s) ∨
      ((∀ off, i ≠ .rd off) ∧ (t = s ∨ t = rejectCommand s)) := by
  cases i with
  | rd off => exact .inl ⟨off, rfl, (atAligned_next h).2⟩
  | nop =>
    cases h
    exact .inr ⟨nofun, .inl rfl⟩
  | start v =>
    have hbusy := hquiet.resolve_right fun hne => hne.1 v rfl
    cases h
    exact .inr ⟨nofun, .inr (startOrReject_busy v hbusy)⟩
  | reject x =>
    cases h
    exact .inr ⟨nofun, .inr rfl⟩
  | wrCmd x =>
    have hbusy := hquiet.resolve_right fun hne => hne.2 x rfl
    cases h
    exact .inr ⟨nofun, performCommand_busy x hbusy⟩
  | wr off x =>
    have hoff := (wf_wr_iff.1 hwf).2
    exact .inr ⟨nofun, .inl ((atAligned_next h).2.trans (if_neg hoff))⟩
  | _ => cases hi

/-- Settles O42: a read writes the host's view only, a rejection `cmd_rej` only, and there is nothing else. -/
theorem hostInstructionsFrame : Obligations.HostInstructionsFrame := by
  unfold Obligations.HostInstructionsFrame
  intro i s t hi hwf h hquiet
  rcases exec_host_quiet hi hwf hquiet h with ⟨off, rfl, rfl⟩ | ⟨hread, rfl | rfl⟩
  · refine ⟨?_, fun hne => absurd rfl (hne off), fun _ _ => ⟨readRegister_cmdRej _ s, readRegister_reads _ s⟩⟩
    rw [readRegister_cmdRej]
    exact readRegister_frame _ s
  · exact ⟨rfl, fun _ => ⟨rfl, rfl⟩, fun off hi => absurd hi (hread off)⟩
  · exact ⟨rfl, fun _ => ⟨rfl, rfl⟩, fun off hi => absurd hi (hread off)⟩

/-! ### The engine's turn comes (R90, R320) -/

/-- A host access is legal or refused (R86). -/
theorem BusAccess.legal_or_refused (a : BusAccess) :
    (a.width = 64 ∧ a.off % 8 = 0 ∧ a.off < 256) ∨ ∀ s, ∃ r, fetchAccess a s = .refused r := by
  by_cases h : a.width ≠ 64 ∨ a.off % 8 ≠ 0 ∨ 256 ≤ a.off
  · exact .inr fun s => fetchAccess_refused s h
  · exact .inl (by omega)

/-- A move of another agent than the engine: one of the host that has a step, a reset, a supply of the source port, or one
that is refused. -/
theorem event_cases {e : Event} (he : e ≠ .engine) :
    hostMove e ∨ e = .reset ∨ (∃ answers after, e = .supply answers after) ∨ ∀ s, ∃ r, fetchEvent e s = .refused r := by
  cases e with
  | engine => exact absurd rfl he
  | access a =>
    rcases a.legal_or_refused with ⟨hwidth, halign, hoff⟩ | hrefused
    · exact .inl (.inr ⟨a, a.off, hwidth, halign, hoff, .inl rfl⟩)
    · exact .inr (.inr (.inr hrefused))
  | platform addr a =>
    by_cases hinside : Config.regBase ≤ addr ∧ addr < Config.regBase + 256
    · obtain ⟨off, rfl⟩ := Nat.exists_eq_add_of_le hinside.1
      have hoff : off < 256 := by omega
      rcases BusAccess.legal_or_refused { a with off := off } with ⟨hwidth, halign, -⟩ | hrefused
      · exact .inl (.inr ⟨a, off, hwidth, halign, hoff, .inr rfl⟩)
      · exact .inr (.inr (.inr fun s => by rw [fetchEvent, fetchPlatform_inside hoff]; exact hrefused s))
    · exact .inr (.inr (.inr fun s => ⟨_, fetchPlatform_outside (by omega) a s⟩))
  | command x => exact .inl (.inl ⟨x, rfl⟩)
  | reset => exact .inr (.inl rfl)
  | supply answers after => exact .inr (.inr (.inl ⟨answers, after, rfl⟩))

/-- No instruction of the host touches the moves to come. -/
theorem exec_host_agenda {i : Instr} {s t : State} (hi : hostIssues i = true) (h : exec i s = .next t) :
    t.agenda = s.agenda ∧ t.agendaAfter = s.agendaAfter := by
  rcases exec_host_next hi h with rfl | ⟨r, rfl⟩ | rfl | ⟨-, v, rfl⟩
  · exact ⟨rfl, rfl⟩
  · exact ⟨readRegister_agenda r s, readRegister_agendaAfter r s⟩
  · exact ⟨rfl, rfl⟩
  · exact ⟨rfl, rfl⟩

/-- A move of another agent than the engine is refused, or is over after one step. -/
theorem step_of_other_agent {s : State} {e : Event} {rest : List Event} (hmove : moveNext s e rest) (he : e ≠ .engine) :
    (∃ r, step s = .refused r) ∨ ∃ t, step s = .next t ∧ t.agenda = rest ∧ t.agendaAfter = s.agendaAfter := by
  rcases event_cases he with hhost | rfl | ⟨answers, after, rfl⟩ | hrefused
  · obtain ⟨i, t, hi, hexec, hstep⟩ := hostMove_step hmove hhost
    exact .inr ⟨t, hstep, exec_host_agenda hi hexec⟩
  · exact .inr ⟨_, step_of_reset hmove, rfl, rfl⟩
  · exact .inr ⟨_, step_of_environment (fetch_of_moveNext hmove), rfl, rfl⟩
  · obtain ⟨r, hr⟩ := hrefused { s with agenda := rest }
    exact .inl ⟨r, step_of_refused ((fetch_of_moveNext hmove).trans hr)⟩

/-- Within `n` steps it is the engine's turn, or a move has been refused. -/
def State.engineComesWithin (s : State) (n : ℕ) : Prop :=
  ∃ k ≤ n, (∃ t rest, Host.Core.run Sys2Proof.core k s = .next t ∧ engineTurn t rest) ∨
    ∃ r, Host.Core.run Sys2Proof.core k s = .refused r

theorem engineComesWithin_of_turn {s : State} {rest : List Event} (h : engineTurn s rest) (n : ℕ) :
    s.engineComesWithin n :=
  ⟨0, Nat.zero_le n, .inl ⟨s, rest, rfl, h⟩⟩

/-- Whatever the next move is, it brings the engine's turn one step nearer. -/
theorem engineComesWithin_succ {s : State} {e : Event} {rest : List Event} {n : ℕ} (hmove : moveNext s e rest)
    (hnext : ∀ t : State, t.agenda = rest → t.agendaAfter = s.agendaAfter → t.engineComesWithin n) :
    s.engineComesWithin (n + 1) := by
  by_cases he : e = .engine
  · subst he
    exact engineComesWithin_of_turn hmove _
  · rcases step_of_other_agent hmove he with ⟨r, hstep⟩ | ⟨t, hstep, hagenda, hafter⟩
    · exact ⟨1, by omega, .inr ⟨r, by simp only [Host.Core.run, core, hstep]⟩⟩
    · obtain ⟨k, hk, hrun⟩ := hnext t hagenda hafter
      exact ⟨k + 1, by omega, by rwa [run_succ k hstep]⟩

/-- A turn of the engine that stands in the agenda comes once the moves before it are over. -/
theorem engineComesWithin_of_agenda {moves later : List Event} {s : State} (h : s.agenda = moves ++ .engine :: later) :
    s.engineComesWithin moves.length := by
  induction moves generalizing s with
  | nil => exact engineComesWithin_of_turn (.inl h) 0
  | cons e moves ih => exact engineComesWithin_succ (.inl h) fun t hagenda _ => ih hagenda

/-- Settles O55: the moves of the agenda are over one by one, and the moves that start over end in a turn of the engine. -/
theorem engineTurnAlwaysComes : Obligations.EngineTurnAlwaysComes := by
  unfold Obligations.EngineTurnAlwaysComes
  intro s
  change s.engineComesWithin _
  induction hagenda : s.agenda generalizing s with
  | nil =>
    cases hafter : s.agendaAfter with
    | nil => exact engineComesWithin_of_turn (engineTurn_of_engineAlone ⟨hagenda, hafter⟩) _
    | cons e moves =>
      rw [List.length_nil, Nat.zero_add]
      have hmove : moveNext s e (moves ++ [.engine]) := .inr ⟨hagenda, by rw [hafter, List.cons_append]⟩
      exact engineComesWithin_succ hmove fun t hnext _ => engineComesWithin_of_agenda hnext
  | cons e rest ih =>
    rw [List.length_cons, Nat.add_right_comm]
    exact engineComesWithin_succ (.inl hagenda) fun t hnext hafter => hafter ▸ ih t hnext

end Sys2Proof.Machine
end
